-- ==== Sys2Proof/Config.lean ====
section
/-!
DEFINITION. What an implementation of the CORE fixes: the parameters of rule R8 (00_scope.md), the
width `POS_BITS`, and the one value the spec leaves free (the bytes of an abandoned output buffer).
-/

namespace Sys2Proof.Config

/-- The default of `POS_BITS` (rule R8). `POS_BITS`, the width of every cursor, length and job register, is
the spec's OPEN parameter U14: a CORE's own width is a field of its state (`State.posBits`), so that every
claim about all states is about every width. This number is the width of `State.reset` only (log 1). -/
abbrev posBits : Nat := 32

/-- `LEN_BITS` (rules R8, R17): the width of the decoder's length accumulator. The model's lengths are
natural numbers (rule R9); a statement says that they fit this width. -/
def lenBits (posBits : Nat) : Nat := posBits + 9

/-- `MIN_MATCH` (rule R8): the shortest match the encoder accepts. -/
abbrev minMatch : Nat := 3

/-- `HASH_BITS` (rule R8): the hash table has `2^HASH_BITS` entries. -/
abbrev hashBits : Nat := 14

/-- `HASH_MULT` (rule R8): the multiplier of the hash function (rule R161). -/
abbrev hashMult : Nat := 0x1824429D

/-- `MAX_DIST` (rule R8): the largest distance the wire format can encode. -/
abbrev maxDist : Nat := 49151

/-- `M2_MAX_DIST` (rule R8): the largest distance of M2S and M2L. -/
abbrev m2MaxDist : Nat := 2048

/-- `M2_MAX_LEN` (rule R8): the largest length of M2S and M2L. -/
abbrev m2MaxLen : Nat := 8

/-- `M3_MAX_DIST` (rule R8): the largest distance of M3. -/
abbrev m3MaxDist : Nat := 16384

/-- `M3_INLINE_MAX_LEN` (rule R8): the largest M3 length with no extension byte. -/
abbrev m3InlineMaxLen : Nat := 33

/-- `M4_INLINE_MAX_LEN` (rule R8): the largest M4 length with no extension byte. -/
abbrev m4InlineMaxLen : Nat := 9

/-- `M1N_MAX_DIST` (rule R8): the largest distance of M1N. -/
abbrev m1nMaxDist : Nat := 1024

/-- `M1F_MIN_DIST` (rule R8): the smallest distance of M1F. -/
abbrev m1fMinDist : Nat := 2049

/-- `M1F_MAX_DIST` (rule R8): the largest distance of M1F. -/
abbrev m1fMaxDist : Nat := 3072

/-- `S_MAX` (rule R8): the largest literal count packed in a match's `S` field. -/
abbrev sMax : Nat := 3

/-- `LITF_MAX` (rule R8): the largest literal run LITF encodes. -/
abbrev litfMax : Nat := 238

/-- `LITR_INLINE_MAX` (rule R8): the largest literal run LITR encodes with no extension byte. -/
abbrev litrInlineMax : Nat := 18

/-- `WRK_BITS` (rule R8): the size of working memory, `2^HASH_BITS` entries of a valid bit and a position.
The model lists the valid entries only (log 5); a statement says that they fit this size. -/
def wrkBits (posBits : Nat) : Nat := 2 ^ hashBits * (1 + posBits)

/-- What a byte of `IN` or `OUT` that no one has stored reads as. The spec says the contents are
unspecified after reset and owned by the host (rule R39, U4). DESIGN CHOICE, log 6; unsafe. -/
def unlistedByte : BitVec 8 := 0#8

/-- The free bytes of an `OUT` buffer whose job a hardware reset abandons (rule R245, U6: "an
unspecified mixture of old and new bytes"): byte `a` of the `n`-th abandoned buffer. It has no body
here, so no proof can learn a value of it. Log 8. -/
opaque freeOutByte (n a : Nat) : BitVec 8

end Sys2Proof.Config
end

