-- ==== Sys2Proof/Word.lean ====
section
/-!
DEFINITION. The two word types of the CORE: the byte of the buffers (rule R50, 20_memory.md) and the
job register word of `POS_BITS` bits (rule R21, 10_state.md).
-/

namespace Sys2Proof

/-- The addressable unit (rule R50). -/
abbrev Byte := BitVec 8

/-- A job register of a CORE whose width `POS_BITS` is `posBits` (rule R21). -/
abbrev Word (posBits : Nat) := BitVec posBits

end Sys2Proof
end

