-- ==== Sys2Proof/Syntax.lean ====
section
/-!
DEFINITION. The instruction set: the nine wire instructions of the opcode map (rule R80,
30_encoding.md) and the four host commands (rule R200, 47_job_commands.md), with the operands of the
assembler syntax (rule R84); and the decoder state `st` (rule R31, 10_state.md) that selects among
them.
-/

namespace Sys2Proof

/-- The decoder state `st` (rule R31): what the previous instruction was. Encodings 6 and 7 of the
3-bit flag never occur, so the type has exactly the six legal values. -/
inductive St where
  /-- `START`: no instruction has executed yet in this job. -/
  | start
  /-- 0: a match with no trailing literals. -/
  | s0
  /-- 1: a match, or LITF, with 1 literal. -/
  | s1
  /-- 2: a match, or LITF, with 2 literals. -/
  | s2
  /-- 3: a match, or LITF, with 3 literals. -/
  | s3
  /-- 4: a literal run of 4 or more bytes. -/
  | s4
deriving DecidableEq, Repr

/-- One constructor per row of spec/opcode_table.json. A wire instruction carries the operands of
rule R84: `t` is a literal count, `dist` and `len` the match operands, `s` the number of trailing
literals. The literal bytes themselves stay in `IN` and are read when the instruction executes
(rule R101), because their bounds checks come after the match checks (rules R111, R231). -/
inductive Instr where
  /-- LITF, first-byte literal run of `t` bytes (rule R102). -/
  | litf (t : Nat)
  /-- M2L, match of length 5 to 8 within distance 2048 (rule R115). -/
  | m2l (dist len s : Nat)
  /-- M2S, match of length 3 or 4 within distance 2048 (rule R114). -/
  | m2s (dist len s : Nat)
  /-- M3, match of length 3 or more within distance 16384 (rule R116). -/
  | m3 (dist len s : Nat)
  /-- M4, match of length 3 or more at distance 16385 to 49151 (rule R117). -/
  | m4 (dist len s : Nat)
  /-- EOS, end of stream (rule R130); its length field and `S` are ignored. -/
  | eos
  /-- LITR, literal run of `t` bytes, 4 or more (rule R103). -/
  | litr (t : Nat)
  /-- M1F, match of length 3 at distance 2049 to 3072 (rule R113). -/
  | m1f (dist s : Nat)
  /-- M1N, match of length 2 within distance 1024 (rule R112). -/
  | m1n (dist s : Nat)
  /-- NOP host command (rule R201). -/
  | nop
  /-- INIT host command (rule R202). -/
  | init
  /-- COMPRESS host command (rule R203). -/
  | compress
  /-- DECOMPRESS host command (rule R204). -/
  | decompress
deriving DecidableEq, Repr

/-- The wire instructions are those of the instruction stream; the others are host commands, written
to `CMD` (rule R80, last paragraph). -/
def Instr.isWire : Instr → Bool
  | .litf _ | .m2l _ _ _ | .m2s _ _ _ | .m3 _ _ _ | .m4 _ _ _ | .eos | .litr _ | .m1f _ _ | .m1n _ _ => true
  | .nop | .init | .compress | .decompress => false

end Sys2Proof
end

