-- ==== Sys2Proof/WellFormed.lean ====
section
/-!
DEFINITION. Which operands an instruction can carry (the constraints of the assembler syntax, rule
R84, and the ranges of rules R72 to R78, 30_encoding.md), and in which decoder states it can stand
(the `state` column of the opcode map, rule R80).
-/

namespace Sys2Proof

/-- `n` lies in the inclusive range from `lo` to `hi`. -/
def inRange (lo hi n : Nat) : Bool := decide (lo ≤ n) && decide (n ≤ hi)

/-- The operand constraints of rule R84. A host command has no operands. -/
def Instr.wf : Instr → Bool
  | .litf t => inRange 1 Config.litfMax t
  | .m2l dist len s => inRange 1 Config.m2MaxDist dist && inRange 5 Config.m2MaxLen len && inRange 0 Config.sMax s
  | .m2s dist len s => inRange 1 Config.m2MaxDist dist && inRange 3 4 len && inRange 0 Config.sMax s
  | .m3 dist len s => inRange 1 Config.m3MaxDist dist && decide (3 ≤ len) && inRange 0 Config.sMax s
  | .m4 dist len s =>
    inRange (Config.m3MaxDist + 1) Config.maxDist dist && decide (3 ≤ len) && inRange 0 Config.sMax s
  | .eos => true
  | .litr t => decide (4 ≤ t)
  | .m1f dist s => inRange Config.m1fMinDist Config.m1fMaxDist dist && inRange 0 Config.sMax s
  | .m1n dist s => inRange 1 Config.m1nMaxDist dist && inRange 0 Config.sMax s
  | .nop => true
  | .init => true
  | .compress => true
  | .decompress => true

/-- The decoder states in which a wire instruction can stand (rules R80, R84). At `START` an M4 needs
a tag of `0x10` or `0x11`: distance bit 14 clear, and either length 3 or an extended length. A host
command stands in no decoder state. -/
def Instr.selectableIn : St → Instr → Bool
  | st, .litf _ => st == .start
  | st, .m2l _ _ _ => st != .start
  | st, .m2s _ _ _ => st != .start
  | st, .m3 _ _ _ => st != .start
  | st, .m4 dist len _ =>
    st != .start || (decide (dist < 2 * Config.m3MaxDist) && (len == 3 || decide (Config.m4InlineMaxLen < len)))
  | _, .eos => true
  | st, .litr _ => st == .start || st == .s0
  | st, .m1f _ _ => st == .s4
  | st, .m1n _ _ => st == .s1 || st == .s2 || st == .s3
  | _, .nop => false
  | _, .init => false
  | _, .compress => false
  | _, .decompress => false

end Sys2Proof
end

