-- ==== Sys2Proof/Decode.lean ====
section
/-!
DEFINITION. Decoding the instruction stream and the `CMD` value (30_encoding.md, rule R141 of
44_decoder_sequencing.md, rules R22 and R205), total on any bytes, with a named rejection; then the
encoder of well-formed instructions (rule R84) written from the same formats.
The bit layout is the spec's decision D1 (log 12).
-/

namespace Sys2Proof

/-- The bit field `b[hi:lo]` as an unsigned number (rule R13). -/
def bits (b : Byte) (hi lo : Nat) : Nat := b.toNat / 2 ^ lo % 2 ^ (hi + 1 - lo)

/-- The byte of value `n` (used where a formula of the spec gives a value below 256). -/
def byteOf (n : Nat) : Byte := BitVec.ofNat 8 n

/-- The row of the opcode map a tag byte selects; M4 and EOS share a row (rule R80). -/
inductive Form where
  | litf | m2l | m2s | m3 | m4OrEos | litr | m1f | m1n
deriving DecidableEq, Repr

/-- Why no instruction is read. -/
inductive DecodeError where
  /-- No byte is left where a tag is due: the machine raises `EofNotFound` (rule R143). -/
  | noTag
  /-- The bytes end inside an instruction: the machine raises `InputOverrun` (rule R141,
  `FetchByte`). -/
  | truncated
deriving DecidableEq, Repr

/-- Dispatch, a total function of `(tag, st)`, tested in the order of rule R141. -/
def dispatchForm (st : St) (tag : Byte) : Form :=
  if st = .start ∧ 18 ≤ tag.toNat then .litf
  else if 0x80 ≤ tag.toNat then .m2l
  else if 0x40 ≤ tag.toNat then .m2s
  else if 0x20 ≤ tag.toNat then .m3
  else if 0x10 ≤ tag.toNat then .m4OrEos
  else if st = .start ∨ st = .s0 then .litr
  else if st = .s4 then .m1f
  else .m1n

/-- `ExtLen(base)` (rule R77): zero bytes worth 255 each, closed by one non-zero byte. `none` where
the bytes end first. -/
def extLen (base : Nat) : List Byte → Option (Nat × List Byte)
  | [] => none
  | b :: rest =>
    if b = 0#8 then (extLen base rest).map fun (v, rest') => (v + 255, rest')
    else some (base + b.toNat, rest)

/-- A length field: the inline value `inl` plus `bias`, or, when it is 0, `bias + ExtLen(base)`
(rules R73, R75). -/
def lengthField (inl bias base : Nat) (rest : List Byte) : Option (Nat × List Byte) :=
  if inl = 0 then (extLen base rest).map fun (v, rest') => (bias + v, rest')
  else some (bias + inl, rest)

/-- `D14 = b0[7:2] + (b1 << 6)` (rule R76). -/
def dist14 (b0 b1 : Byte) : Nat := bits b0 7 2 + b1.toNat * 64

/-- The one extra byte `H` of format S (rule R74). -/
def decodeShort (mk : Nat → Instr) : List Byte → Option (Instr × List Byte)
  | [] => none
  | h :: rest => some (mk h.toNat, rest)

/-- The two distance bytes of format W (rule R75). -/
def decodeWide (mk : Byte → Byte → Instr) : List Byte → Option (Instr × List Byte)
  | b0 :: b1 :: rest => some (mk b0 b1, rest)
  | _ => none

/-- M4 or EOS, told apart by `H1 = 0` and `D14 = 0` after the distance bytes are read (rules R81,
R117). -/
def m4OrEos (tag : Byte) (len : Nat) (b0 b1 : Byte) : Instr :=
  if bits tag 3 3 = 0 ∧ dist14 b0 b1 = 0 then .eos
  else .m4 (16384 + bits tag 3 3 * 16384 + dist14 b0 b1) len (bits b0 1 0)

/-- The operands of each form, from the tag and the bytes after it (rules R72 to R78). -/
def decodeOperands : Form → Byte → List Byte → Option (Instr × List Byte)
  | .litf, tag, rest => some (.litf (tag.toNat - 17), rest)
  | .litr, tag, rest =>
    (lengthField (bits tag 3 0) 3 15 rest).map fun (t, rest') => (.litr t, rest')
  | .m1n, tag, rest => decodeShort (fun h => .m1n (h * 4 + bits tag 3 2 + 1) (bits tag 1 0)) rest
  | .m1f, tag, rest => decodeShort (fun h => .m1f (h * 4 + bits tag 3 2 + 2049) (bits tag 1 0)) rest
  | .m2s, tag, rest =>
    decodeShort (fun h => .m2s (h * 8 + bits tag 4 2 + 1) (bits tag 7 5 + 1) (bits tag 1 0)) rest
  | .m2l, tag, rest =>
    decodeShort (fun h => .m2l (h * 8 + bits tag 4 2 + 1) (bits tag 7 5 + 1) (bits tag 1 0)) rest
  | .m3, tag, rest =>
    (lengthField (bits tag 4 0) 2 31 rest).bind fun (len, rest') =>
      decodeWide (fun b0 b1 => .m3 (dist14 b0 b1 + 1) len (bits b0 1 0)) rest'
  | .m4OrEos, tag, rest =>
    (lengthField (bits tag 2 0) 2 7 rest).bind fun (len, rest') => decodeWide (m4OrEos tag len) rest'

/-- One wire instruction at the head of `bytes` in decoder state `st`, with the bytes after its
encoding (its literal bytes first), or the reason there is none. No tag value is refused in any state
(rules R80, R82). -/
def decode (st : St) : List Byte → Except DecodeError (Instr × List Byte)
  | [] => .error .noTag
  | tag :: rest =>
    match decodeOperands (dispatchForm st tag) tag rest with
    | some r => .ok r
    | none => .error .truncated

/-- The command a value written to `CMD` selects by `OP = CMD[1:0]`; none where a reserved bit
`CMD[POS_BITS-1:2]` is set (rules R22, R205). -/
def decodeCommand {posBits : Nat} (w : Word posBits) : Option Instr :=
  match w.toNat with
  | 0 => some .nop
  | 1 => some .init
  | 2 => some .compress
  | 3 => some .decompress
  | _ => none

/-! ## The encoder of well-formed instructions (rule R84) -/

/-- `EmitExt(x)` for `x ≥ 1` (rule R77): `ceil(x/255) - 1` zero bytes and the closing byte. -/
def extBytes (x : Nat) : List Byte :=
  List.replicate ((x - 1) / 255) 0#8 ++ [byteOf (x - 255 * ((x - 1) / 255))]

/-- A tag with an inline length field: `op + (len - bias)` up to the largest inline length, else `op`
and the extension bytes (rules R73, R75, R84). -/
def lengthBytes (op bias inlineMax len : Nat) : List Byte :=
  if len ≤ inlineMax then [byteOf (op + (len - bias))] else byteOf op :: extBytes (len - inlineMax)

/-- The encoding of a wire instruction, without its literal bytes (rule R84, column "encodes as").
The encoding of EOS is the canonical one (rule R81). A host command has no bytes in the stream. -/
def encodeWire : Instr → List Byte
  | .litf t => [byteOf (17 + t)]
  | .litr t => lengthBytes 0 3 18 t
  | .m1n dist s => [byteOf ((dist - 1) % 4 * 4 + s), byteOf ((dist - 1) / 4)]
  | .m1f dist s => [byteOf ((dist - 2049) % 4 * 4 + s), byteOf ((dist - 2049) / 4)]
  | .m2s dist len s => [byteOf ((len - 1) * 32 + (dist - 1) % 8 * 4 + s), byteOf ((dist - 1) / 8)]
  | .m2l dist len s => [byteOf ((len - 1) * 32 + (dist - 1) % 8 * 4 + s), byteOf ((dist - 1) / 8)]
  | .m3 dist len s =>
    lengthBytes 0x20 2 33 len ++ [byteOf ((dist - 1) % 64 * 4 + s), byteOf ((dist - 1) / 64)]
  | .m4 dist len s =>
    lengthBytes (0x10 + (dist - 16384) / 16384 * 8) 2 9 len
      ++ [byteOf ((dist - 16384) % 64 * 4 + s), byteOf ((dist - 16384) / 64 % 256)]
  | .eos => [0x11#8, 0x00#8, 0x00#8]
  | .nop | .init | .compress | .decompress => []

/-- The value to write to `CMD` for a host command (rules R201 to R204); a wire instruction has
none. -/
def encodeCommand : Instr → Option Nat
  | .nop => some 0
  | .init => some 1
  | .compress => some 2
  | .decompress => some 3
  | .litf _ | .m2l _ _ _ | .m2s _ _ _ | .m3 _ _ _ | .m4 _ _ _ | .eos | .litr _ | .m1f _ _ | .m1n _ _ => none

/-- The words of an instruction: stream bytes, or a `CMD` value. -/
inductive Words where
  | stream (bytes : List Byte)
  | command (value : Nat)
deriving DecidableEq, Repr

/-- The words of a well-formed instruction. -/
def encode (i : Instr) : Words :=
  match encodeCommand i with
  | some w => .command w
  | none => .stream (encodeWire i)

/-! ## The opcode table's words -/

/-- The `k` low bytes of `w`, least significant first: the order in which the stream stores them. -/
def bytesOf : Nat → Nat → List Byte
  | 0, _ => []
  | k + 1, w => byteOf w :: bytesOf k (w / 256)

/-- Whether a tag read in state 0 has a zero length field, so that extension bytes follow it (LITR,
M3, M4/EOS; rules R73, R75). -/
def opensExtension (tag : Byte) : Bool := tag.toNat ∈ [0x00, 0x10, 0x18, 0x20]

/-- The stream bytes of a table word (log 13): the word's own bytes, then zero operand bytes. The
table gives only the tag; where the tag opens a length extension, whose closing byte is never zero
(rule R77), the smallest closing byte `01` comes first. -/
def tableBytes (nbits w : Nat) : List Byte :=
  bytesOf (nbits / 8) w
    ++ (if nbits = 8 ∧ opensExtension (byteOf w) = true then [1#8] else [])
    ++ List.replicate 30 0#8

/-- The decoder state in which a table word is read: 0, the state after a match with no trailing
literals, in which the most rows of the map can be selected (log 13). -/
def tableState : St := .s0

/-- The instruction the decoder reads from a table word: a `CMD` value of `POS_BITS` bits, or stream
bytes. -/
def decodeTableWord (nbits w : Nat) : Option Instr :=
  if nbits = Config.posBits then decodeCommand (BitVec.ofNat Config.posBits w)
  else
    match decode tableState (tableBytes nbits w) with
    | .ok (i, _) => some i
    | .error _ => none

end Sys2Proof
end

