-- ==== Sys2Proof/Machine/State.lean ====
section
/-!
DEFINITION. The state of the CORE as plain data (10_state.md), its reset value (rule R39), the status
codes (rule R216), the host's moves (rules R208, R245), and the reasons a step can stop.
-/

namespace Sys2Proof.Machine

/-- The status codes (rule R216, 60_exceptions.md): a closed set. -/
inductive Kind where
  | ok
  | error
  | outOfMemory
  | notCompressible
  | inputOverrun
  | outputOverrun
  | lookbehindOverrun
  | eofNotFound
  | inputNotConsumed
  /-- Never raised (rule R225). -/
  | notYetImplemented
  | invalidArgument
  /-- Never raised (rule R227). -/
  | invalidAlignment
  | outputNotConsumed
  /-- Unreachable (rule R229). -/
  | internalError
deriving DecidableEq, Repr

/-- Which engine a job runs on; `idle` is `STATUS.BUSY = 0` (rules R11, R23; log 23). -/
inductive Engine where
  | idle
  | encoder
  | decoder
deriving DecidableEq, Repr

/-- A buffer, `IN` or `OUT` (rule R36): the bytes stored in it, by offset, strictly rising, no entry
equal to what an unlisted offset reads as (log 6). -/
abbrev Memory := List Host.Cell

/-- The hash table `HT` (rule R34): the valid entries `(index, pos)`, indices strictly rising. An
index not listed is an invalid entry, whose `pos` is never read (U7; log 5). -/
abbrev HashTable := List (Nat × Nat)

/-- One move of the host (rules R206, R208, R245) on a CORE of width `POS_BITS` = `posBits`. -/
inductive HostAction (posBits : Nat) where
  /-- Write `v` to job register `r`, 0 to 7 (rule R21). -/
  | writeReg (r : Fin 8) (v : Word posBits)
  /-- Store a byte in the buffer bound to `IN` (rule R208). -/
  | storeIn (a : Word posBits) (b : Byte)
  /-- Store a byte in the buffer bound to `OUT` (rule R208). -/
  | storeOut (a : Word posBits) (b : Byte)
  /-- Hardware reset (rule R245). -/
  | hardReset
  /-- The host does nothing for one step of the engine. -/
  | engineTurn
  /-- The host polls `STATUS` until no job runs (rules R206, R207). -/
  | awaitDone
deriving DecidableEq, Repr

/-- The state of the CORE. -/
structure State where
  /-- `POS_BITS`, the width of this CORE (rule R8, U14): a parameter, constant (no step changes it, log 1). -/
  posBits : Nat
  /-- `STATUS.BUSY`, and the engine of the running job (rule R23). -/
  active : Engine
  /-- `STATUS.DONE` (rule R23). -/
  done : Bool
  /-- `STATUS.INIT_OK` (rules R23, R38). -/
  initOk : Bool
  /-- `STATUS.CODE` (rule R23). -/
  code : Kind
  /-- Job register 2, `IN_LEN` (rule R24). -/
  inLen : Word posBits
  /-- Job register 3, `OUT_CAP` (rule R25). -/
  outCap : Word posBits
  /-- Job register 4, `OUT_LEN` (rule R26). -/
  outLen : Word posBits
  /-- Job register 5, `FAULT_IP` (rule R27). -/
  faultIp : Word posBits
  /-- Job register 6, `FAULT_OP` (rule R27). -/
  faultOp : Word posBits
  /-- Decoder input cursor, the program counter (rules R29, R30; log 2). -/
  ip : Nat
  /-- Decoder output cursor (rule R29). -/
  op : Nat
  /-- Decoder state flag (rule R31). -/
  st : St
  /-- Latch of `ip` at the start of the instruction (rule R29). -/
  ipc : Nat
  /-- Latch of `op` at the start of the instruction (rule R29). -/
  opc : Nat
  /-- Encoder scan cursor `ip` (rule R33). -/
  eip : Nat
  /-- Encoder cursor `ii`, the start of the pending literal run (rule R33). -/
  eii : Nat
  /-- Encoder output cursor `op` (rule R33). -/
  eop : Nat
  /-- Working memory: the hash table (rule R34). -/
  ht : HashTable
  /-- The buffer `IN` (rule R36). -/
  inMem : Memory
  /-- The buffer `OUT` (rule R36). -/
  outMem : Memory
  /-- The host's pending moves, oldest first (the model's own field, log 7). -/
  inputs : List (HostAction posBits)
  /-- How many output buffers a hardware reset has abandoned (the model's own field: it picks the
  free bytes of the next one, log 8). -/
  freeCount : Nat
deriving DecidableEq, Repr

/-- The state right after hardware reset at power-on (rule R39) of a CORE of width `POS_BITS` = `posBits`: job
registers 0, idle, `INIT_OK` 0. Call-scoped state is unspecified there and is given named values (log 3,
log 4, log 5); nothing is stored in the buffers (log 6). -/
def State.resetOf (posBits : Nat) : State where
  posBits := posBits
  active := .idle
  done := false
  initOk := false
  code := .ok
  inLen := 0
  outCap := 0
  outLen := 0
  faultIp := 0
  faultOp := 0
  ip := 0
  op := 0
  st := .start
  ipc := 0
  opc := 0
  eip := 0
  eii := 0
  eop := 0
  ht := []
  inMem := []
  outMem := []
  inputs := []
  freeCount := 0

/-- The state right after hardware reset, at the spec's default width (rules R8, R39; log 1). -/
def State.reset : State := State.resetOf Config.posBits

/-- Why the machine stops with a fault. These are the model's own guards, not the CORE's failure
kinds (those are taken as next states, rule R232). -/
inductive Fault where
  /-- Raised by `State.readIn`: a read of `IN` at or beyond `IN_LEN`, an offset that does not exist
  (rule R56). Safe: the machine stops where rule R230 says no access is made. Unreachable in a state
  that meets the invariants of Safety.lean (rule R144). -/
  | inReadOutside
  /-- Raised by `State.writeOut`: a write of `OUT` at or beyond `OUT_CAP` (rule R56). Safe and
  unreachable, as above. -/
  | outWriteOutside
  /-- Raised by `State.readOut`: a read of an `OUT` byte before offset 0 or one this job has not
  written (rules R55, R59). Safe and unreachable, as above. -/
  | outReadUnwritten
deriving DecidableEq, Repr

/-- Why a step has no meaning. -/
inductive Refusal where
  /-- An instruction with no meaning in the model; no arm of `exec` uses it now. Safe. -/
  | notModelled (mnemonic : String)
  /-- Raised by the meaning of a wire instruction when no DECOMPRESS job runs: the decoder's
  registers have no meaning then, and reading them is an error in the model (rule R40; log 10).
  Safe; `step` never raises it. -/
  | noDecompressJob
  /-- Raised by a host store to `IN` or `OUT` while a job runs: the host has no such move (rule R249,
  U2: "refuse"; log 9). Safe for a claim about the step; the claims about jobs hold only for hosts
  that keep the rule. -/
  | bufferStoreWhileBusy
deriving DecidableEq, Repr

end Sys2Proof.Machine
end

