-- ==== Sys2Proof/Machine/Flags.lean ====
section
/-!
DEFINITION. The flag the CORE keeps besides `STATUS`, the decoder state `st` (rules R31, R142), and the
`STATUS` word itself (rule R23) with the numeric status codes (rule R216).
-/

namespace Sys2Proof.Machine

/-- The 3-bit encoding of `st` (rule R31). -/
def stCode : St → BitVec 3
  | .s0 => 0
  | .s1 => 1
  | .s2 => 2
  | .s3 => 3
  | .s4 => 4
  | .start => 5

/-- `st` after an instruction with `n` literals (rule R142): `n` where `n < 4`, else 4. It serves LITF
(`t` literals) and every match (`S` trailing literals, at most 3). -/
def stAfter : Nat → St
  | 0 => .s0
  | 1 => .s1
  | 2 => .s2
  | 3 => .s3
  | _ => .s4

/-- The numeric status code of each kind (rule R216). -/
def kindCode : Kind → Nat
  | .ok => 0
  | .error => 1
  | .outOfMemory => 2
  | .notCompressible => 3
  | .inputOverrun => 4
  | .outputOverrun => 5
  | .lookbehindOverrun => 6
  | .eofNotFound => 7
  | .inputNotConsumed => 8
  | .notYetImplemented => 9
  | .invalidArgument => 10
  | .invalidAlignment => 11
  | .outputNotConsumed => 12
  | .internalError => 99

/-- `STATUS.BUSY`: 1 from job start to job end (rule R23). -/
def State.busy (s : State) : Bool := s.active != .idle

/-- The `STATUS` word (rule R23): bit 0 `BUSY`, bit 1 `DONE`, bit 2 `INIT_OK`, bits 15:8 `CODE`, the
other bits 0. -/
def State.status (s : State) : Word s.posBits :=
  BitVec.ofNat s.posBits
    (s.busy.toNat + 2 * s.done.toNat + 4 * s.initOk.toNat + 256 * kindCode s.code)

end Sys2Proof.Machine
end

