-- ==== Sys2Proof/Machine/Operands.lean ====
section
/-!
DEFINITION. How operands reach the buffers and the hash table: byte reads and writes of a buffer
(rules R54, R55), the checked accesses of a job (rules R56, R230), the source offset of a match (rule
R78), table entries (rule R34), and the capacity a COMPRESS job needs (rule R8).
-/

namespace Sys2Proof.Machine

/-- The byte at offset `a` of a buffer (rule R55). -/
def Memory.read : Memory → Nat → Byte
  | [], _ => Config.unlistedByte
  | (x, b) :: m, a => if a = x then b else if a < x then Config.unlistedByte else Memory.read m a

/-- Store byte `v` at offset `a`, keeping the canonical form. -/
def Memory.write : Memory → Nat → Byte → Memory
  | [], a, v => if v = Config.unlistedByte then [] else [(a, v)]
  | (x, b) :: m, a, v =>
    if a < x then (if v = Config.unlistedByte then (x, b) :: m else (a, v) :: (x, b) :: m)
    else if a = x then (if v = Config.unlistedByte then m else (x, v) :: m)
    else (x, b) :: Memory.write m a v

/-- The cells stand at strictly rising offsets, none below `lo`, and none holds the unlisted byte. -/
def Memory.wfFrom : Nat → Memory → Bool
  | _, [] => true
  | lo, (x, b) :: m => decide (lo ≤ x) && (b != Config.unlistedByte) && Memory.wfFrom (x + 1) m

/-- The canonical form of a buffer (log 6). -/
def Memory.wf (m : Memory) : Bool := Memory.wfFrom 0 m

/-- The `n` bytes from offset `a`, in ascending order (rule R50). -/
def Memory.slice (m : Memory) : Nat → Nat → List Byte
  | _, 0 => []
  | a, n + 1 => m.read a :: Memory.slice m (a + 1) n

/-- Store bytes at ascending offsets from `a`. -/
def Memory.writeBytes : Memory → Nat → List Byte → Memory
  | m, _, [] => m
  | m, a, b :: bs => Memory.writeBytes (m.write a b) (a + 1) bs

/-- `HT[h]` (rule R34): the position of a valid entry. -/
def HashTable.get : HashTable → Nat → Option Nat
  | [], _ => none
  | (k, p) :: t, h => if h = k then some p else if h < k then none else HashTable.get t h

/-- `HT[h] <- (1, p)` (rule R162). -/
def HashTable.put : HashTable → Nat → Nat → HashTable
  | [], h, p => [(h, p)]
  | (k, q) :: t, h, p =>
    if h < k then (h, p) :: (k, q) :: t
    else if h = k then (k, p) :: t
    else (k, q) :: HashTable.put t h p

/-- The entries stand at strictly rising indices, none below `lo`, all below `2^HASH_BITS`. -/
def HashTable.wfFrom : Nat → HashTable → Bool
  | _, [] => true
  | lo, (k, _) :: t => decide (lo ≤ k) && decide (k < 2 ^ Config.hashBits) && HashTable.wfFrom (k + 1) t

/-- The canonical form of the hash table (log 5). -/
def HashTable.wf (t : HashTable) : Bool := HashTable.wfFrom 0 t

/-- `MemRead(IN, a, 1)` (rules R15, R36): the offsets that exist are those below `IN_LEN` (rule
R56). -/
def State.readIn (s : State) (a : Nat) : Except Fault Byte :=
  if a < s.inLen.toNat then .ok (s.inMem.read a) else .error .inReadOutside

/-- `MemWrite(OUT, a, 1, v)` (rules R15, R36): the offsets that exist are those below `OUT_CAP` (rule
R56). -/
def State.writeOut (s : State) (a : Nat) (v : Byte) : Except Fault State :=
  if a < s.outCap.toNat then .ok { s with outMem := s.outMem.write a v } else .error .outWriteOutside

/-- `MemRead(OUT, back - dist, 1)` where the job has written the offsets below `back`: the byte `dist`
before offset `back` (rules R55, R59 (c)). -/
def State.readOutBack (s : State) (back dist : Nat) : Except Fault Byte :=
  if 1 ≤ dist ∧ dist ≤ back then .ok (s.outMem.read (back - dist)) else .error .outReadUnwritten

/-- The unread bytes of the instruction stream, from `ip` to the end of `IN` (rules R52, R140). -/
def State.unread (s : State) : List Byte := s.inMem.slice s.ip (s.inLen.toNat - s.ip)

/-- `WORST_CASE(n)` (rule R8): the output capacity a COMPRESS job on `n` bytes needs. -/
def worstCase (n : Nat) : Nat := n + n / 16 + 64 + 3

end Sys2Proof.Machine
end

