-- ==== Sys2Proof/Machine/Ops.lean ====
section
/-!
DEFINITION. The operations every instruction is built from: the flow of an instruction through its
sub-operations, job start (rule R40), job end (rule R207), fault entry (rule R232), hardware reset
(rule R245), the two bounds-checked copies (rules R101, R110), and register access by the host (rule
R21).
-/

namespace Sys2Proof.Machine

/-- Where an operation leaves the instruction it is part of. -/
inductive Flow where
  /-- The operation is done and the instruction goes on. -/
  | go (s : State)
  /-- A `raise`, or the end of the job: no later statement of the instruction runs (rule R15). -/
  | ended (s : State)
  /-- An access the model does not allow (unreachable, log 11). -/
  | stuck (f : Fault)
deriving Repr

/-- Sequencing: the next operation runs only where the instruction goes on. -/
def Flow.andThen : Flow → (State → Flow) → Flow
  | .go s, f => f s
  | .ended s, _ => .ended s
  | .stuck r, _ => .stuck r

/-- The outcome of a whole step: a raise is a next state too (rule R232). -/
def Flow.outcome : Flow → Host.Outcome State Fault Refusal
  | .go s => .next s
  | .ended s => .next s
  | .stuck r => .fault r

/-- Continue with the value of a checked access, or stop on its fault. -/
def withAccess {α : Type} (r : Except Fault α) (f : α → Flow) : Flow :=
  match r with
  | .ok v => f v
  | .error e => .stuck e

/-! ## Jobs -/

/-- "End the job" (rule R207): the result registers and `CODE`, then `BUSY <- 0` and `DONE <- 1`. The
call-scoped registers (`ip`, `op`, `st`, the latches, `eip`, `eii`, `eop`, the table) have any value
between jobs (U5, rules R20, R246); here they keep the ended job's values until the next job start
writes them. DESIGN CHOICE, log 25; unsafe. -/
def State.endJob (s : State) (k : Kind) (len fip fop : Nat) : State :=
  { s with
    outLen := BitVec.ofNat s.posBits len
    faultIp := BitVec.ofNat s.posBits fip
    faultOp := BitVec.ofNat s.posBits fop
    code := k
    active := .idle
    done := true }

/-- The end of a job with code Ok and `len` bytes of output (rules R26, R27, R207). -/
def State.endOk (s : State) (len : Nat) : State := s.endJob .ok len 0 0

/-- The cursors fault entry records (rules R27, R232): `ipc`, `opc` of a DECOMPRESS job, `ip`, `op` of
a COMPRESS job, 0 where no engine has started. -/
def State.faultCursors (s : State) : Nat × Nat :=
  match s.active with
  | .decoder => (s.ipc, s.opc)
  | .encoder => (s.eip, s.eop)
  | .idle => (0, 0)

/-- `raise K`: fault entry (rule R232). Nothing else changes; there is no return (rule R233). -/
def State.raise (s : State) (k : Kind) : State := s.endJob k 0 s.faultCursors.1 s.faultCursors.2

/-- What every job start writes (rule R40). -/
def State.startJob (s : State) (e : Engine) : State :=
  { s with active := e, done := false, code := .ok, outLen := 0, faultIp := 0, faultOp := 0 }

/-- Job start of DECOMPRESS (rule R40). -/
def State.startDecoder (s : State) : State :=
  { s.startJob .decoder with ip := 0, op := 0, st := .start, ipc := 0, opc := 0 }

/-- Job start of COMPRESS (rule R40): the cursors 0 and every table entry invalid. -/
def State.startEncoder (s : State) : State :=
  { s.startJob .encoder with eip := 0, eii := 0, eop := 0, ht := [] }

/-! ## Copies of the decoder -/

/-- The byte moves of `LitCopy`: `n` bytes from offset `src` of `IN` to offset `dst` of `OUT`,
ascending. -/
def copyFromIn : Nat → Nat → Nat → State → Flow
  | 0, _, _, s => .go s
  | n + 1, src, dst, s =>
    withAccess (s.readIn src) fun b =>
      withAccess (s.writeOut dst b) fun s' => copyFromIn n (src + 1) (dst + 1) s'

/-- The byte moves of `MatchCopy`: `n` bytes to offset `dst` of `OUT`, each from `dist` before it,
ascending, one byte at a time (rule R60). -/
def copyFromOut : Nat → Nat → Nat → State → Flow
  | 0, _, _, s => .go s
  | n + 1, dist, dst, s =>
    withAccess (s.readOutBack dst dist) fun b =>
      withAccess (s.writeOut dst b) fun s' => copyFromOut n dist (dst + 1) s'

/-- `LitCopy(t)` (rule R101): the input check, then the output check, then the copy. -/
def litCopy (t : Nat) (s : State) : Flow :=
  if s.inLen.toNat - s.ip < t then .ended (s.raise .inputOverrun)
  else if s.outCap.toNat - s.op < t then .ended (s.raise .outputOverrun)
  else (copyFromIn t s.ip s.op s).andThen fun s' => .go { s' with ip := s'.ip + t, op := s'.op + t }

/-- `MatchCopy(dist, len)` (rule R110): the lookbehind check, then the output check, then the copy. -/
def matchCopy (dist len : Nat) (s : State) : Flow :=
  if s.op < dist then .ended (s.raise .lookbehindOverrun)
  else if s.outCap.toNat - s.op < len then .ended (s.raise .outputOverrun)
  else (copyFromOut len dist s.op s).andThen fun s' => .go { s' with op := s'.op + len }

/-- The common body of the match instructions (rule R111): the match copy, the trailing literals, then
`st <- S`. -/
def matchThenLiterals (dist len sc : Nat) (s : State) : Flow :=
  (matchCopy dist len s).andThen fun s' =>
    (litCopy sc s').andThen fun s'' => .go { s'' with st := stAfter sc }

/-- The common body of the literal instructions (rules R102, R103): the literal copy, then `st`. -/
def literalRun (t : Nat) (after : St) (s : State) : Flow :=
  (litCopy t s).andThen fun s' => .go { s' with st := after }

/-- A wire instruction executes only while a DECOMPRESS job runs: outside one the decoder's registers
have no meaning (rules R20, R40; log 10). -/
def inDecompressJob (s : State) (body : State → Flow) : Host.Outcome State Fault Refusal :=
  if s.active = .decoder then (body s).outcome else .refused .noDecompressJob

/-! ## Hardware reset -/

/-- `OUT` with the bytes at offsets below `n` replaced by the free bytes of the abandoned buffer `k`
(rule R245, U6; log 8). -/
def abandonBytes (k : Nat) : Nat → Memory → Memory
  | 0, m => m
  | n + 1, m => abandonBytes k n (m.write n (Config.freeOutByte k n))

/-- The output cursor of an engine. -/
def State.cursorOf (s : State) (e : Engine) : Nat :=
  match e with
  | .decoder => s.op
  | .encoder => s.eop
  | .idle => 0

/-- Hardware reset (rule R245): the registers take the values of rule R39, a running job is abandoned
without a result; `IN` is not touched, and of `OUT` only the `n` bytes the abandoned job may have written,
which become free bytes (no byte where no job runs). -/
def State.hardReset (s : State) (n : Nat) : State :=
  { State.resetOf s.posBits with
    inMem := s.inMem
    outMem := abandonBytes s.freeCount n s.outMem
    inputs := s.inputs
    freeCount := if s.busy then s.freeCount + 1 else s.freeCount }

/-! ## The job registers as the host sees them (rule R21) -/

/-- `CFG` (rule R28): bits 7:0 `POS_BITS`, bits 15:8 `HASH_BITS`. -/
def cfgWord (posBits : Nat) : Word posBits := BitVec.ofNat posBits (posBits + 256 * Config.hashBits)

/-- What the host reads from job register `r`; a read changes nothing (rules R21, R206). -/
def State.readReg (s : State) (r : Fin 8) : Word s.posBits :=
  match r with
  | 0 => 0
  | 1 => s.status
  | 2 => s.inLen
  | 3 => s.outCap
  | 4 => s.outLen
  | 5 => s.faultIp
  | 6 => s.faultOp
  | 7 => cfgWord s.posBits

/-- A host write to a job register other than `CMD` (rules R21, R206): `IN_LEN` and `OUT_CAP` take the
value while no job runs; every other write is ignored. -/
def State.writeOperandReg (s : State) (r : Fin 8) (v : Word s.posBits) : State :=
  if s.busy then s
  else if r = 2 then { s with inLen := v }
  else if r = 3 then { s with outCap := v }
  else s

end Sys2Proof.Machine
end

