-- ==== Sys2Proof/Machine/Command.lean ====
section
/-!
DEFINITION. The meanings of the host commands (47_job_commands.md). A command written while a job runs
is ignored (rule R206). COMPRESS and DECOMPRESS start the job; its engine takes the following steps
(rule R11; log 15).
-/

namespace Sys2Proof.Machine

/-- A command takes effect only while `BUSY = 0`; otherwise the write changes nothing (rule R206). -/
def whenIdle (s : State) (f : State → State) : Host.Outcome State Fault Refusal :=
  if s.busy then .next s else .next (f s)

/-- NOP (rule R201): no register changes (`OUT_LEN` neither, log 24). -/
def execNop (s : State) : Host.Outcome State Fault Refusal := whenIdle s fun s => s

/-- The effect of INIT (rule R202): the result registers are cleared, `INIT_OK` is set, the command is
done with code Ok. -/
def State.initialise (s : State) : State := { s with initOk := true }.endOk 0

/-- INIT (rule R202). -/
def execInit (s : State) : Host.Outcome State Fault Refusal := whenIdle s State.initialise

/-- COMPRESS up to its first engine step (rule R203): job start, then the `INIT_OK` check, then the
capacity check. -/
def State.beginCompress (s : State) : State :=
  if s.initOk = false then s.startEncoder.raise .error
  else if s.outCap.toNat < worstCase s.inLen.toNat then s.startEncoder.raise .outOfMemory
  else s.startEncoder

/-- COMPRESS (rule R203). -/
def execCompress (s : State) : Host.Outcome State Fault Refusal := whenIdle s State.beginCompress

/-- DECOMPRESS up to its first engine step (rule R204): job start, then the `INIT_OK` check. -/
def State.beginDecompress (s : State) : State :=
  if s.initOk = false then s.startDecoder.raise .error else s.startDecoder

/-- DECOMPRESS (rule R204). -/
def execDecompress (s : State) : Host.Outcome State Fault Refusal := whenIdle s State.beginDecompress

/-- A `CMD` value with a reserved bit set, written while `BUSY = 0` (rules R205, R226): code
`InvalidArgument`, no engine starts, `INIT_OK` and the buffers are unchanged. -/
def State.rejectCommand (s : State) : State := s.raise .invalidArgument

end Sys2Proof.Machine
end

