-- ==== Sys2Proof/Machine/EndOfStream.lean ====
section
/-!
DEFINITION. The meaning of the end-of-stream instruction (43_end_of_stream.md).
-/

namespace Sys2Proof.Machine

/-- The checks of EOS in their order, then the successful end of the job (rule R130). -/
def endOfStream (s : State) : Flow :=
  if s.op ≠ s.outCap.toNat then .ended (s.raise .outputNotConsumed)
  else if s.ip ≠ s.inLen.toNat then .ended (s.raise .inputNotConsumed)
  else .ended (s.endOk s.op)

/-- EOS (rule R130), entered with `ip` just past its last byte. -/
def execEos (s : State) : Host.Outcome State Fault Refusal := inDecompressJob s endOfStream

end Sys2Proof.Machine
end

