-- ==== Sys2Proof/Machine/Literal.lean ====
section
/-!
DEFINITION. The meanings of the literal-run instructions (41_literal_instructions.md). Each is entered
with `ip` just past the instruction's encoding bytes and `ipc`, `opc` latched (rule R140).
-/

namespace Sys2Proof.Machine

/-- LITF (rule R102): copy `t` literals, then `st <- t` if `t < 4`, else 4. -/
def execLitf (t : Nat) (s : State) : Host.Outcome State Fault Refusal :=
  inDecompressJob s (literalRun t (stAfter t))

/-- LITR (rule R103): copy `t` literals, then `st <- 4`. -/
def execLitr (t : Nat) (s : State) : Host.Outcome State Fault Refusal :=
  inDecompressJob s (literalRun t .s4)

end Sys2Proof.Machine
end

