-- ==== Sys2Proof/Machine/Match.lean ====
section
/-!
DEFINITION. The meanings of the match instructions (42_match_instructions.md). Each is entered with
`ip` just past the instruction's encoding bytes (at its first trailing literal) and `ipc`, `opc`
latched (rule R140).
-/

namespace Sys2Proof.Machine

/-- M1N (rule R112): a match of length 2. -/
def execM1n (dist sc : Nat) (s : State) : Host.Outcome State Fault Refusal :=
  inDecompressJob s (matchThenLiterals dist 2 sc)

/-- M1F (rule R113): a match of length 3. -/
def execM1f (dist sc : Nat) (s : State) : Host.Outcome State Fault Refusal :=
  inDecompressJob s (matchThenLiterals dist 3 sc)

/-- M2S (rule R114): a match of length 3 or 4. -/
def execM2s (dist len sc : Nat) (s : State) : Host.Outcome State Fault Refusal :=
  inDecompressJob s (matchThenLiterals dist len sc)

/-- M2L (rule R115): a match of length 5 to 8. -/
def execM2l (dist len sc : Nat) (s : State) : Host.Outcome State Fault Refusal :=
  inDecompressJob s (matchThenLiterals dist len sc)

/-- M3 (rule R116): a match of any length of 3 or more. -/
def execM3 (dist len sc : Nat) (s : State) : Host.Outcome State Fault Refusal :=
  inDecompressJob s (matchThenLiterals dist len sc)

/-- M4 (rule R117), when it is not EOS. -/
def execM4 (dist len sc : Nat) (s : State) : Host.Outcome State Fault Refusal :=
  inDecompressJob s (matchThenLiterals dist len sc)

end Sys2Proof.Machine
end

