-- ==== Sys2Proof/Machine/Dispatch.lean ====
section
/-!
DEFINITION. One arm per constructor of `Instr`, each a call of that instruction's meaning.
-/

namespace Sys2Proof.Machine

def exec (i : Instr) (s : State) : Host.Outcome State Fault Refusal :=
  match i with
  | .litf t => Sys2Proof.Machine.execLitf t s
  | .m2l dist len sc => Sys2Proof.Machine.execM2l dist len sc s
  | .m2s dist len sc => Sys2Proof.Machine.execM2s dist len sc s
  | .m3 dist len sc => Sys2Proof.Machine.execM3 dist len sc s
  | .m4 dist len sc => Sys2Proof.Machine.execM4 dist len sc s
  | .eos => Sys2Proof.Machine.execEos s
  | .litr t => Sys2Proof.Machine.execLitr t s
  | .m1f dist sc => Sys2Proof.Machine.execM1f dist sc s
  | .m1n dist sc => Sys2Proof.Machine.execM1n dist sc s
  | .nop => Sys2Proof.Machine.execNop s
  | .init => Sys2Proof.Machine.execInit s
  | .compress => Sys2Proof.Machine.execCompress s
  | .decompress => Sys2Proof.Machine.execDecompress s

end Sys2Proof.Machine
end

