-- ==== Sys2Proof/Machine/Emitter.lean ====
section
/-!
DEFINITION. The instruction encoder IE (46_instruction_encoder.md): the bytes of each match form, the
checked output write, the literal flush and the tail of a COMPRESS job.
-/

namespace Sys2Proof.Machine

/-- The byte a formula of the encoder gives (all are below 256). -/
def emitted (n : Nat) : Byte := BitVec.ofNat 8 n

/-- `EmitExt(x)` (rule R183): `while x > 255: EmitByte(0); x <- x - 255`, then `EmitByte(x)`. The
first argument bounds the loop; `x` itself is enough. -/
def extensionLoop : Nat → Nat → List Byte
  | 0, x => [emitted x]
  | fuel + 1, x => if 255 < x then 0#8 :: extensionLoop fuel (x - 255) else [emitted x]

/-- The bytes `EmitExt(x)` writes (rule R183). -/
def emitExt (x : Nat) : List Byte := extensionLoop x x

/-- The bytes of `EmitM2(dist, len)` (rule R182). -/
def emitM2 (dist len : Nat) : List Byte :=
  [emitted ((len - 1) * 32 + (dist - 1) % 8 * 4), emitted ((dist - 1) / 8)]

/-- The bytes of `EmitM3(dist, len)` (rule R183). -/
def emitM3 (dist len : Nat) : List Byte :=
  (if len ≤ Config.m3InlineMaxLen then [emitted (0x20 + (len - 2))]
    else emitted 0x20 :: emitExt (len - Config.m3InlineMaxLen))
  ++ [emitted ((dist - 1) % 64 * 4), emitted ((dist - 1) / 64)]

/-- The bytes of `EmitM4(dist, len)` (rule R184), with `d = dist - 16384` of 15 bits. -/
def emitM4 (dist len : Nat) : List Byte :=
  let d := dist - 16384
  (if len ≤ Config.m4InlineMaxLen then [emitted (0x10 + d / 16384 % 2 * 8 + (len - 2))]
    else emitted (0x10 + d / 16384 % 2 * 8) :: emitExt (len - Config.m4InlineMaxLen))
  ++ [emitted (d % 64 * 4), emitted (d / 64 % 256)]

/-- The bytes of `EmitMatch(dist, len)`: the smallest legal form (rule R181). -/
def emitMatch (dist len : Nat) : List Byte :=
  if dist ≤ Config.m2MaxDist ∧ len ≤ Config.m2MaxLen then emitM2 dist len
  else if dist ≤ Config.m3MaxDist then emitM3 dist len
  else emitM4 dist len

/-- `ceil(n / 255)`. -/
def ceil255 (n : Nat) : Nat := (n + 254) / 255

/-- `MatchCost(dist, len)` (rule R181). -/
def matchCost (dist len : Nat) : Nat :=
  if dist ≤ Config.m2MaxDist ∧ len ≤ Config.m2MaxLen then 2
  else if dist ≤ Config.m3MaxDist then
    (if len ≤ Config.m3InlineMaxLen then 3 else 3 + ceil255 (len - Config.m3InlineMaxLen))
  else (if len ≤ Config.m4InlineMaxLen then 3 else 3 + ceil255 (len - Config.m4InlineMaxLen))

/-- `EmitByte(v)` (rule R188): the checked output write of the encoder. -/
def emitByte (v : Byte) (s : State) : Flow :=
  if s.outCap.toNat ≤ s.eop then .ended (s.raise .internalError)
  else withAccess (s.writeOut s.eop v) fun s' => .go { s' with eop := s'.eop + 1 }

/-- `EmitByte` for each byte in turn. -/
def emitBytes : List Byte → State → Flow
  | [], s => .go s
  | b :: bs, s => (emitByte b s).andThen (emitBytes bs)

/-- `for i in 0 .. t-1: EmitByte(IN[start + i])` (rule R185). -/
def emitFromIn : Nat → Nat → State → Flow
  | 0, _, s => .go s
  | t + 1, start, s =>
    withAccess (s.readIn start) fun b => (emitByte b s).andThen (emitFromIn t (start + 1))

/-- `BackPatchS(t)` (rule R186): or `t` into the byte two positions behind the output cursor. -/
def backPatchS (t : Nat) (s : State) : Flow :=
  withAccess (s.readOutBack s.eop 2) fun b =>
    withAccess (s.writeOut (s.eop - 2) (b ||| emitted t)) Flow.go

/-- The header of a literal run of `t ≥ 1` bytes, by context (rule R185): LITF, the `S` field of the
preceding match, LITR inline, LITR extended. -/
def literalHeader (t : Nat) (s : State) : Flow :=
  if s.eop = 0 ∧ t ≤ Config.litfMax then emitByte (emitted (17 + t)) s
  else if s.eop ≠ 0 ∧ t ≤ Config.sMax then backPatchS t s
  else if t ≤ Config.litrInlineMax then emitByte (emitted (t - 3)) s
  else emitBytes (0#8 :: emitExt (t - Config.litrInlineMax)) s

/-- `FlushLiterals(start, t)` (rule R185). -/
def flushLiterals (start t : Nat) (s : State) : Flow :=
  if t = 0 then .go s else (literalHeader t s).andThen (emitFromIn t start)

/-- The canonical EOS the encoder emits (rules R81, R187). -/
def eosBytes : List Byte := [0x11#8, 0x00#8, 0x00#8]

/-- The result policy (rule R189): Ok only if the stream is strictly shorter than the input. -/
def finishCompress (s : State) : Flow :=
  if s.inLen.toNat ≤ s.eop then .ended (s.raise .notCompressible) else .ended (s.endOk s.eop)

/-- The tail step (rule R187). -/
def tailStep (s : State) : Flow :=
  (flushLiterals s.eii (s.inLen.toNat - s.eii) s).andThen fun s' =>
    (emitBytes eosBytes s').andThen finishCompress

end Sys2Proof.Machine
end

