-- ==== Sys2Proof/Machine/MatchFinder.lean ====
section
/-!
DEFINITION. The match finder MF (45_match_finder.md): hash, lookup and insert, candidate, extension,
acceptance, and the scan step.
-/

namespace Sys2Proof.Machine

/-- The hash of a window of four bytes (rule R161), the first byte lowest. -/
def hashWindow (b0 b1 b2 b3 : Byte) : Nat :=
  Config.hashMult * (b0.toNat + b1.toNat * 2 ^ 8 + b2.toNat * 2 ^ 16 + b3.toNat * 2 ^ 24) % 2 ^ 32
    / 2 ^ (32 - Config.hashBits)

/-- `Hash4(p)` (rule R161), for `p + 4 ≤ IN_LEN`. -/
def State.hash4 (s : State) (p : Nat) : Except Fault Nat := do
  let b0 ← s.readIn p
  let b1 ← s.readIn (p + 1)
  let b2 ← s.readIn (p + 2)
  let b3 ← s.readIn (p + 3)
  return hashWindow b0 b1 b2 b3

/-- The extension loop (rule R164): how many of the next `n` bytes from `m` and from `p` agree before
the first that differs. -/
def State.matchLen (s : State) : Nat → Nat → Nat → Except Fault Nat
  | 0, _, _ => .ok 0
  | n + 1, m, p => do
    let a ← s.readIn m
    let b ← s.readIn p
    if a = b then
      let k ← s.matchLen n (m + 1) (p + 1)
      return k + 1
    else return 0

/-- The usable candidate at position `p` for the table entry read there (rule R163): a valid entry no
farther back than `MAX_DIST`. -/
def usable (p : Nat) : Option Nat → Option Nat
  | some m => if p - m ≤ Config.maxDist then some m else none
  | none => none

/-- Acceptance (rule R165). -/
def accepts (dist len : Nat) : Bool := decide (Config.minMatch ≤ len) && decide (matchCost dist len < len)

/-- Re-index the `n` positions from `q`, those that still have a whole window (rule R167 (3)). -/
def reindex : Nat → Nat → State → Flow
  | 0, _, s => .go s
  | n + 1, q, s =>
    if q + 4 ≤ s.inLen.toNat then
      withAccess (s.hash4 q) fun h => reindex n (q + 1) { s with ht := s.ht.put h q }
    else reindex n (q + 1) s

/-- A step with an accepted match (rule R167): flush the pending literals, emit the match, re-index the
skipped positions, advance. -/
def acceptMatch (dist len : Nat) (s : State) : Flow :=
  (flushLiterals s.eii (s.eip - s.eii) s).andThen fun s1 =>
    (emitBytes (emitMatch dist len) s1).andThen fun s2 =>
      (reindex (len - 1) (s2.eip + 1) s2).andThen fun s3 =>
        .go { s3 with eip := s3.eip + len, eii := s3.eip + len }

/-- A step without a match (rule R166). -/
def passByte (s : State) : Flow := .go { s with eip := s.eip + 1 }

/-- One iteration of the scan loop (rule R169), for `ip + 4 ≤ IN_LEN`. -/
def scanStep (s : State) : Flow :=
  withAccess (s.hash4 s.eip) fun h =>
    let s1 := { s with ht := s.ht.put h s.eip }
    match usable s.eip (s.ht.get h) with
    | none => passByte s1
    | some m =>
      withAccess (s1.matchLen (s1.inLen.toNat - s1.eip) m s1.eip) fun len =>
        if accepts (s1.eip - m) len then acceptMatch (s1.eip - m) len s1 else passByte s1

/-- One step of the encoder engine (rules R11, R168, R169): an iteration of the scan loop while a whole
window remains, then the tail step. -/
def encoderStep (s : State) : Host.Outcome State Fault Refusal :=
  if s.eip + 4 ≤ s.inLen.toNat then (scanStep s).outcome else (tailStep s).outcome

end Sys2Proof.Machine
end

