-- ==== Sys2Proof/Machine/Sequencer.lean ====
section
/-!
DEFINITION. Who moves and what it does: the decoder step (rule R140, 44_decoder_sequencing.md), the
engine of the running job (rule R11), and the host's moves (rules R200, R205, R206, R208, R245).
-/

namespace Sys2Proof.Machine

/-- The instruction-start latches (rule R140). -/
def State.latched (s : State) : State := { s with ipc := s.ip, opc := s.op }

/-- One decoder step (rule R140): latch; `EofNotFound` where no tag is left (rule R143);
`InputOverrun`, with every byte fetched, where the input ends inside the instruction (rule R141);
else the instruction executes with `ip` just past its encoding bytes (log 16). -/
def decoderStep (s : State) : Host.Outcome State Fault Refusal :=
  match decode s.st s.unread with
  | .error .noTag => .next (s.latched.raise .eofNotFound)
  | .error .truncated => .next ({ s.latched with ip := s.inLen.toNat }.raise .inputOverrun)
  | .ok (i, rest) => exec i { s.latched with ip := s.ip + (s.unread.length - rest.length) }

/-- One step of whichever engine is active; an idle CORE waits (rules R11, R245; log 21). -/
def engineStep (s : State) : Host.Outcome State Fault Refusal :=
  match s.active with
  | .idle => .next s
  | .encoder => encoderStep s
  | .decoder => decoderStep s

/-- How far into `OUT` the running job may have written when a hardware reset comes: to the output cursor,
or, as a reset may come during a step, to where that step would leave the cursor (rule R245; log 8). -/
def State.reach (s : State) : Nat :=
  match engineStep s with
  | .next t => max (s.cursorOf s.active) (t.cursorOf s.active)
  | .fault _ => s.cursorOf s.active
  | .refused _ => s.cursorOf s.active

/-- A host write to `CMD` (rules R22, R200, R205, R206). -/
def commandWrite (s : State) (v : Word s.posBits) : Host.Outcome State Fault Refusal :=
  if s.busy then .next s
  else
    match decodeCommand v with
    | some i => exec i s
    | none => .next s.rejectCommand

/-- A host write to job register `r` (rule R21). -/
def registerWrite (s : State) (r : Fin 8) (v : Word s.posBits) : Host.Outcome State Fault Refusal :=
  if r = 0 then commandWrite s v else .next (s.writeOperandReg r v)

/-- A host store to a buffer: the host has no such move while a job runs (rule R249, U2; log 9). -/
def bufferStore (s : State) (f : State → State) : Host.Outcome State Fault Refusal :=
  if s.busy then .refused .bufferStoreWhileBusy else .next (f s)

/-- One move of the host or, where the host waits, one step of the engine (log 7). -/
def hostMove (s : State) (a : HostAction s.posBits) (rest : List (HostAction s.posBits)) :
    Host.Outcome State Fault Refusal :=
  let s' := { s with inputs := rest }
  match a with
  | .writeReg r v => registerWrite s' r v
  | .storeIn x b => bufferStore s' fun s => { s with inMem := s.inMem.write x.toNat b }
  | .storeOut x b => bufferStore s' fun s => { s with outMem := s.outMem.write x.toNat b }
  | .hardReset => .next (s'.hardReset s'.reach)
  | .engineTurn => engineStep s'
  | .awaitDone => if s.busy then engineStep s else .next s'

/-- The whole step: the host's oldest pending move, or the engine where there is none. -/
def wholeStep (s : State) : Host.Outcome State Fault Refusal :=
  match s.inputs with
  | [] => engineStep s
  | a :: rest => hostMove s a rest

/-- A running DECOMPRESS job whose next instruction is the given stream bytes, read in state
`tableState`, and whose next step is the engine's (log 13). -/
def State.withStreamBytes (s : State) (bytes : List Byte) : State :=
  { s with
    active := .decoder
    done := false
    initOk := true
    st := tableState
    inMem := s.inMem.writeBytes s.ip bytes
    inLen := BitVec.ofNat s.posBits (max s.inLen.toNat (s.ip + bytes.length))
    inputs := .engineTurn :: s.inputs }

/-- An idle CORE whose next step is the host's write of `v` to `CMD` (log 13). -/
def State.withCommandWrite (s : State) (v : Word s.posBits) : State :=
  { s with active := .idle, inputs := .writeReg 0 v :: s.inputs }

end Sys2Proof.Machine
end

