-- ==== Sys2Proof/Machine/Step.lean ====
section
/-!
DEFINITION. One step of the CORE, and where the opcode table's words go so that the next step runs
them (log 13).
-/

namespace Sys2Proof.Machine

/-- One step of the CORE and its host (rule R11; log 7). -/
def step (s : State) : Host.Outcome State Fault Refusal := wholeStep s

/-- `s` with a table word where the next step takes its instruction: a `CMD` write for a value of
`POS_BITS` bits, else stream bytes at `ip` of a running DECOMPRESS job (log 13). -/
def State.withFetchWord (s : State) (nbits w : Nat) : State :=
  if nbits = Config.posBits then s.withCommandWrite (BitVec.ofNat s.posBits w)
  else s.withStreamBytes (tableBytes nbits w)

end Sys2Proof.Machine
end

