-- ==== Sys2Proof/Safety.lean ====
section
/-!
DEFINITION. What counts as a legal state of the CORE (the invariants of rules R23, R144, R171, R190),
and the terms in which the claims speak: the bytes a run of literals writes, a job that ends, and
states that agree on what a job depends on.
-/

namespace Sys2Proof.Machine

/-- A status code the CORE can leave in `STATUS.CODE`: not `NotYetImplemented`, not
`InvalidAlignment` (rules R225, R227), and not the unreachable `InternalError` (rule R229). -/
def Kind.producible (k : Kind) : Prop :=
  k ≠ .notYetImplemented ∧ k ≠ .invalidAlignment ∧ k ≠ .internalError

/-- A width `POS_BITS` that has room for the spec's register fields: `STATUS.CODE` in bits 15:8 (rule R23)
and `POS_BITS` itself in the eight bits 7:0 of `CFG` (rule R28). DEDUCED, log 1. -/
abbrev State.legalWidth (s : State) : Prop := 16 ≤ s.posBits ∧ s.posBits < 256

/-- The job registers of a legal state (rules R23, R26, R27, R204, R206): while a job runs `DONE` is
0, `INIT_OK` is 1 and the result registers read 0; a failed job leaves `OUT_LEN` 0, a good one leaves
the fault cursors 0; the code is one the CORE produces. -/
structure State.RegistersOk (s : State) : Prop where
  busyClear : s.active ≠ .idle → s.done = false ∧ s.initOk = true ∧ s.code = .ok ∧ s.outLen = 0
  failedEmpty : s.code ≠ .ok → s.outLen = 0
  okNoFault : s.code = .ok → s.faultIp = 0 ∧ s.faultOp = 0
  codeProducible : s.code.producible

/-- The buffers and the hash table are in canonical form (logs 5, 6). -/
structure State.StoresOk (s : State) : Prop where
  inWf : s.inMem.wf = true
  outWf : s.outMem.wf = true
  htWf : s.ht.wf = true

/-- The cursors of a running DECOMPRESS job (rule R144). -/
def State.DecoderOk (s : State) : Prop :=
  s.active = .decoder → s.ip ≤ s.inLen.toNat ∧ s.op ≤ s.outCap.toNat

/-- The cursors of a running COMPRESS job (rule R171 (a), (b)), the capacity it started with (rule
R203), and the size of the stream so far (the argument of rule R190): nothing has been emitted and no
literal is behind `ii`, or at least two bytes have and they are at most `ii + ii/16`. -/
structure State.EncoderOk (s : State) : Prop where
  order : s.eii ≤ s.eip
  bound : s.eip ≤ s.inLen.toNat
  capacity : worstCase s.inLen.toNat ≤ s.outCap.toNat
  emitted : (s.eop = 0 ∧ s.eii = 0) ∨ (2 ≤ s.eop ∧ s.eop ≤ s.eii + s.eii / 16)
  table : ∀ h p, s.ht.get h = some p → p < s.eip

/-- A legal state. -/
structure State.Inv (s : State) : Prop where
  width : s.legalWidth
  registers : s.RegistersOk
  stores : s.StoresOk
  decoder : s.DecoderOk
  encoder : s.active = .encoder → s.EncoderOk

/-! ## The terms of the claims -/

/-- The header bytes of a literal run of `t` bytes (the four cases of rule R185): `first` says whether
the stream is still empty. -/
def runHeader (first : Bool) (t : Nat) : List Byte :=
  if t = 0 then []
  else if first then (if t ≤ 238 then [byteOf (17 + t)] else 0#8 :: extBytes (t - 18))
  else if t ≤ 3 then []
  else if t ≤ 18 then [byteOf (t - 3)]
  else 0#8 :: extBytes (t - 18)

/-- The byte of the stream at offset `a` after a literal run of `t` bytes is flushed at output cursor
`op`, where it was `b`: the `S` field two positions behind takes a count of 1 to 3 (rule R186). -/
def patchedByte (op t a : Nat) (b : Byte) : Byte :=
  if op ≠ 0 ∧ 1 ≤ t ∧ t ≤ 3 ∧ a + 2 = op then b ||| byteOf t else b

/-- Position `q` is one of the `n` positions from `p` that still have a whole window, and the hash of its
window is `g` (rule R167 (3)). -/
def State.indexes (s : State) (p n q g : Nat) : Prop :=
  p ≤ q ∧ q < p + n ∧ q + 4 ≤ s.inLen.toNat ∧ s.hash4 q = .ok g

/-- The table `t` is `t0` after the `n` positions from `p` are inserted in ascending order: every entry is
the last of them with that hash, or as it was where there is none (rules R162, R167). -/
def State.tableAfter (s : State) (t0 t : HashTable) (p n : Nat) : Prop :=
  ∀ g, (∃ q, t.get g = some q ∧ s.indexes p n q g ∧ ∀ q', s.indexes p n q' g → q' ≤ q) ∨
    ((∀ q, ¬ s.indexes p n q g) ∧ t.get g = t0.get g)

/-- `k` steps of the CORE lead from `s` to the state `t`, where no job runs and the host has no pending
move. -/
def reachesIdle (k : Nat) (s t : State) : Prop :=
  Sys2Proof.core.run k s = .next t ∧ t.active = .idle ∧ t.inputs = []

/-- An idle CORE after INIT whose host's only pending move is to write `v` to `CMD`. -/
def readyFor (v : Nat) (s : State) : Prop :=
  s.legalWidth ∧ s.active = .idle ∧ s.initOk = true ∧
    s.inputs = [.writeReg 0 (BitVec.ofNat s.posBits v)] ∧ s.inMem.wf = true ∧ s.outMem.wf = true

/-- A finished COMPRESS job has written a stream of `z` bytes, and ended Ok or `NotCompressible` (rules
R189, R219): the two ends report the size of the stream in different registers. -/
def wroteStream (t : State) (z : Nat) : Prop :=
  (t.code = .ok ∧ t.outLen.toNat = z) ∨ (t.code = .notCompressible ∧ t.faultOp.toNat = z)

/-- The round trip of rule R192, from a CORE `s` that is about to start a COMPRESS job: the job ends with
a stream of some `z` bytes in `OUT`, and from every CORE `d` that is about to start a DECOMPRESS job with
those bytes as `IN`, `IN_LEN = z`, and `OUT_CAP` the length of the input, the job ends Ok with the input
in `OUT`. -/
def roundTrips (s : State) : Prop :=
  ∃ k t z, reachesIdle k s t ∧ wroteStream t z ∧
    ∀ d : State, readyFor 3 d → d.inLen.toNat = z → d.outCap.toNat = s.inLen.toNat →
      (∀ a, a < z → d.inMem.read a = t.outMem.read a) →
      ∃ k' e, reachesIdle k' d e ∧ e.code = .ok ∧ e.outLen.toNat = s.inLen.toNat ∧
        ∀ a, a < s.inLen.toNat → e.outMem.read a = s.inMem.read a

/-- Two states give a DECOMPRESS job the same input: the same `IN` bytes below `IN_LEN`, the same
`IN_LEN` and the same `OUT_CAP` (rule R146). -/
def sameJob (s t : State) : Prop :=
  s.inLen.toNat = t.inLen.toNat ∧ s.outCap.toNat = t.outCap.toNat ∧
    ∀ a, a < s.inLen.toNat → s.inMem.read a = t.inMem.read a

/-- The part of the state that belongs to the host and that no engine writes (rules R24, R25, R36, R38):
the width, the operand registers, `INIT_OK`, the buffer `IN`, and the host's pending moves. -/
structure HostSide where
  posBits : Nat
  inLen : Word posBits
  outCap : Word posBits
  initOk : Bool
  inMem : Memory
  inputs : List (HostAction posBits)
  freeCount : Nat
deriving DecidableEq, Repr

/-- The host's side of a state. -/
def State.hostSide (s : State) : HostSide :=
  { posBits := s.posBits, inLen := s.inLen, outCap := s.outCap, initOk := s.initOk, inMem := s.inMem
    inputs := s.inputs, freeCount := s.freeCount }

/-- What a fault of the decoder leaves of `s` (rules R207, R232): the code, `OUT_LEN` 0, the
instruction-start cursors, `BUSY` 0 and `DONE` 1; nothing else changes (that call-scoped state too keeps
its value between jobs is the model's choice, log 25). -/
def decoderFault (s : State) (k : Kind) : State :=
  { s with
    outLen := 0
    faultIp := BitVec.ofNat s.posBits s.ipc
    faultOp := BitVec.ofNat s.posBits s.opc
    code := k
    active := .idle
    done := true }

/-- The buffer `m` is `m0` with the `n` bytes of `IN` from `src` at offset `dst` (rule R101). -/
def literalsCopied (inMem : Memory) (src : Nat) (m0 m : Memory) (dst n : Nat) : Prop :=
  m.wf = true ∧ ∀ a, m.read a = if dst ≤ a ∧ a < dst + n then inMem.read (src + (a - dst)) else m0.read a

/-- The buffer `m` is `m0` with `n` bytes at `dst`, each equal to the one `dist` before it, which are
the periodic extension of the `dist` bytes before `dst` (rules R60, R110, R118). -/
def historyCopied (m0 m : Memory) (dist dst n : Nat) : Prop :=
  m.wf = true ∧ (∀ a, a < dst ∨ dst + n ≤ a → m.read a = m0.read a) ∧
    (∀ i, i < n → m.read (dst + i) = m.read (dst + i - dist)) ∧
    ∀ i, i < n → m.read (dst + i) = m0.read (dst - dist + i % dist)

/-- The outcome `o` is that of a literal run of `t` bytes from `s`, leaving the decoder state of
encoding `stv`: the input check, the output check, the copy (rule R101). -/
def literalExecutes (o : Host.Outcome State Fault Refusal) (s : State) (t stv : Nat) : Prop :=
  if s.inLen.toNat - s.ip < t then o = .next (decoderFault s .inputOverrun)
  else if s.outCap.toNat - s.op < t then o = .next (decoderFault s .outputOverrun)
  else ∃ m st', stCode st' = BitVec.ofNat 3 stv ∧ literalsCopied s.inMem s.ip s.outMem m s.op t ∧
    o = .next { s with ip := s.ip + t, op := s.op + t, st := st', outMem := m }

/-- The outcome `o` is that of a match from `s`: the lookbehind check, the output check, the copy, then
the trailing literals with their two checks (rules R110, R111, R231). -/
def matchExecutes (o : Host.Outcome State Fault Refusal) (s : State) (dist len sc : Nat) : Prop :=
  if s.op < dist then o = .next (decoderFault s .lookbehindOverrun)
  else if s.outCap.toNat - s.op < len then o = .next (decoderFault s .outputOverrun)
  else ∃ m, historyCopied s.outMem m dist s.op len ∧
    (if s.inLen.toNat - s.ip < sc then
      o = .next (decoderFault { s with op := s.op + len, outMem := m } .inputOverrun)
    else if s.outCap.toNat - (s.op + len) < sc then
      o = .next (decoderFault { s with op := s.op + len, outMem := m } .outputOverrun)
    else ∃ m' st', stCode st' = BitVec.ofNat 3 sc ∧
      literalsCopied s.inMem s.ip m m' (s.op + len) sc ∧
      o = .next { s with ip := s.ip + sc, op := s.op + len + sc, st := st', outMem := m' })

/-- The outcome `o` is that of EOS from `s`: the output check, the input check, the end of the job with
code Ok (rule R130; call-scoped state keeps its value after it, log 25). -/
def eosExecutes (o : Host.Outcome State Fault Refusal) (s : State) : Prop :=
  if s.op ≠ s.outCap.toNat then o = .next (decoderFault s .outputNotConsumed)
  else if s.ip ≠ s.inLen.toNat then o = .next (decoderFault s .inputNotConsumed)
  else o = .next { s with
    outLen := BitVec.ofNat s.posBits s.op
    faultIp := 0
    faultOp := 0
    code := .ok
    active := .idle
    done := true }

/-- A DECOMPRESS job stands at an instruction boundary with the stream bytes `bytes` unread, and the
engine moves next. -/
def atInstruction (s : State) (bytes : List Byte) : Prop :=
  s.active = .decoder ∧ s.inputs = [] ∧ s.outMem.wf = true ∧ s.unread = bytes

end Sys2Proof.Machine

namespace Sys2Proof

/-- The number of bytes an instruction copies in its first copy: the length of a match, the count of a
literal run (rules R17, R84). -/
def Instr.copyLength : Instr → Nat
  | .litf t | .litr t => t
  | .m1n _ _ => 2
  | .m1f _ _ => 3
  | .m2s _ len _ | .m2l _ len _ | .m3 _ len _ | .m4 _ len _ => len
  | .eos | .nop | .init | .compress | .decompress => 0

/-- The distance of a match, 0 for the other instructions (rules R17, R84). -/
def Instr.copyDistance : Instr → Nat
  | .m1n dist _ | .m1f dist _ | .m2s dist _ _ | .m2l dist _ _ | .m3 dist _ _ | .m4 dist _ _ => dist
  | .litf _ | .litr _ | .eos | .nop | .init | .compress | .decompress => 0

end Sys2Proof

namespace Sys2Proof.Machine

/-- `s` with the instruction-start latches taken and `n` instruction bytes fetched (rule R140). -/
def fetched (s : State) (n : Nat) : State := { s with ipc := s.ip, opc := s.op, ip := s.ip + n }

/-- The bytes `ext` after a tag with inline length field `l` carry the value `v`: none where `l` is not
0; else zero bytes worth 255 each and a non-zero closing byte, on top of `base` (rule R77). -/
def carriesLength (l base : Nat) (ext : List Byte) (v : Nat) : Prop :=
  if l ≠ 0 then ext = [] ∧ v = l
  else ∃ k e, ext = List.replicate k 0#8 ++ [e] ∧ e ≠ 0#8 ∧ v = 255 * k + base + e.toNat

end Sys2Proof.Machine
end

