-- ==== Sys2Proof/Certificates/Slice0/Obligations.lean ====
section
/-!
DEFINITION. The statements about the CORE for the provers. Each docstring names the rules of spec/ it
rests on; "log n" is notes/assumptions/n.md. The bit layout, the hash and the numeric codes are the
spec's own decisions D1, D4, D6 (log 12). Every statement about all states is about every width
`POS_BITS` (log 1). A statement that gives the whole state a job ends in also gives the call-scoped
registers between jobs (`ip`, `op`, `st`, the latches, `eip`, `eii`, `eop`, the table), which the spec
leaves at any value (U5): there they keep the ended job's values, which is the model's choice (log 25).
-/

open Sys2Proof Sys2Proof.Machine

/-! ## Encoding -/

/-- Words written out bit by bit from rules R72 to R81 and R201 to R204 decode to the instructions they
stand for. -/
def Obligations.WrittenOutWordsDecode : Prop :=
  decode .start [0x14#8, 0x66#8] = .ok (.litf 3, [0x66#8]) ∧
  decode .s0 [0x03#8, 0x61#8] = .ok (.litr 6, [0x61#8]) ∧
  decode .start [0x00#8, 0x00#8, 0x01#8] = .ok (.litr 274, []) ∧
  decode .s3 [0x09#8, 0x00#8, 0x64#8] = .ok (.m1n 3 1, [0x64#8]) ∧
  decode .s4 [0x00#8, 0x00#8] = .ok (.m1f 2049 0, []) ∧
  decode .s1 [0x43#8, 0x00#8] = .ok (.m2s 1 3 3, []) ∧
  decode .s4 [0xFE#8, 0x00#8] = .ok (.m2l 8 8 2, []) ∧
  decode .s1 [0x31#8, 0x00#8, 0x00#8] = .ok (.m3 1 19 0, []) ∧
  decode .s0 [0x18#8, 0x01#8, 0x09#8, 0x00#8] = .ok (.m4 32770 10 1, []) ∧
  decode .start [0x11#8, 0x00#8, 0x00#8] = .ok (.eos, []) ∧
  decodeCommand 0#32 = some .nop ∧ decodeCommand 1#32 = some .init ∧
  decodeCommand 2#32 = some .compress ∧ decodeCommand 3#32 = some .decompress

/-- Decoding the encoding of a well-formed wire instruction, in a state where it can stand, gives it
back with the bytes after it (rules R72 to R81, R84). -/
def Obligations.DecodeReadsBackEncode : Prop :=
  ∀ (st : St) (i : Instr) (rest : List Byte), i.isWire = true → i.wf = true → i.selectableIn st = true →
    decode st (encodeWire i ++ rest) = .ok (i, rest)

/-- An instruction other than EOS has exactly one encoding: the bytes it was decoded from are its
encoding (rules R77, R83, last sentences). So no bit of a tag, an extension or a distance byte is
dropped. -/
def Obligations.DecodedBytesAreTheEncoding : Prop :=
  ∀ (st : St) (bytes rest : List Byte) (i : Instr), decode st bytes = .ok (i, rest) → i ≠ .eos →
    bytes = encodeWire i ++ rest

/-- Whatever decodes is a well-formed wire instruction that can stand in that state (rules R78, R80,
R84). -/
def Obligations.DecodedInstructionIsWellFormed : Prop :=
  ∀ (st : St) (bytes rest : List Byte) (i : Instr), decode st bytes = .ok (i, rest) →
    i.isWire = true ∧ i.wf = true ∧ i.selectableIn st = true

/-- No tag fails to decode in any state (rules R80, R82): bytes are rejected only because they are none,
or because they end inside an instruction, and then some further bytes make them one. -/
def Obligations.OnlyMissingBytesAreRejected : Prop :=
  ∀ (st : St) (bytes : List Byte),
    (decode st bytes = .error .noTag ↔ bytes = []) ∧
    (decode st bytes = .error .truncated → ∃ more i, decode st (bytes ++ more) = .ok (i, []))

/-- `OP = CMD[1:0]` selects the command, and a value with a reserved bit set is none (rules R22,
R200). -/
def Obligations.CommandValueSelectsCommand : Prop :=
  ∀ (posBits : Nat) (w : Word posBits),
    (∀ i : Instr, decodeCommand w = some i ↔ encodeCommand i = some w.toNat) ∧
    (decodeCommand w = none ↔ w.toNat / 4 ≠ 0)

/-- `ExtLen(base)` (rule R77): `k` zero bytes and a closing byte `e` give `255*k + base + e`, at least
`base + 1`; bytes with no closing byte end first (`InputOverrun`); `EmitExt(x)` writes
`ceil(x/255) - 1` zero bytes and one closing byte, and is its inverse. -/
def Obligations.ExtensionReadsBack : Prop :=
  (∀ (base k : Nat) (e : Byte) (rest : List Byte), e ≠ 0#8 →
    extLen base (List.replicate k 0#8 ++ e :: rest) = some (255 * k + base + e.toNat, rest) ∧
    base + 1 ≤ 255 * k + base + e.toNat) ∧
  (∀ base k : Nat, extLen base (List.replicate k 0#8) = none) ∧
  ∀ (base x : Nat) (rest : List Byte), 1 ≤ x →
    extLen base (emitExt x ++ rest) = some (base + x, rest) ∧
    ∃ e, emitExt x = List.replicate ((x + 254) / 255 - 1) 0#8 ++ [e] ∧ e ≠ 0#8

/-! ## The step, and each wire instruction from its bytes -/

/-- A step runs the decoded instruction (rules R140, R200). In a DECOMPRESS job, with the host absent,
yielding one turn, or polling, it latches the cursors, moves `ip` past the encoding bytes and executes the
instruction; on an idle CORE a pending host write of a command value executes the command. That the host
is a list of pending moves, with the two moves by which it polls or yields a turn, is the model's choice
(log 7, DESIGN CHOICE); that all encoding bytes are fetched before the instruction executes is the model's
reading of rule R141 (log 16, DEDUCED). -/
def Obligations.StepRunsTheDecodedInstruction : Prop :=
  (∀ (s : State) (i : Instr) (rest : List Byte), s.active = .decoder → s.inputs = [] →
    decode s.st s.unread = .ok (i, rest) →
    step s = exec i { s with ipc := s.ip, opc := s.op, ip := s.ip + (s.unread.length - rest.length) }) ∧
  (∀ (s : State) (i : Instr) (rest : List Byte) (more : List (HostAction s.posBits)),
    s.active = .decoder → s.inputs = .awaitDone :: more → decode s.st s.unread = .ok (i, rest) →
    step s = exec i { s with ipc := s.ip, opc := s.op, ip := s.ip + (s.unread.length - rest.length) }) ∧
  (∀ (s : State) (i : Instr) (rest : List Byte) (more : List (HostAction s.posBits)),
    s.active = .decoder → s.inputs = .engineTurn :: more → decode s.st s.unread = .ok (i, rest) →
    step s = exec i { s with
      inputs := more, ipc := s.ip, opc := s.op, ip := s.ip + (s.unread.length - rest.length) }) ∧
  ∀ (s : State) (v : Word s.posBits) (i : Instr) (more : List (HostAction s.posBits)), s.active = .idle →
    s.inputs = .writeReg 0 v :: more → decodeCommand v = some i → step s = exec i { s with inputs := more }

/-- Who waits, and who moves (rules R206, R207, R245; logs 7, 21, model's reading). A host that polls
takes its next move once no job runs; while a job runs the engine steps and the poll stays pending.
After the end of a job, or after reset, the engine takes no further step: an idle CORE with no pending
move stays as it is, and a turn the host leaves to the engine changes nothing else. -/
def Obligations.HostWaitsForTheEngine : Prop :=
  (∀ (s : State) (more : List (HostAction s.posBits)), s.active = .idle → s.inputs = .awaitDone :: more →
    step s = .next { s with inputs := more }) ∧
  (∀ (s t : State) (more : List (HostAction s.posBits)), s.active ≠ .idle → s.inputs = .awaitDone :: more →
    step s = .next t → engineStep s = .next t ∧ t.hostSide = s.hostSide) ∧
  (∀ s : State, s.active = .idle → s.inputs = [] → step s = .next s) ∧
  ∀ (s : State) (more : List (HostAction s.posBits)), s.active = .idle → s.inputs = .engineTurn :: more →
    step s = .next { s with inputs := more }

/-- A missing end marker (rules R143, R223): at an instruction boundary with no input left the step raises
`EofNotFound`, with the cursors of that point recorded. What call-scoped registers hold once the job has
ended is the model's choice (log 25). -/
def Obligations.MissingEndMarkerIsReported : Prop :=
  ∀ s : State, s.active = .decoder → s.inputs = [] → s.ip = s.inLen.toNat →
    step s = .next { s with
      ipc := s.ip, opc := s.op, outLen := 0, faultIp := BitVec.ofNat s.posBits s.ip
      faultOp := BitVec.ofNat s.posBits s.op, code := .eofNotFound, active := .idle, done := true }

/-- LITF (rule R102): at `START` a tag of 18 or more copies `tag - 17` literals and leaves `st` at that
count, or 4 from 4 on. What call-scoped registers hold once the job has ended is the model's choice (log
25). -/
def Obligations.LitfExecutes : Prop :=
  ∀ (s : State) (tag : Byte) (rest : List Byte), atInstruction s (tag :: rest) → s.st = .start →
    18 ≤ tag.toNat →
    literalExecutes (step s) (fetched s 1) (tag.toNat - 17) (if tag.toNat - 17 < 4 then tag.toNat - 17 else 4)

/-- LITR (rule R103): at `START` or 0 a tag below 16 copies `3 + L` literals, or `3 + ExtLen(15)` where
`L` is 0, and leaves `st` at 4; `InputOverrun` where the extension does not end. What call-scoped
registers hold once the job has ended is the model's choice (log 25). -/
def Obligations.LitrExecutes : Prop :=
  ∀ (s : State) (tag : Byte) (rest : List Byte), atInstruction s (tag :: rest) →
    s.st = .start ∨ s.st = .s0 → tag.toNat ≤ 15 →
    (∀ ext v more, carriesLength (tag.toNat % 16) 15 ext v → rest = ext ++ more →
      literalExecutes (step s) (fetched s (1 + ext.length)) (3 + v) 4) ∧
    ((¬ ∃ ext v more, carriesLength (tag.toNat % 16) 15 ext v ∧ rest = ext ++ more) →
      step s = .next (decoderFault (fetched s (1 + rest.length)) .inputOverrun))

/-- M1N (rule R112): in state 1, 2 or 3 a tag below 16 is a match of length 2 at distance `(H << 2) +
tag[3:2] + 1`; `InputOverrun` where `H` is missing. What call-scoped registers hold once the job has ended
is the model's choice (log 25). -/
def Obligations.M1nExecutes : Prop :=
  ∀ (s : State) (tag : Byte) (rest : List Byte), atInstruction s (tag :: rest) →
    s.st = .s1 ∨ s.st = .s2 ∨ s.st = .s3 → tag.toNat ≤ 15 →
    (∀ h more, rest = h :: more →
      matchExecutes (step s) (fetched s 2) (h.toNat * 4 + tag.toNat / 4 % 4 + 1) 2 (tag.toNat % 4)) ∧
    (rest = [] → step s = .next (decoderFault (fetched s 1) .inputOverrun))

/-- M1F (rule R113): in state 4 a tag below 16 is a match of length 3 at distance `(H << 2) + tag[3:2] +
2049`; `InputOverrun` where `H` is missing. What call-scoped registers hold once the job has ended is the
model's choice (log 25). -/
def Obligations.M1fExecutes : Prop :=
  ∀ (s : State) (tag : Byte) (rest : List Byte), atInstruction s (tag :: rest) → s.st = .s4 →
    tag.toNat ≤ 15 →
    (∀ h more, rest = h :: more →
      matchExecutes (step s) (fetched s 2) (h.toNat * 4 + tag.toNat / 4 % 4 + 2049) 3 (tag.toNat % 4)) ∧
    (rest = [] → step s = .next (decoderFault (fetched s 1) .inputOverrun))

/-- M2S (rule R114): after `START` a tag from `0x40` to `0x7F` is a match of length `3 + tag[5]` at
distance `(H << 3) + tag[4:2] + 1`; `InputOverrun` where `H` is missing. What call-scoped registers hold
once the job has ended is the model's choice (log 25). -/
def Obligations.M2sExecutes : Prop :=
  ∀ (s : State) (tag : Byte) (rest : List Byte), atInstruction s (tag :: rest) → s.st ≠ .start →
    0x40 ≤ tag.toNat → tag.toNat ≤ 0x7F →
    (∀ h more, rest = h :: more →
      matchExecutes (step s) (fetched s 2) (h.toNat * 8 + tag.toNat / 4 % 8 + 1) (3 + tag.toNat / 32 % 2)
        (tag.toNat % 4)) ∧
    (rest = [] → step s = .next (decoderFault (fetched s 1) .inputOverrun))

/-- M2L (rule R115): after `START` a tag of `0x80` or more is a match of length `5 + tag[6:5]` at distance
`(H << 3) + tag[4:2] + 1`; `InputOverrun` where `H` is missing. What call-scoped registers hold once the
job has ended is the model's choice (log 25). -/
def Obligations.M2lExecutes : Prop :=
  ∀ (s : State) (tag : Byte) (rest : List Byte), atInstruction s (tag :: rest) → s.st ≠ .start →
    0x80 ≤ tag.toNat →
    (∀ h more, rest = h :: more →
      matchExecutes (step s) (fetched s 2) (h.toNat * 8 + tag.toNat / 4 % 8 + 1) (5 + tag.toNat / 32 % 4)
        (tag.toNat % 4)) ∧
    (rest = [] → step s = .next (decoderFault (fetched s 1) .inputOverrun))

/-- M3 (rule R116): after `START` a tag from `0x20` to `0x3F` is a match of length `2 + L`, or `2 +
ExtLen(31)` where `L` is 0, at distance `b0[7:2] + (b1 << 6) + 1`; `InputOverrun` where the extension,
`b0` or `b1` is missing. What call-scoped registers hold once the job has ended is the model's choice (log
25). -/
def Obligations.M3Executes : Prop :=
  ∀ (s : State) (tag : Byte) (rest : List Byte), atInstruction s (tag :: rest) → s.st ≠ .start →
    0x20 ≤ tag.toNat → tag.toNat ≤ 0x3F →
    (∀ ext v b0 b1 more, carriesLength (tag.toNat % 32) 31 ext v → rest = ext ++ b0 :: b1 :: more →
      matchExecutes (step s) (fetched s (3 + ext.length)) (b0.toNat / 4 + b1.toNat * 64 + 1) (2 + v)
        (b0.toNat % 4)) ∧
    ((¬ ∃ ext v b0 b1 more, carriesLength (tag.toNat % 32) 31 ext v ∧ rest = ext ++ b0 :: b1 :: more) →
      step s = .next (decoderFault (fetched s (1 + rest.length)) .inputOverrun))

/-- M4 (rule R117): a tag from `0x10` to `0x1F` (at `START` only `0x10` and `0x11`) is a match of length
`2 + L`, or `2 + ExtLen(7)` where `L` is 0, at distance `16384 + (H1 << 14) + D14`, unless `H1` and `D14`
are 0: then EOS executes; `InputOverrun` where the extension, `b0` or `b1` is missing. What call-scoped
registers hold once the job has ended is the model's choice (log 25). -/
def Obligations.M4Executes : Prop :=
  ∀ (s : State) (tag : Byte) (rest : List Byte), atInstruction s (tag :: rest) →
    (s.st = .start → tag.toNat ≤ 0x11) → 0x10 ≤ tag.toNat → tag.toNat ≤ 0x1F →
    (∀ ext v b0 b1 more, carriesLength (tag.toNat % 8) 7 ext v → rest = ext ++ b0 :: b1 :: more →
      if tag.toNat / 8 % 2 = 0 ∧ b0.toNat / 4 + b1.toNat * 64 = 0 then
        eosExecutes (step s) (fetched s (3 + ext.length))
      else
        matchExecutes (step s) (fetched s (3 + ext.length))
          (16384 + tag.toNat / 8 % 2 * 16384 + (b0.toNat / 4 + b1.toNat * 64)) (2 + v) (b0.toNat % 4)) ∧
    ((¬ ∃ ext v b0 b1 more, carriesLength (tag.toNat % 8) 7 ext v ∧ rest = ext ++ b0 :: b1 :: more) →
      step s = .next (decoderFault (fetched s (1 + rest.length)) .inputOverrun))

/-- EOS (rule R130): `OutputNotConsumed` where the output is short, else `InputNotConsumed` where bytes
remain, else the job ends Ok with `OUT_LEN` the output cursor; no `OUT` byte and not `st` is written. What
call-scoped registers hold once the job has ended is the model's choice (log 25). -/
def Obligations.EosExecutes : Prop :=
  ∀ s : State, s.active = .decoder → eosExecutes (exec .eos s) s

/-- After an instruction the decoder state is a function of the instruction (rule R142): LITF `t`, or 4
from 4 on; LITR 4; a match `S`; after EOS no job runs and `st` is as it was. What call-scoped registers
hold once the job has ended is the model's choice (log 25). -/
def Obligations.StateAfterEachInstruction : Prop :=
  (∀ (t : Nat) (s u : State), exec (.litf t) s = .next u → u.active = .decoder →
    stCode u.st = BitVec.ofNat 3 (min t 4)) ∧
  (∀ (t : Nat) (s u : State), exec (.litr t) s = .next u → u.active = .decoder → u.st = .s4) ∧
  (∀ (i : Instr) (sc : Nat) (s u : State), sc ≤ 3 →
    (∃ dist, i = .m1n dist sc ∨ i = .m1f dist sc) ∨
      (∃ dist len, i = .m2s dist len sc ∨ i = .m2l dist len sc ∨ i = .m3 dist len sc ∨ i = .m4 dist len sc) →
    exec i s = .next u → u.active = .decoder → stCode u.st = BitVec.ofNat 3 sc) ∧
  ∀ s u : State, exec .eos s = .next u → u.active = .idle ∧ u.st = s.st

/-! ## Where each instruction completes, and its frame -/

/-- LITF and LITR complete where the literals are there and fit (rules R101, R102, R103): `ip`, `op`
and `st` move, the literals are in `OUT`, every other byte, register and flag is unchanged. -/
def Obligations.LiteralRunsComplete : Prop :=
  ∀ (t : Nat) (s : State), s.active = .decoder → s.outMem.wf = true → 1 ≤ t →
    s.ip + t ≤ s.inLen.toNat → s.op + t ≤ s.outCap.toNat →
    (∃ m st', stCode st' = BitVec.ofNat 3 (min t 4) ∧ literalsCopied s.inMem s.ip s.outMem m s.op t ∧
      exec (.litf t) s = .next { s with ip := s.ip + t, op := s.op + t, st := st', outMem := m }) ∧
    ∃ m, literalsCopied s.inMem s.ip s.outMem m s.op t ∧
      exec (.litr t) s = .next { s with ip := s.ip + t, op := s.op + t, st := .s4, outMem := m }

/-- M1N, M1F, M2S and M2L complete where the source starts in the window and the match and its trailing
literals are there and fit (rules R110 to R115): `ip`, `op` and `st` move, the copied bytes and the
literals are in `OUT`, every other byte, register and flag is unchanged. -/
def Obligations.ShortMatchesComplete : Prop :=
  ∀ (i : Instr) (dist len sc : Nat) (s : State),
    (i = .m1n dist sc ∧ len = 2) ∨ (i = .m1f dist sc ∧ len = 3) ∨ i = .m2s dist len sc ∨ i = .m2l dist len sc →
    sc ≤ 3 → s.active = .decoder → s.outMem.wf = true → 1 ≤ dist → dist ≤ s.op →
    s.op + len + sc ≤ s.outCap.toNat → s.ip + sc ≤ s.inLen.toNat →
    ∃ m m' st', stCode st' = BitVec.ofNat 3 sc ∧ historyCopied s.outMem m dist s.op len ∧
      literalsCopied s.inMem s.ip m m' (s.op + len) sc ∧
      exec i s = .next { s with ip := s.ip + sc, op := s.op + len + sc, st := st', outMem := m' }

/-- M3 and M4 complete under the same conditions, with the same effect (rules R110, R111, R116,
R117). -/
def Obligations.WideMatchesComplete : Prop :=
  ∀ (i : Instr) (dist len sc : Nat) (s : State), i = .m3 dist len sc ∨ i = .m4 dist len sc →
    sc ≤ 3 → s.active = .decoder → s.outMem.wf = true → 1 ≤ dist → dist ≤ s.op →
    s.op + len + sc ≤ s.outCap.toNat → s.ip + sc ≤ s.inLen.toNat →
    ∃ m m' st', stCode st' = BitVec.ofNat 3 sc ∧ historyCopied s.outMem m dist s.op len ∧
      literalsCopied s.inMem s.ip m m' (s.op + len) sc ∧
      exec i s = .next { s with ip := s.ip + sc, op := s.op + len + sc, st := st', outMem := m' }

/-- EOS completes where the output has exactly `OUT_CAP` bytes and no input is left (rules R130, R207):
the job ends Ok, and nothing but the result registers and `STATUS` changes. What call-scoped registers
hold once the job has ended is the model's choice (log 25). -/
def Obligations.EosCompletes : Prop :=
  ∀ s : State, s.active = .decoder → s.op = s.outCap.toNat → s.ip = s.inLen.toNat →
    exec .eos s = .next { s with
      outLen := s.outCap, faultIp := 0, faultOp := 0, code := .ok, active := .idle, done := true }

/-- NOP changes nothing (rule R201: "No register changes"). That an `OUT_LEN` other than 0 stays too is the
model's choice between rule R201 and rule R26 ("INIT and NOP leave it 0"), which contradict each other
there (log 24, DEDUCED). -/
def Obligations.NopChangesNothing : Prop := ∀ s : State, exec .nop s = .next s

/-- INIT on an idle CORE (rule R202): `INIT_OK` and `DONE` are set, `CODE`, `OUT_LEN`, `FAULT_IP` and
`FAULT_OP` are 0, nothing else changes. -/
def Obligations.InitSetsInitOk : Prop :=
  ∀ s : State, s.active = .idle →
    exec .init s = .next { s with
      initOk := true, done := true, code := .ok, outLen := 0, faultIp := 0, faultOp := 0 }

/-- COMPRESS on an idle CORE after INIT with the required capacity starts the encoder (rules R40, R203):
`BUSY` is set, the result registers are cleared, the encoder's cursors are 0, every table entry is
invalid, nothing else changes. -/
def Obligations.CompressStartsTheEncoder : Prop :=
  ∀ s : State, s.active = .idle → s.initOk = true →
    s.inLen.toNat + s.inLen.toNat / 16 + 67 ≤ s.outCap.toNat →
    exec .compress s = .next { s with
      active := .encoder, done := false, code := .ok, outLen := 0, faultIp := 0, faultOp := 0
      eip := 0, eii := 0, eop := 0, ht := [] }

/-- DECOMPRESS on an idle CORE after INIT starts the decoder (rules R40, R204): `BUSY` is set, the result
registers are cleared, `ip`, `op` and the latches are 0, `st` is `START`, nothing else changes. -/
def Obligations.DecompressStartsTheDecoder : Prop :=
  ∀ s : State, s.active = .idle → s.initOk = true →
    exec .decompress s = .next { s with
      active := .decoder, done := false, code := .ok, outLen := 0, faultIp := 0, faultOp := 0
      ip := 0, op := 0, st := .start, ipc := 0, opc := 0 }

/-- A COMPRESS or DECOMPRESS started with `INIT_OK = 0` ends at once with `Error` (rule R217): the fault
cursors are 0, no buffer is touched; only call-scoped state may change besides. -/
def Obligations.JobBeforeInitFails : Prop :=
  ∀ (i : Instr) (s : State), i = .compress ∨ i = .decompress → s.active = .idle → s.initOk = false →
    ∃ ip op st ipc opc eip eii eop ht, exec i s = .next { s with
      done := true, code := .error, outLen := 0, faultIp := 0, faultOp := 0
      ip := ip, op := op, st := st, ipc := ipc, opc := opc, eip := eip, eii := eii, eop := eop, ht := ht }

/-- `OutOfMemory` (rule R218): a COMPRESS after INIT whose capacity is below the formula ends at once,
with fault cursors 0 and no buffer touched, only the encoder's call-scoped state may change besides; no
DECOMPRESS start gives it. -/
def Obligations.CompressNeedsTheCapacity : Prop :=
  (∀ s : State, s.active = .idle → s.initOk = true →
    s.outCap.toNat < s.inLen.toNat + s.inLen.toNat / 16 + 67 →
    ∃ eip eii eop ht, exec .compress s = .next { s with
      done := true, code := .outOfMemory, outLen := 0, faultIp := 0, faultOp := 0
      eip := eip, eii := eii, eop := eop, ht := ht }) ∧
  ∀ s t : State, s.active = .idle → exec .decompress s = .next t → t.code ≠ .outOfMemory

/-- A wire instruction is refused where no DECOMPRESS job runs. This is the model's choice (log 10),
after rule R40: a read of call-scoped state before its initialisation is an error in the model. -/
def Obligations.WireInstructionsNeedAJob : Prop :=
  ∀ (i : Instr) (s : State), i.isWire = true → s.active ≠ .decoder → exec i s = .refused .noDecompressJob

/-! ## The host's side -/

/-- A `CMD` write with a reserved bit set, on an idle CORE (rule R205): `InvalidArgument`, `DONE`, the
result registers 0, nothing else changes, whatever `OP` is. -/
def Obligations.ReservedCommandBitsAreInvalid : Prop :=
  ∀ (s : State) (v : Word s.posBits) (more : List (HostAction s.posBits)), s.active = .idle →
    s.inputs = .writeReg 0 v :: more → v.toNat / 4 ≠ 0 →
    step s = .next { s with
      inputs := more, done := true, code := .invalidArgument, outLen := 0, faultIp := 0, faultOp := 0 }

/-- While `BUSY = 1` a host write to any job register changes nothing, and reads give `BUSY = 1`,
`DONE = 0`, `CODE = 0` (with `INIT_OK = 1`: `STATUS` reads 5) and 0 in the result registers (rule
R206). -/
def Obligations.WritesWhileBusyAreIgnored : Prop :=
  (∀ (s : State) (r : Fin 8) (v : Word s.posBits) (more : List (HostAction s.posBits)), s.active ≠ .idle →
    s.inputs = .writeReg r v :: more → step s = .next { s with inputs := more }) ∧
  ∀ s : State, s.Inv → s.active ≠ .idle →
    s.readReg 1 = 5 ∧ s.readReg 4 = 0 ∧ s.readReg 5 = 0 ∧ s.readReg 6 = 0

/-- Host access to the job registers of an idle CORE (rule R21): a write to `IN_LEN` or `OUT_CAP` takes
the value and changes nothing else, a write to another register but `CMD` is ignored; `CMD` reads 0
and the others read what they hold. -/
def Obligations.HostRegisterAccess : Prop :=
  (∀ (s : State) (r : Fin 8) (v : Word s.posBits) (more : List (HostAction s.posBits)), s.active = .idle →
    s.inputs = .writeReg r v :: more → r ≠ 0 →
    step s = .next { s with
      inputs := more
      inLen := if r = 2 then v else s.inLen
      outCap := if r = 3 then v else s.outCap }) ∧
  ∀ s : State, s.readReg 0 = 0 ∧ s.readReg 2 = s.inLen ∧ s.readReg 3 = s.outCap ∧ s.readReg 4 = s.outLen ∧
    s.readReg 5 = s.faultIp ∧ s.readReg 6 = s.faultOp

/-- The fields of `STATUS` (rule R23): bit 0 `BUSY`, bit 1 `DONE`, bit 2 `INIT_OK`, bits 7:3 zero, bits
15:8 the code of rule R216 (the 14 kinds and their numbers), the bits above zero, at every width that has
room for these fields (log 1). -/
def Obligations.StatusWordFields : Prop :=
  (∀ s : State, s.legalWidth →
    ((s.readReg 1).getLsbD 0 = true ↔ s.active ≠ .idle) ∧ (s.readReg 1).getLsbD 1 = s.done ∧
    (s.readReg 1).getLsbD 2 = s.initOk ∧ (s.readReg 1).toNat / 8 % 32 = 0 ∧
    (s.readReg 1).toNat / 256 = kindCode s.code ∧ kindCode s.code < 256) ∧
  kindCode .ok = 0 ∧ kindCode .error = 1 ∧ kindCode .outOfMemory = 2 ∧ kindCode .notCompressible = 3 ∧
  kindCode .inputOverrun = 4 ∧ kindCode .outputOverrun = 5 ∧ kindCode .lookbehindOverrun = 6 ∧
  kindCode .eofNotFound = 7 ∧ kindCode .inputNotConsumed = 8 ∧ kindCode .notYetImplemented = 9 ∧
  kindCode .invalidArgument = 10 ∧ kindCode .invalidAlignment = 11 ∧ kindCode .outputNotConsumed = 12 ∧
  kindCode .internalError = 99

/-- `CFG` is a constant (rule R28): bits 7:0 `POS_BITS`, bits 15:8 `HASH_BITS` = 14, the bits above
zero, at every width that has room for these fields (log 1); at the default width it reads `0x00000E20`;
no step changes it. -/
def Obligations.ConfigRegisterIsConstant : Prop :=
  (∀ s : State, s.legalWidth → (s.readReg 7).toNat % 256 = s.posBits ∧ (s.readReg 7).toNat / 256 = 14) ∧
  (∀ s : State, s.posBits = 32 → (s.readReg 7).toNat = 0x00000E20) ∧
  ∀ s t : State, step s = .next t → t.posBits = s.posBits ∧ (t.readReg 7).toNat = (s.readReg 7).toNat

/-- A host store to a buffer of an idle CORE changes that byte and no other (rule R208); while a job
runs the model refuses it (rule R249, U2: "refuse"; log 9). -/
def Obligations.HostStoresOneByte : Prop :=
  (∀ (s : State) (a : Word s.posBits) (b : Byte) (more : List (HostAction s.posBits)), s.active = .idle →
    s.inMem.wf = true → s.inputs = .storeIn a b :: more →
    ∃ m, step s = .next { s with inputs := more, inMem := m } ∧ m.wf = true ∧
      ∀ x, m.read x = if x = a.toNat then b else s.inMem.read x) ∧
  (∀ (s : State) (a : Word s.posBits) (b : Byte) (more : List (HostAction s.posBits)), s.active = .idle →
    s.outMem.wf = true → s.inputs = .storeOut a b :: more →
    ∃ m, step s = .next { s with inputs := more, outMem := m } ∧ m.wf = true ∧
      ∀ x, m.read x = if x = a.toNat then b else s.outMem.read x) ∧
  ∀ (s : State) (a : Word s.posBits) (b : Byte) (more : List (HostAction s.posBits)), s.active ≠ .idle →
    s.inputs = .storeIn a b :: more ∨ s.inputs = .storeOut a b :: more →
    step s = .refused .bufferStoreWhileBusy

/-- Hardware reset, during a job or not (rule R245): every job register takes the value of rule R39, no
job runs, `IN` is not touched, and `OUT` is not touched where no job runs; of a running job's `OUT` only
bytes inside the buffer can change (what they become is free, log 8); call-scoped state may be anything. -/
def Obligations.HardResetClearsTheRegisters : Prop :=
  ∀ (s : State) (more : List (HostAction s.posBits)), s.Inv → s.inputs = .hardReset :: more →
    ∃ m c ip op st ipc opc eip eii eop ht, step s = .next { s with
        active := .idle, done := false, initOk := false, code := .ok, inLen := 0, outCap := 0, outLen := 0
        faultIp := 0, faultOp := 0, ip := ip, op := op, st := st, ipc := ipc, opc := opc
        eip := eip, eii := eii, eop := eop, ht := ht, outMem := m, inputs := more, freeCount := c } ∧
      (s.active = .idle → m = s.outMem) ∧ ∀ a, s.outCap.toNat ≤ a → m.read a = s.outMem.read a

/-- The values after hardware reset that the spec states (rule R39), at every width: `STATUS` and its
fields 0, the operand and result registers 0, `CFG` the constant of rule R28, `CMD` reads 0; the reset
state of the model is the one at the default width 32 (rule R8, log 1). -/
def Obligations.ResetValues : Prop :=
  (∀ posBits : Nat, let s := State.resetOf posBits
    s.posBits = posBits ∧ s.active = .idle ∧ s.done = false ∧ s.initOk = false ∧ kindCode s.code = 0 ∧
    s.readReg 0 = 0 ∧ s.readReg 1 = 0 ∧ s.readReg 2 = 0 ∧ s.readReg 3 = 0 ∧ s.readReg 4 = 0 ∧
    s.readReg 5 = 0 ∧ s.readReg 6 = 0 ∧ (s.readReg 7).toNat = (14 * 256 + posBits) % 2 ^ posBits) ∧
  State.reset = State.resetOf 32 ∧ (State.reset.readReg 7).toNat = 0x00000E20

/-! ## The encoder -/

/-- Two windows that agree in three bytes and have the same hash agree in the fourth, so a candidate
never matches in exactly three bytes (rule R165, derived there; hash of decision D4). -/
def Obligations.HashTellsTheFourthByte : Prop :=
  ∀ b0 b1 b2 x y : Byte, hashWindow b0 b1 b2 x = hashWindow b0 b1 b2 y → x = y

/-- The match length is that of the longest common run from the candidate and from the position, bounded
by the end of input only (rule R164); no read is out of bounds. -/
def Obligations.MatchLengthIsTheCommonRun : Prop :=
  ∀ (s : State) (m p : Nat), m < p → p ≤ s.inLen.toNat →
    ∃ len, s.matchLen (s.inLen.toNat - p) m p = .ok len ∧ p + len ≤ s.inLen.toNat ∧
      (∀ i, i < len → s.inMem.read (m + i) = s.inMem.read (p + i)) ∧
      (p + len = s.inLen.toNat ∨ s.inMem.read (m + len) ≠ s.inMem.read (p + len))

/-- The match form and its cost (rule R181): `EmitMatch` writes the encoding of M2S or M2L, M3, or M4
with `S` = 0, the first that can carry the match, and the number of bytes is `MatchCost`. -/
def Obligations.MatchFormAndCost : Prop :=
  ∀ dist len : Nat, 1 ≤ dist → dist ≤ 49151 → 3 ≤ len →
    emitMatch dist len =
      (if dist ≤ 2048 ∧ len ≤ 8 then
        (if len ≤ 4 then encodeWire (.m2s dist len 0) else encodeWire (.m2l dist len 0))
      else if dist ≤ 16384 then encodeWire (.m3 dist len 0) else encodeWire (.m4 dist len 0)) ∧
    (emitMatch dist len).length = matchCost dist len ∧
    matchCost dist len =
      (if dist ≤ 2048 ∧ len ≤ 8 then 2
      else if dist ≤ 16384 then (if len ≤ 33 then 3 else 3 + (len - 33 + 254) / 255)
      else (if len ≤ 9 then 3 else 3 + (len - 9 + 254) / 255))

/-- The acceptance policy (rule R165): at least 3 bytes and a cost below the length; so a match of
length 3 is accepted only within 2048, and every match of 4 or more at an encodable distance is. -/
def Obligations.AcceptancePolicy : Prop :=
  (∀ dist len : Nat, accepts dist len = true ↔ 3 ≤ len ∧ matchCost dist len < len) ∧
  (∀ dist : Nat, accepts dist 3 = true ↔ dist ≤ 2048) ∧
  ∀ dist len : Nat, dist ≤ 49151 → 4 ≤ len → accepts dist len = true

/-- A scan step without a match (rules R162, R163, R165, R166): where the entry of the window's hash is
invalid, or too far back, or its match is not accepted, the position is entered in the table, the
scan cursor moves by one, and nothing else changes. -/
def Obligations.ScanStepWithoutMatch : Prop :=
  ∀ (s : State) (h : Nat), s.active = .encoder → s.inputs = [] → s.eip + 4 ≤ s.inLen.toNat →
    s.hash4 s.eip = .ok h →
    (s.ht.get h = none ∨
      ∃ m, s.ht.get h = some m ∧ m < s.eip ∧
        (49151 < s.eip - m ∨
          ∃ len, s.matchLen (s.inLen.toNat - s.eip) m s.eip = .ok len ∧ accepts (s.eip - m) len = false)) →
    step s = .next { s with eip := s.eip + 1, ht := s.ht.put h s.eip } ∧
    ∀ x, (s.ht.put h s.eip).get x = if x = h then some s.eip else s.ht.get x

/-- A scan step with an accepted match (rules R162, R167, R180, R185, R186): the pending literals and the
match are appended to the stream, at most the `S` field two positions behind changes before it, the
table takes the position and the skipped ones (each entry the last with its hash), both input cursors
move past the match, the job goes on, and nothing else changes. -/
def Obligations.ScanStepWithMatch : Prop :=
  ∀ (s : State) (h m len : Nat), s.Inv → s.active = .encoder → s.inputs = [] →
    s.eip + 4 ≤ s.inLen.toNat → s.hash4 s.eip = .ok h → s.ht.get h = some m → s.eip - m ≤ 49151 →
    s.matchLen (s.inLen.toNat - s.eip) m s.eip = .ok len → accepts (s.eip - m) len = true →
    ∃ out t, step s = .next { s with
        outMem := out, ht := t, eip := s.eip + len, eii := s.eip + len
        eop := s.eop + (runHeader (s.eop == 0) (s.eip - s.eii)).length + (s.eip - s.eii)
          + (emitMatch (s.eip - m) len).length } ∧
      out.slice s.eop ((runHeader (s.eop == 0) (s.eip - s.eii)).length + (s.eip - s.eii)
          + (emitMatch (s.eip - m) len).length) =
        runHeader (s.eop == 0) (s.eip - s.eii) ++ s.inMem.slice s.eii (s.eip - s.eii) ++ emitMatch (s.eip - m) len ∧
      (∀ a, a < s.eop → out.read a = patchedByte s.eop (s.eip - s.eii) a (s.outMem.read a)) ∧
      (∀ a, s.eop + (runHeader (s.eop == 0) (s.eip - s.eii)).length + (s.eip - s.eii)
          + (emitMatch (s.eip - m) len).length ≤ a → out.read a = s.outMem.read a) ∧
      s.tableAfter s.ht t s.eip len

/-- The tail step (rules R168, R187, R189): where no whole window remains, the pending literals and the
canonical EOS are appended, and the job ends: Ok with `OUT_LEN` the stream length where the stream is
shorter than the input, else `NotCompressible` with `OUT_LEN` 0 and the cursors recorded. What call-scoped
registers hold once the job has ended is the model's choice (log 25). -/
def Obligations.TailStepEndsTheJob : Prop :=
  ∀ s : State, s.Inv → s.active = .encoder → s.inputs = [] → s.inLen.toNat < s.eip + 4 →
    ∃ out n, n = s.eop + (runHeader (s.eop == 0) (s.inLen.toNat - s.eii)).length + (s.inLen.toNat - s.eii) + 3 ∧
      (if n < s.inLen.toNat then
        step s = .next { s with
          outMem := out, eop := n, outLen := BitVec.ofNat s.posBits n, faultIp := 0, faultOp := 0
          code := .ok, active := .idle, done := true }
      else
        step s = .next { s with
          outMem := out, eop := n, outLen := 0, faultIp := BitVec.ofNat s.posBits s.eip
          faultOp := BitVec.ofNat s.posBits n, code := .notCompressible, active := .idle, done := true }) ∧
      out.slice s.eop (n - s.eop) =
        runHeader (s.eop == 0) (s.inLen.toNat - s.eii) ++ s.inMem.slice s.eii (s.inLen.toNat - s.eii)
          ++ [0x11#8, 0x00#8, 0x00#8] ∧
      (∀ a, a < s.eop → out.read a = patchedByte s.eop (s.inLen.toNat - s.eii) a (s.outMem.read a)) ∧
      ∀ a, n ≤ a → out.read a = s.outMem.read a

/-! ## The whole machine -/

/-- The invariant holds after reset at every width that has room for the register fields (the values
rule R39 states, and those of logs 1 and 3 to 6). -/
def Obligations.ResetMeetsTheInvariant : Prop :=
  State.reset.Inv ∧ ∀ posBits : Nat, 16 ≤ posBits → posBits < 256 → (State.resetOf posBits).Inv

/-- Every step keeps the invariant, from every state that meets it (rules R23, R144, R171, R190). -/
def Obligations.StepKeepsTheInvariant : Prop :=
  ∀ s t : State, s.Inv → step s = .next t → t.Inv

/-- No step makes an access outside the buffers (rules R144, R230): from a state that meets the
invariant the machine never stops with one of the model's guards. -/
def Obligations.NoAccessIsOutOfBounds : Prop :=
  ∀ (s : State) (f : Fault), s.Inv → step s ≠ .fault f

/-- The sizes of rules R8 and R17, from a state that meets the invariant: the hash table fits `WRK_BITS`
(an entry is a valid bit and a position), the encoder's positions and cursors and the decoder's cursors
fit `POS_BITS`, the length of every instruction a job decodes fits the `LEN_BITS` accumulator, and its
distance is at most `MAX_DIST`. -/
def Obligations.WorkingMemoryAndLengthsFit : Prop :=
  ∀ s : State, s.Inv →
    s.ht.length * (1 + s.posBits) ≤ Config.wrkBits s.posBits ∧
    (s.active = .encoder → s.eii < 2 ^ s.posBits ∧ s.eip < 2 ^ s.posBits ∧ s.eop < 2 ^ s.posBits ∧
      ∀ h p, s.ht.get h = some p → p < 2 ^ s.posBits) ∧
    (s.active = .decoder → s.ip < 2 ^ s.posBits ∧ s.op < 2 ^ s.posBits ∧
      ∀ i rest, decode s.st s.unread = .ok (i, rest) →
        i.copyLength < 2 ^ Config.lenBits s.posBits ∧ i.copyDistance ≤ Config.maxDist)

/-- A step is refused only for a host store to a buffer of a running job (log 9). -/
def Obligations.OnlyBusyStoresAreRefused : Prop :=
  ∀ (s : State) (r : Refusal), step s = .refused r →
    r = .bufferStoreWhileBusy ∧ s.active ≠ .idle ∧
      ∃ a b more, s.inputs = .storeIn a b :: more ∨ s.inputs = .storeOut a b :: more

/-- The CORE never writes `IN` (rules R36, R63): only a host store changes it. -/
def Obligations.InputIsNeverWritten : Prop :=
  ∀ s t : State, step s = .next t → t.inMem = s.inMem ∨ ∃ a b more, s.inputs = .storeIn a b :: more

/-- `INIT_OK` is cleared only by hardware reset and set only by INIT (rules R23, R38). -/
def Obligations.InitOkIsSticky : Prop :=
  ∀ s t : State, step s = .next t →
    (s.initOk = true → t.initOk = true ∨ ∃ more, s.inputs = .hardReset :: more) ∧
    (s.initOk = false → t.initOk = true → s.active = .idle ∧ ∃ more, s.inputs = .writeReg 0 1 :: more)

/-- A decoder step writes `OUT` only from the output cursor on and below `OUT_CAP`, and changes neither
the operand registers, `INIT_OK`, `IN` nor the encoder's state (rules R118, R144, R204). -/
def Obligations.DecoderWritesOnlyAhead : Prop :=
  ∀ s t : State, s.Inv → s.active = .decoder → s.inputs = [] → step s = .next t →
    t.hostSide = s.hostSide ∧ t.ht = s.ht ∧ t.eip = s.eip ∧ t.eii = s.eii ∧ t.eop = s.eop ∧
    ∀ a, a < s.op ∨ s.outCap.toNat ≤ a → t.outMem.read a = s.outMem.read a

/-- The encoder's counterpart: an encoder step writes `OUT` below `OUT_CAP` only (rules R56, R188), and,
where the job goes on, below its new output cursor only, which does not move back (rule R180); behind
the old cursor only the byte two positions back can change (rule R186); it changes neither the operand
registers, `INIT_OK`, `IN` nor the decoder's state. The ending step's frame above the stream is
that of TailStepEndsTheJob. -/
def Obligations.EncoderWritesOnlyBelowItsCursor : Prop :=
  ∀ s t : State, s.Inv → s.active = .encoder → s.inputs = [] → step s = .next t →
    t.hostSide = s.hostSide ∧ t.ip = s.ip ∧ t.op = s.op ∧ t.st = s.st ∧ t.ipc = s.ipc ∧ t.opc = s.opc ∧
    (t.active = .encoder → s.eop ≤ t.eop ∧ t.eop ≤ s.outCap.toNat ∧
      ∀ a, t.eop ≤ a → t.outMem.read a = s.outMem.read a) ∧
    (∀ a, s.outCap.toNat ≤ a → t.outMem.read a = s.outMem.read a) ∧
    ∀ a, a < s.eop → a + 2 ≠ s.eop → t.outMem.read a = s.outMem.read a

/-- Every decoder step ends the job or moves `ip` forward (rule R145), and never moves `op` back. -/
def Obligations.DecoderStepConsumesInput : Prop :=
  ∀ s t : State, s.Inv → s.active = .decoder → s.inputs = [] → step s = .next t →
    t.active = .idle ∨ (t.active = .decoder ∧ s.ip < t.ip ∧ s.op ≤ t.op)

/-- A DECOMPRESS job ends, within `IN_LEN + 1` steps, in one of two ways (rules R131, R145): Ok with
`OUT_LEN` = `OUT_CAP`, or one of the six kinds of the decoder with `OUT_LEN` 0. -/
def Obligations.DecompressJobEnds : Prop :=
  ∀ s : State, s.Inv → s.active = .decoder → s.inputs = [] →
    ∃ k t, k ≤ s.inLen.toNat - s.ip + 1 ∧ reachesIdle k s t ∧ t.done = true ∧
      ((t.code = .ok ∧ t.outLen.toNat = s.outCap.toNat ∧ t.faultIp = 0 ∧ t.faultOp = 0) ∨
       (t.code ∈ [Kind.inputOverrun, .outputOverrun, .lookbehindOverrun, .eofNotFound, .inputNotConsumed,
          .outputNotConsumed] ∧ t.outLen = 0))

/-- A COMPRESS job ends, within `IN_LEN + 1` steps, with a stream of some `n` bytes, at most
`IN_LEN + IN_LEN/16 + 4` (rules R171 (e), R189, R190, R219): Ok with `OUT_LEN = n` where that is below
`IN_LEN`; else `NotCompressible` with `OUT_LEN` 0, `FAULT_OP = n` and `FAULT_IP` where the scan stopped. -/
def Obligations.CompressJobEnds : Prop :=
  ∀ s : State, s.Inv → s.active = .encoder → s.inputs = [] →
    ∃ k t n, k ≤ s.inLen.toNat - s.eip + 1 ∧ reachesIdle k s t ∧ t.done = true ∧
      n ≤ s.inLen.toNat + s.inLen.toNat / 16 + 4 ∧
      (if n < s.inLen.toNat then t.code = .ok ∧ t.outLen.toNat = n ∧ t.faultIp = 0 ∧ t.faultOp = 0
       else t.code = .notCompressible ∧ t.outLen = 0 ∧ s.inLen.toNat - 3 ≤ t.faultIp.toNat ∧
         t.faultIp.toNat ≤ s.inLen.toNat ∧ t.faultOp.toNat = n)

/-- The result of a DECOMPRESS job depends on the stream, its length and `OUT_CAP` only (rule R146): not
on old `OUT` bytes, the table, the registers an earlier job left, or the width of the registers. -/
def Obligations.DecompressIgnoresOldState : Prop :=
  ∀ (s t s' : State) (k : Nat), readyFor 3 s → readyFor 3 t → sameJob s t → reachesIdle k s s' →
    ∃ t', reachesIdle k t t' ∧ t'.code = s'.code ∧ t'.outLen.toNat = s'.outLen.toNat ∧
      t'.faultIp.toNat = s'.faultIp.toNat ∧ t'.faultOp.toNat = s'.faultOp.toNat ∧
      (s'.code = .ok → ∀ a, a < s.outCap.toNat → t'.outMem.read a = s'.outMem.read a)

/-- Round trip (rule R192): a COMPRESS job on any input ends with a stream of some `z` bytes in `OUT`, Ok
(`OUT_LEN = z`) or `NotCompressible` (`FAULT_OP = z`), and a DECOMPRESS job on that stream, told the
input's length, ends Ok with the input. -/
def Obligations.RoundTripReproducesTheInput : Prop :=
  ∀ s : State, readyFor 2 s → worstCase s.inLen.toNat ≤ s.outCap.toNat → roundTrips s
end

