-- ==== Sys2Proof/Laws/Memory.lean ====
section
/-!
SUPPORT. The laws of the buffers and of the hash table: read after write, the canonical form kept by
every operation, the bytes of a slice, and the checked accesses.
-/

namespace Sys2Proof.Laws

open Sys2Proof.Machine

/-! ## Buffers -/

theorem Memory.wfFrom_mono {m : Memory} {lo lo' : Nat} (hle : lo' ≤ lo) (h : Memory.wfFrom lo m = true) :
    Memory.wfFrom lo' m = true := by
  cases m with
  | nil => rfl
  | cons c m =>
    simp only [Memory.wfFrom, Bool.and_eq_true, decide_eq_true_eq] at h ⊢
    exact ⟨⟨by omega, h.1.2⟩, h.2⟩

/-- Below the first offset that can be listed every byte is the unlisted one. -/
theorem Memory.read_below {m : Memory} {lo a : Nat} (h : Memory.wfFrom lo m = true) (ha : a < lo) :
    m.read a = Config.unlistedByte := by
  cases m with
  | nil => rfl
  | cons c m =>
    simp only [Memory.wfFrom, Bool.and_eq_true, decide_eq_true_eq] at h
    have hx : ¬ a = c.1 := by omega
    have hlt : a < c.1 := by omega
    simp [Memory.read, hx, hlt]

theorem Memory.write_wfFrom {m : Memory} {lo a : Nat} {v : Byte} (h : Memory.wfFrom lo m = true) (ha : lo ≤ a) :
    Memory.wfFrom lo (m.write a v) = true := by
  induction m generalizing lo with
  | nil => by_cases hv : v = Config.unlistedByte <;> simp [Memory.write, Memory.wfFrom, hv, ha]
  | cons c m ih =>
    obtain ⟨x, b⟩ := c
    simp only [Memory.wfFrom, Bool.and_eq_true, decide_eq_true_eq] at h
    obtain ⟨⟨hlo, hb⟩, hm⟩ := h
    by_cases hax : a < x
    · by_cases hv : v = Config.unlistedByte
      · simp [Memory.write, Memory.wfFrom, hax, hv, hlo, hm]
        simpa using hb
      · simp only [Memory.write, if_pos hax, if_neg hv, Memory.wfFrom, Bool.and_eq_true, decide_eq_true_eq]
        exact ⟨⟨ha, by simpa using hv⟩, ⟨⟨by omega, hb⟩, hm⟩⟩
    · by_cases hae : a = x
      · by_cases hv : v = Config.unlistedByte
        · simp only [Memory.write, if_neg hax, if_pos hae, if_pos hv]
          exact Memory.wfFrom_mono (by omega) hm
        · simp only [Memory.write, if_neg hax, if_pos hae, if_neg hv, Memory.wfFrom, Bool.and_eq_true,
            decide_eq_true_eq]
          exact ⟨⟨hlo, by simpa using hv⟩, hm⟩
      · simp only [Memory.write, if_neg hax, if_neg hae, Memory.wfFrom, Bool.and_eq_true, decide_eq_true_eq]
        exact ⟨⟨hlo, hb⟩, ih hm (by omega)⟩

/-- A write keeps the canonical form. -/
theorem Memory.write_wf {m : Memory} (a : Nat) (v : Byte) (h : m.wf = true) : (m.write a v).wf = true :=
  Memory.write_wfFrom h (Nat.zero_le a)

theorem Memory.read_write_from {m : Memory} {lo a : Nat} {v : Byte} (h : Memory.wfFrom lo m = true) (a' : Nat) :
    (m.write a v).read a' = if a' = a then v else m.read a' := by
  induction m generalizing lo with
  | nil =>
    by_cases hv : v = Config.unlistedByte
    · simp [Memory.write, Memory.read, hv]
    · by_cases ha : a' = a <;> simp [Memory.write, Memory.read, hv, ha]
  | cons c m ih =>
    obtain ⟨x, b⟩ := c
    simp only [Memory.wfFrom, Bool.and_eq_true, decide_eq_true_eq] at h
    obtain ⟨⟨hlo, hb⟩, hm⟩ := h
    by_cases hax : a < x
    · by_cases hv : v = Config.unlistedByte
      · simp only [Memory.write, if_pos hax, if_pos hv]
        by_cases ha : a' = a
        · subst ha
          simp [Memory.read, show ¬ a' = x by omega, hax, hv]
        · simp [ha]
      · simp only [Memory.write, if_pos hax, if_neg hv]
        by_cases ha : a' = a
        · simp [Memory.read, ha]
        · by_cases hlt : a' < a
          · simp [Memory.read, ha, hlt, show ¬ a' = x by omega, show a' < x by omega]
          · rw [Memory.read, if_neg ha, if_neg hlt, if_neg ha]
    · by_cases hae : a = x
      · subst hae
        by_cases hv : v = Config.unlistedByte
        · simp only [Memory.write, if_neg hax, if_pos hv, if_true]
          by_cases ha : a' = a
          · subst ha
            simp [Memory.read_below hm (show a' < a' + 1 by omega), hv]
          · by_cases hlt : a' < a
            · simp [Memory.read, ha, hlt, Memory.read_below hm (show a' < a + 1 by omega)]
            · simp [Memory.read, ha, hlt]
        · simp only [Memory.write, if_neg hax, if_neg hv, if_true]
          by_cases ha : a' = a <;> simp [Memory.read, ha]
      · simp only [Memory.write, if_neg hax, if_neg hae]
        have hih := ih hm
        by_cases hx : a' = x
        · have : ¬ a' = a := by omega
          simp [Memory.read, hx, show ¬ x = a by omega]
        · by_cases hlt : a' < x
          · have : ¬ a' = a := by omega
            simp [Memory.read, hx, hlt, this]
          · simp [Memory.read, hx, hlt, hih]

/-- What any byte reads as after a write (rule R55). -/
theorem Memory.read_write {m : Memory} (a a' : Nat) (v : Byte) (h : m.wf = true) :
    (m.write a v).read a' = if a' = a then v else m.read a' :=
  Memory.read_write_from h a'

theorem Memory.read_write_same {m : Memory} (a : Nat) (v : Byte) (h : m.wf = true) : (m.write a v).read a = v := by
  simp [Memory.read_write a a v h]

theorem Memory.read_write_other {m : Memory} {a a' : Nat} (v : Byte) (h : m.wf = true) (hne : a' ≠ a) :
    (m.write a v).read a' = m.read a' := by
  simp [Memory.read_write a a' v h, hne]

theorem Memory.writeBytes_wf (bs : List Byte) (a : Nat) {m : Memory} (h : m.wf = true) :
    (m.writeBytes a bs).wf = true := by
  induction bs generalizing m a with
  | nil => exact h
  | cons b bs ih => exact ih (a + 1) (Memory.write_wf a b h)

@[simp] theorem Memory.length_slice (m : Memory) (a n : Nat) : (m.slice a n).length = n := by
  induction n generalizing a with
  | zero => rfl
  | succ n ih => simp [Memory.slice, ih]

theorem Memory.getElem_slice (m : Memory) {a n i : Nat} (h : i < (m.slice a n).length) :
    (m.slice a n)[i] = m.read (a + i) := by
  induction n generalizing a i with
  | zero => simp [Memory.slice] at h
  | succ n ih =>
    cases i with
    | zero => simp [Memory.slice]
    | succ i =>
      simp only [Memory.slice, List.getElem_cons_succ]
      rw [ih]
      congr 1
      omega

/-- A slice splits at any point. -/
theorem Memory.slice_add (m : Memory) (a n k : Nat) : m.slice a (n + k) = m.slice a n ++ m.slice (a + n) k := by
  induction n generalizing a with
  | zero => simp [Memory.slice]
  | succ n ih =>
    have : n + 1 + k = n + k + 1 := by omega
    rw [this, Memory.slice, ih, Memory.slice, List.cons_append]
    congr 3
    omega

/-- Two buffers that agree on a range have the same slice. -/
theorem Memory.slice_congr {m m' : Memory} {a n : Nat} (h : ∀ i, i < n → m.read (a + i) = m'.read (a + i)) :
    m.slice a n = m'.slice a n := by
  induction n generalizing a with
  | zero => rfl
  | succ n ih =>
    have h0 : m.read a = m'.read a := by simpa using h 0 (by omega)
    have hs : m.slice (a + 1) n = m'.slice (a + 1) n := by
      refine ih fun i hi => ?_
      have := h (i + 1) (by omega)
      rwa [show a + (i + 1) = a + 1 + i by omega] at this
    simp only [Memory.slice, h0, hs]

/-! ## The hash table -/

theorem HashTable.wfFrom_mono {t : HashTable} {lo lo' : Nat} (hle : lo' ≤ lo) (h : HashTable.wfFrom lo t = true) :
    HashTable.wfFrom lo' t = true := by
  cases t with
  | nil => rfl
  | cons c t =>
    simp only [HashTable.wfFrom, Bool.and_eq_true, decide_eq_true_eq] at h ⊢
    exact ⟨⟨by omega, h.1.2⟩, h.2⟩

theorem HashTable.put_wfFrom {t : HashTable} {lo h p : Nat} (ht : HashTable.wfFrom lo t = true) (hlo : lo ≤ h)
    (hh : h < 2 ^ Config.hashBits) : HashTable.wfFrom lo (t.put h p) = true := by
  induction t generalizing lo with
  | nil => simp [HashTable.put, HashTable.wfFrom, hlo, hh]
  | cons c t ih =>
    obtain ⟨k, q⟩ := c
    simp only [HashTable.wfFrom, Bool.and_eq_true, decide_eq_true_eq] at ht
    obtain ⟨⟨h1, h2⟩, h3⟩ := ht
    by_cases hk : h < k
    · simp only [HashTable.put, if_pos hk, HashTable.wfFrom, Bool.and_eq_true, decide_eq_true_eq]
      exact ⟨⟨hlo, hh⟩, ⟨by omega, h2⟩, h3⟩
    · by_cases he : h = k
      · simp only [HashTable.put, if_neg hk, if_pos he, HashTable.wfFrom, Bool.and_eq_true, decide_eq_true_eq]
        exact ⟨⟨h1, h2⟩, h3⟩
      · simp only [HashTable.put, if_neg hk, if_neg he, HashTable.wfFrom, Bool.and_eq_true, decide_eq_true_eq]
        exact ⟨⟨h1, h2⟩, ih h3 (by omega)⟩

/-- An insert keeps the canonical form. -/
theorem HashTable.put_wf {t : HashTable} {h : Nat} (p : Nat) (ht : t.wf = true) (hh : h < 2 ^ Config.hashBits) :
    (t.put h p).wf = true :=
  HashTable.put_wfFrom ht (Nat.zero_le h) hh

/-- What any entry holds after an insert (rule R162); it needs no canonical form. -/
theorem HashTable.get_put (t : HashTable) (h h' p : Nat) :
    (t.put h p).get h' = if h' = h then some p else t.get h' := by
  induction t with
  | nil =>
    by_cases he : h' = h <;> simp [HashTable.put, HashTable.get, he]
  | cons c t ih =>
    obtain ⟨k, q⟩ := c
    by_cases hk : h < k
    · by_cases he : h' = h
      · simp [HashTable.put, HashTable.get, hk, he]
      · by_cases hlt : h' < h
        · simp [HashTable.put, HashTable.get, hk, he, hlt, show ¬ h' = k by omega, show h' < k by omega]
        · simp only [HashTable.put, if_pos hk, if_neg he]
          rw [HashTable.get, if_neg he, if_neg hlt]
    · by_cases hek : h = k
      · subst hek
        by_cases he : h' = h <;> simp [HashTable.put, HashTable.get, he]
      · simp only [HashTable.put, if_neg hk, if_neg hek, HashTable.get]
        by_cases hx : h' = k
        · simp [hx, show ¬ k = h by omega]
        · by_cases hlt : h' < k
          · simp [hx, hlt, show ¬ h' = h by omega]
          · simp [hx, hlt, ih]

/-- A canonical table has no more entries than there are indices (rule R34). -/
theorem HashTable.length_le_from {t : HashTable} {lo : Nat} (h : HashTable.wfFrom lo t = true) (hlo : lo ≤ 2 ^ Config.hashBits) :
    t.length + lo ≤ 2 ^ Config.hashBits := by
  induction t generalizing lo with
  | nil => simpa using hlo
  | cons c t ih =>
    simp only [HashTable.wfFrom, Bool.and_eq_true, decide_eq_true_eq] at h
    have := ih h.2 h.1.2
    rw [List.length_cons]
    omega

theorem HashTable.length_le {t : HashTable} (h : t.wf = true) : t.length ≤ 2 ^ Config.hashBits :=
  HashTable.length_le_from h (Nat.zero_le _)

/-! ## The checked accesses -/

theorem readIn_ok {s : State} {a : Nat} (h : a < s.inLen.toNat) : s.readIn a = .ok (s.inMem.read a) := by
  simp [State.readIn, h]

theorem writeOut_ok {s : State} {a : Nat} (v : Byte) (h : a < s.outCap.toNat) :
    s.writeOut a v = .ok { s with outMem := s.outMem.write a v } := by
  simp [State.writeOut, h]

theorem readOutBack_ok {s : State} {back dist : Nat} (h1 : 1 ≤ dist) (h2 : dist ≤ back) :
    s.readOutBack back dist = .ok (s.outMem.read (back - dist)) := by
  simp [State.readOutBack, h1, h2]

end Sys2Proof.Laws
end

