-- ==== Sys2Proof/Laws/Decode.lean ====
section
/-!
SUPPORT. The laws of decoding and encoding: bit fields, bytes of numbers, the length extension and its
inverse (rule R77), length fields, and what dispatch answers (rule R141).
-/

namespace Sys2Proof.Laws

open Sys2Proof.Machine

theorem bits_lt (b : Byte) (hi lo : Nat) : bits b hi lo < 2 ^ (hi + 1 - lo) :=
  Nat.mod_lt _ (Nat.two_pow_pos _)

/-- A byte's value is the number it was made from, where that is below 256. -/
theorem byteOf_toNat {n : Nat} (h : n < 256) : (byteOf n).toNat = n := by
  simp [byteOf, Nat.mod_eq_of_lt h]

/-- A byte is the byte of its value. -/
theorem byteOf_of_toNat (b : Byte) : byteOf b.toNat = b := by
  simp [byteOf]

/-- A byte is determined by its value. -/
theorem byteOf_eq {b : Byte} {n : Nat} (h : b.toNat = n) : byteOf n = b := by
  rw [← h, byteOf_of_toNat]

theorem byte_eq_zero_iff (b : Byte) : b = 0#8 ↔ b.toNat = 0 := by
  constructor
  · rintro rfl
    rfl
  · intro h
    exact BitVec.eq_of_toNat_eq h

/-- Zero extension bytes are worth 255 each (rule R77). -/
theorem extLen_zeros (base k : Nat) (rest : List Byte) :
    extLen base (List.replicate k 0#8 ++ rest) = (extLen base rest).map fun (v, r) => (v + 255 * k, r) := by
  induction k with
  | zero => cases h : extLen base rest <;> simp [h]
  | succ k ih =>
    rw [List.replicate_succ, List.cons_append, extLen, if_pos rfl, ih]
    cases h : extLen base rest with
    | none => simp
    | some p =>
      simp only [Option.map_some, Option.some.injEq, Prod.mk.injEq, and_true]
      omega

/-- The extension bytes of `x ≥ 1` read back as `base + x` (rule R77). -/
theorem extLen_extBytes (base x : Nat) (rest : List Byte) (h : 1 ≤ x) :
    extLen base (extBytes x ++ rest) = some (base + x, rest) := by
  have hlt : x - 255 * ((x - 1) / 255) < 256 := by omega
  have hpos : 1 ≤ x - 255 * ((x - 1) / 255) := by omega
  have hne : ¬ byteOf (x - 255 * ((x - 1) / 255)) = 0#8 := by
    rw [byte_eq_zero_iff, byteOf_toNat hlt]
    omega
  rw [extBytes, List.append_assoc, extLen_zeros, List.cons_append, List.nil_append, extLen, if_neg hne,
    byteOf_toNat hlt, Option.map_some]
  simp only [Option.some.injEq, Prod.mk.injEq, and_true]
  omega

/-- What an extension that is read says of the bytes: the value exceeds the base, and the bytes are its
encoding and the rest (each length has one encoding, rule R77). -/
theorem extLen_eq_some {base v : Nat} {bytes rest : List Byte} (h : extLen base bytes = some (v, rest)) :
    base + 1 ≤ v ∧ bytes = extBytes (v - base) ++ rest := by
  induction bytes generalizing v with
  | nil => simp [extLen] at h
  | cons b bytes ih =>
    by_cases hb : b = 0#8
    · rw [extLen, if_pos hb] at h
      obtain ⟨⟨w, r⟩, hw, hr⟩ := Option.map_eq_some_iff.mp h
      simp only [Prod.mk.injEq] at hr
      obtain ⟨rfl, rfl⟩ := hr
      obtain ⟨hle, hbytes⟩ := ih hw
      refine ⟨by omega, ?_⟩
      have hd : (w + 255 - base - 1) / 255 = (w - base - 1) / 255 + 1 := by omega
      have he : w + 255 - base - 255 * ((w - base - 1) / 255 + 1) = w - base - 255 * ((w - base - 1) / 255) := by
        omega
      rw [hbytes, hb, extBytes, extBytes, hd, he, List.replicate_succ, List.cons_append, List.cons_append]
    · rw [extLen, if_neg hb] at h
      simp only [Option.some.injEq, Prod.mk.injEq] at h
      obtain ⟨rfl, rfl⟩ := h
      have hpos : b.toNat ≠ 0 := fun h0 => hb ((byte_eq_zero_iff b).mpr h0)
      have hlt := b.isLt
      have hd : (base + b.toNat - base - 1) / 255 = 0 := by omega
      have he : base + b.toNat - base - 255 * 0 = b.toNat := by omega
      refine ⟨by omega, ?_⟩
      rw [extBytes, hd, he, byteOf_of_toNat, List.replicate_zero, List.nil_append, List.cons_append, List.nil_append]

/-- An extension is worth at most 255 for each of its bytes (rule R17). -/
theorem extLen_le {base v : Nat} {bytes rest : List Byte} (h : extLen base bytes = some (v, rest)) :
    v + 255 * rest.length ≤ base + 255 * bytes.length := by
  induction bytes generalizing v with
  | nil => simp [extLen] at h
  | cons b bytes ih =>
    rw [List.length_cons]
    by_cases hb : b = 0#8
    · rw [extLen, if_pos hb] at h
      obtain ⟨⟨w, r⟩, hw, hr⟩ := Option.map_eq_some_iff.mp h
      obtain ⟨rfl, rfl⟩ := Prod.mk.inj hr
      have := ih hw
      omega
    · rw [extLen, if_neg hb] at h
      obtain ⟨rfl, rfl⟩ := Prod.mk.inj (Option.some.inj h)
      have := b.isLt
      omega

theorem length_extBytes (x : Nat) : (extBytes x).length = (x - 1) / 255 + 1 := by
  simp [extBytes]

theorem length_lengthBytes (op bias inlineMax len : Nat) :
    (lengthBytes op bias inlineMax len).length =
      if len ≤ inlineMax then 1 else 2 + (len - inlineMax - 1) / 255 := by
  unfold lengthBytes
  split
  · rfl
  · rw [List.length_cons, length_extBytes]
    omega

/-! ## Dispatch (rule R141), one lemma per form -/

theorem dispatchForm_start {tag : Byte} (h : 18 ≤ tag.toNat) : dispatchForm .start tag = .litf := by
  simp [dispatchForm, h]

theorem dispatchForm_m2l {st : St} {tag : Byte} (hst : st ≠ .start) (h : 0x80 ≤ tag.toNat) :
    dispatchForm st tag = .m2l := by
  simp [dispatchForm, hst, h]

theorem dispatchForm_m2s {st : St} {tag : Byte} (hst : st ≠ .start) (h : 0x40 ≤ tag.toNat) (h' : tag.toNat < 0x80) :
    dispatchForm st tag = .m2s := by
  simp [dispatchForm, hst, h, Nat.not_le.mpr h']

theorem dispatchForm_m3 {st : St} {tag : Byte} (hst : st ≠ .start) (h : 0x20 ≤ tag.toNat) (h' : tag.toNat < 0x40) :
    dispatchForm st tag = .m3 := by
  simp [dispatchForm, hst, h, Nat.not_le.mpr h', show ¬ 0x80 ≤ tag.toNat by omega]

theorem dispatchForm_m4 {st : St} {tag : Byte} (hst : st = .start → tag.toNat < 18) (h : 0x10 ≤ tag.toNat)
    (h' : tag.toNat < 0x20) : dispatchForm st tag = .m4OrEos := by
  have h0 : ¬ (st = .start ∧ 18 ≤ tag.toNat) := fun ⟨a, b⟩ => absurd (hst a) (by omega)
  simp [dispatchForm, h0, h, show ¬ 0x80 ≤ tag.toNat by omega, show ¬ 0x40 ≤ tag.toNat by omega,
    show ¬ 0x20 ≤ tag.toNat by omega]

theorem dispatchForm_litr {st : St} {tag : Byte} (hst : st = .start ∨ st = .s0) (h : tag.toNat < 0x10) :
    dispatchForm st tag = .litr := by
  simp [dispatchForm, hst, show ¬ 18 ≤ tag.toNat by omega, show ¬ 0x80 ≤ tag.toNat by omega,
    show ¬ 0x40 ≤ tag.toNat by omega, show ¬ 0x20 ≤ tag.toNat by omega, show ¬ 0x10 ≤ tag.toNat by omega]

theorem dispatchForm_m1f {tag : Byte} (h : tag.toNat < 0x10) : dispatchForm .s4 tag = .m1f := by
  simp [dispatchForm, show ¬ 0x80 ≤ tag.toNat by omega, show ¬ 0x40 ≤ tag.toNat by omega,
    show ¬ 0x20 ≤ tag.toNat by omega, show ¬ 0x10 ≤ tag.toNat by omega]

theorem dispatchForm_m1n {st : St} {tag : Byte} (hst : st = .s1 ∨ st = .s2 ∨ st = .s3) (h : tag.toNat < 0x10) :
    dispatchForm st tag = .m1n := by
  rcases hst with rfl | rfl | rfl <;>
    simp [dispatchForm, show ¬ 0x80 ≤ tag.toNat by omega, show ¬ 0x40 ≤ tag.toNat by omega,
      show ¬ 0x20 ≤ tag.toNat by omega, show ¬ 0x10 ≤ tag.toNat by omega]

/-! ## Length fields -/

/-- A length field written by the encoder reads back (rules R73, R75): the tag's inline field is 0
exactly where the length is extended. -/
theorem lengthField_read {inl bias base inlineMax len : Nat} (rest : List Byte) (hb : bias + base = inlineMax)
    (hinl : inl = if len ≤ inlineMax then len - bias else 0) (hlen : bias < len) :
    lengthField inl bias base
      ((if len ≤ inlineMax then [] else extBytes (len - inlineMax)) ++ rest) = some (len, rest) := by
  by_cases h : len ≤ inlineMax
  · rw [if_pos h] at hinl
    rw [if_pos h, lengthField, if_neg (by omega), List.nil_append, hinl]
    simp only [Option.some.injEq, Prod.mk.injEq, and_true]
    omega
  · rw [if_neg h] at hinl
    rw [if_neg h, lengthField, if_pos hinl, extLen_extBytes _ _ _ (by omega), Option.map_some]
    simp only [Option.some.injEq, Prod.mk.injEq, and_true]
    omega

/-- What a length field that is read says of the bytes after the tag. -/
theorem lengthField_eq_some {inl bias base len : Nat} {bytes rest : List Byte}
    (h : lengthField inl bias base bytes = some (len, rest)) (hinl : inl ≤ base) :
    bias < len ∧ inl = (if len ≤ bias + base then len - bias else 0) ∧
      bytes = (if len ≤ bias + base then [] else extBytes (len - (bias + base))) ++ rest := by
  by_cases h0 : inl = 0
  · rw [lengthField, if_pos h0] at h
    obtain ⟨⟨v, r⟩, hv, hr⟩ := Option.map_eq_some_iff.mp h
    simp only [Prod.mk.injEq] at hr
    obtain ⟨rfl, rfl⟩ := hr
    obtain ⟨hle, hbytes⟩ := extLen_eq_some hv
    refine ⟨by omega, by rw [if_neg (by omega)]; exact h0, ?_⟩
    rw [if_neg (by omega), show bias + v - (bias + base) = v - base by omega]
    exact hbytes
  · rw [lengthField, if_neg h0] at h
    simp only [Option.some.injEq, Prod.mk.injEq] at h
    obtain ⟨rfl, rfl⟩ := h
    refine ⟨by omega, by rw [if_pos (by omega)]; omega, by rw [if_pos (by omega)]; rfl⟩

/-- The decoder reads the operands of the dispatched form. -/
theorem decode_cons (st : St) (tag : Byte) (rest : List Byte) :
    decode st (tag :: rest) =
      match decodeOperands (dispatchForm st tag) tag rest with
      | some r => .ok r
      | none => .error .truncated := rfl

/-! ## Commands -/

/-- The value of a command, written to a `CMD` of at least two bits, selects the command (rules R22,
R200). -/
theorem decodeCommand_encode {w n : Nat} {i : Instr} (hw : 2 ≤ w) (h : encodeCommand i = some n) :
    decodeCommand (BitVec.ofNat w n) = some i := by
  have h4 : 2 ^ 2 ≤ 2 ^ w := Nat.pow_le_pow_right (by omega) hw
  cases i <;> simp only [encodeCommand, Option.some.injEq, reduceCtorEq] at h <;> subst h <;>
    rw [decodeCommand, BitVec.toNat_ofNat, Nat.mod_eq_of_lt (by omega)] <;> rfl

end Sys2Proof.Laws
end

