-- ==== Sys2Proof/Laws/State.lean ====
section
/-!
SUPPORT. One lemma per field per named update of State, each true by rfl, so that no later proof
unfolds a record update.
-/

namespace Sys2Proof.Laws

open Sys2Proof.Machine

/-! ## What the end of a job writes (rule R207) -/

@[simp] theorem endJob_posBits (s : State) (k : Kind) (len fip fop : Nat) : State.posBits (s.endJob k len fip fop) = s.posBits := rfl
@[simp] theorem endJob_active (s : State) (k : Kind) (len fip fop : Nat) : State.active (s.endJob k len fip fop) = .idle := rfl
@[simp] theorem endJob_done (s : State) (k : Kind) (len fip fop : Nat) : State.done (s.endJob k len fip fop) = true := rfl
@[simp] theorem endJob_initOk (s : State) (k : Kind) (len fip fop : Nat) : State.initOk (s.endJob k len fip fop) = s.initOk := rfl
@[simp] theorem endJob_code (s : State) (k : Kind) (len fip fop : Nat) : State.code (s.endJob k len fip fop) = k := rfl
@[simp] theorem endJob_inLen (s : State) (k : Kind) (len fip fop : Nat) : State.inLen (s.endJob k len fip fop) = s.inLen := rfl
@[simp] theorem endJob_outCap (s : State) (k : Kind) (len fip fop : Nat) : State.outCap (s.endJob k len fip fop) = s.outCap := rfl
@[simp] theorem endJob_outLen (s : State) (k : Kind) (len fip fop : Nat) : State.outLen (s.endJob k len fip fop) = BitVec.ofNat s.posBits len := rfl
@[simp] theorem endJob_faultIp (s : State) (k : Kind) (len fip fop : Nat) : State.faultIp (s.endJob k len fip fop) = BitVec.ofNat s.posBits fip := rfl
@[simp] theorem endJob_faultOp (s : State) (k : Kind) (len fip fop : Nat) : State.faultOp (s.endJob k len fip fop) = BitVec.ofNat s.posBits fop := rfl
@[simp] theorem endJob_ip (s : State) (k : Kind) (len fip fop : Nat) : State.ip (s.endJob k len fip fop) = s.ip := rfl
@[simp] theorem endJob_op (s : State) (k : Kind) (len fip fop : Nat) : State.op (s.endJob k len fip fop) = s.op := rfl
@[simp] theorem endJob_st (s : State) (k : Kind) (len fip fop : Nat) : State.st (s.endJob k len fip fop) = s.st := rfl
@[simp] theorem endJob_ipc (s : State) (k : Kind) (len fip fop : Nat) : State.ipc (s.endJob k len fip fop) = s.ipc := rfl
@[simp] theorem endJob_opc (s : State) (k : Kind) (len fip fop : Nat) : State.opc (s.endJob k len fip fop) = s.opc := rfl
@[simp] theorem endJob_eip (s : State) (k : Kind) (len fip fop : Nat) : State.eip (s.endJob k len fip fop) = s.eip := rfl
@[simp] theorem endJob_eii (s : State) (k : Kind) (len fip fop : Nat) : State.eii (s.endJob k len fip fop) = s.eii := rfl
@[simp] theorem endJob_eop (s : State) (k : Kind) (len fip fop : Nat) : State.eop (s.endJob k len fip fop) = s.eop := rfl
@[simp] theorem endJob_ht (s : State) (k : Kind) (len fip fop : Nat) : State.ht (s.endJob k len fip fop) = s.ht := rfl
@[simp] theorem endJob_inMem (s : State) (k : Kind) (len fip fop : Nat) : State.inMem (s.endJob k len fip fop) = s.inMem := rfl
@[simp] theorem endJob_outMem (s : State) (k : Kind) (len fip fop : Nat) : State.outMem (s.endJob k len fip fop) = s.outMem := rfl
@[simp] theorem endJob_inputs (s : State) (k : Kind) (len fip fop : Nat) : State.inputs (s.endJob k len fip fop) = s.inputs := rfl
@[simp] theorem endJob_freeCount (s : State) (k : Kind) (len fip fop : Nat) : State.freeCount (s.endJob k len fip fop) = s.freeCount := rfl

/-! ## A job that ends Ok (rules R26, R207) -/

@[simp] theorem endOk_posBits (s : State) (len : Nat) : State.posBits (s.endOk len) = s.posBits := rfl
@[simp] theorem endOk_active (s : State) (len : Nat) : State.active (s.endOk len) = .idle := rfl
@[simp] theorem endOk_done (s : State) (len : Nat) : State.done (s.endOk len) = true := rfl
@[simp] theorem endOk_initOk (s : State) (len : Nat) : State.initOk (s.endOk len) = s.initOk := rfl
@[simp] theorem endOk_code (s : State) (len : Nat) : State.code (s.endOk len) = .ok := rfl
@[simp] theorem endOk_inLen (s : State) (len : Nat) : State.inLen (s.endOk len) = s.inLen := rfl
@[simp] theorem endOk_outCap (s : State) (len : Nat) : State.outCap (s.endOk len) = s.outCap := rfl
@[simp] theorem endOk_outLen (s : State) (len : Nat) : State.outLen (s.endOk len) = BitVec.ofNat s.posBits len := rfl
@[simp] theorem endOk_faultIp (s : State) (len : Nat) : State.faultIp (s.endOk len) = 0 := rfl
@[simp] theorem endOk_faultOp (s : State) (len : Nat) : State.faultOp (s.endOk len) = 0 := rfl
@[simp] theorem endOk_ip (s : State) (len : Nat) : State.ip (s.endOk len) = s.ip := rfl
@[simp] theorem endOk_op (s : State) (len : Nat) : State.op (s.endOk len) = s.op := rfl
@[simp] theorem endOk_st (s : State) (len : Nat) : State.st (s.endOk len) = s.st := rfl
@[simp] theorem endOk_ipc (s : State) (len : Nat) : State.ipc (s.endOk len) = s.ipc := rfl
@[simp] theorem endOk_opc (s : State) (len : Nat) : State.opc (s.endOk len) = s.opc := rfl
@[simp] theorem endOk_eip (s : State) (len : Nat) : State.eip (s.endOk len) = s.eip := rfl
@[simp] theorem endOk_eii (s : State) (len : Nat) : State.eii (s.endOk len) = s.eii := rfl
@[simp] theorem endOk_eop (s : State) (len : Nat) : State.eop (s.endOk len) = s.eop := rfl
@[simp] theorem endOk_ht (s : State) (len : Nat) : State.ht (s.endOk len) = s.ht := rfl
@[simp] theorem endOk_inMem (s : State) (len : Nat) : State.inMem (s.endOk len) = s.inMem := rfl
@[simp] theorem endOk_outMem (s : State) (len : Nat) : State.outMem (s.endOk len) = s.outMem := rfl
@[simp] theorem endOk_inputs (s : State) (len : Nat) : State.inputs (s.endOk len) = s.inputs := rfl
@[simp] theorem endOk_freeCount (s : State) (len : Nat) : State.freeCount (s.endOk len) = s.freeCount := rfl

/-! ## Fault entry (rule R232) -/

@[simp] theorem raise_posBits (s : State) (k : Kind) : State.posBits (s.raise k) = s.posBits := rfl
@[simp] theorem raise_active (s : State) (k : Kind) : State.active (s.raise k) = .idle := rfl
@[simp] theorem raise_done (s : State) (k : Kind) : State.done (s.raise k) = true := rfl
@[simp] theorem raise_initOk (s : State) (k : Kind) : State.initOk (s.raise k) = s.initOk := rfl
@[simp] theorem raise_code (s : State) (k : Kind) : State.code (s.raise k) = k := rfl
@[simp] theorem raise_inLen (s : State) (k : Kind) : State.inLen (s.raise k) = s.inLen := rfl
@[simp] theorem raise_outCap (s : State) (k : Kind) : State.outCap (s.raise k) = s.outCap := rfl
@[simp] theorem raise_outLen (s : State) (k : Kind) : State.outLen (s.raise k) = 0 := rfl
@[simp] theorem raise_faultIp (s : State) (k : Kind) : State.faultIp (s.raise k) = BitVec.ofNat s.posBits s.faultCursors.1 := rfl
@[simp] theorem raise_faultOp (s : State) (k : Kind) : State.faultOp (s.raise k) = BitVec.ofNat s.posBits s.faultCursors.2 := rfl
@[simp] theorem raise_ip (s : State) (k : Kind) : State.ip (s.raise k) = s.ip := rfl
@[simp] theorem raise_op (s : State) (k : Kind) : State.op (s.raise k) = s.op := rfl
@[simp] theorem raise_st (s : State) (k : Kind) : State.st (s.raise k) = s.st := rfl
@[simp] theorem raise_ipc (s : State) (k : Kind) : State.ipc (s.raise k) = s.ipc := rfl
@[simp] theorem raise_opc (s : State) (k : Kind) : State.opc (s.raise k) = s.opc := rfl
@[simp] theorem raise_eip (s : State) (k : Kind) : State.eip (s.raise k) = s.eip := rfl
@[simp] theorem raise_eii (s : State) (k : Kind) : State.eii (s.raise k) = s.eii := rfl
@[simp] theorem raise_eop (s : State) (k : Kind) : State.eop (s.raise k) = s.eop := rfl
@[simp] theorem raise_ht (s : State) (k : Kind) : State.ht (s.raise k) = s.ht := rfl
@[simp] theorem raise_inMem (s : State) (k : Kind) : State.inMem (s.raise k) = s.inMem := rfl
@[simp] theorem raise_outMem (s : State) (k : Kind) : State.outMem (s.raise k) = s.outMem := rfl
@[simp] theorem raise_inputs (s : State) (k : Kind) : State.inputs (s.raise k) = s.inputs := rfl
@[simp] theorem raise_freeCount (s : State) (k : Kind) : State.freeCount (s.raise k) = s.freeCount := rfl

/-! ## Job start of DECOMPRESS (rule R40) -/

@[simp] theorem startDecoder_posBits (s : State) : State.posBits s.startDecoder = s.posBits := rfl
@[simp] theorem startDecoder_active (s : State) : State.active s.startDecoder = .decoder := rfl
@[simp] theorem startDecoder_done (s : State) : State.done s.startDecoder = false := rfl
@[simp] theorem startDecoder_initOk (s : State) : State.initOk s.startDecoder = s.initOk := rfl
@[simp] theorem startDecoder_code (s : State) : State.code s.startDecoder = .ok := rfl
@[simp] theorem startDecoder_inLen (s : State) : State.inLen s.startDecoder = s.inLen := rfl
@[simp] theorem startDecoder_outCap (s : State) : State.outCap s.startDecoder = s.outCap := rfl
@[simp] theorem startDecoder_outLen (s : State) : State.outLen s.startDecoder = 0 := rfl
@[simp] theorem startDecoder_faultIp (s : State) : State.faultIp s.startDecoder = 0 := rfl
@[simp] theorem startDecoder_faultOp (s : State) : State.faultOp s.startDecoder = 0 := rfl
@[simp] theorem startDecoder_ip (s : State) : State.ip s.startDecoder = 0 := rfl
@[simp] theorem startDecoder_op (s : State) : State.op s.startDecoder = 0 := rfl
@[simp] theorem startDecoder_st (s : State) : State.st s.startDecoder = .start := rfl
@[simp] theorem startDecoder_ipc (s : State) : State.ipc s.startDecoder = 0 := rfl
@[simp] theorem startDecoder_opc (s : State) : State.opc s.startDecoder = 0 := rfl
@[simp] theorem startDecoder_eip (s : State) : State.eip s.startDecoder = s.eip := rfl
@[simp] theorem startDecoder_eii (s : State) : State.eii s.startDecoder = s.eii := rfl
@[simp] theorem startDecoder_eop (s : State) : State.eop s.startDecoder = s.eop := rfl
@[simp] theorem startDecoder_ht (s : State) : State.ht s.startDecoder = s.ht := rfl
@[simp] theorem startDecoder_inMem (s : State) : State.inMem s.startDecoder = s.inMem := rfl
@[simp] theorem startDecoder_outMem (s : State) : State.outMem s.startDecoder = s.outMem := rfl
@[simp] theorem startDecoder_inputs (s : State) : State.inputs s.startDecoder = s.inputs := rfl
@[simp] theorem startDecoder_freeCount (s : State) : State.freeCount s.startDecoder = s.freeCount := rfl

/-! ## Job start of COMPRESS (rule R40) -/

@[simp] theorem startEncoder_posBits (s : State) : State.posBits s.startEncoder = s.posBits := rfl
@[simp] theorem startEncoder_active (s : State) : State.active s.startEncoder = .encoder := rfl
@[simp] theorem startEncoder_done (s : State) : State.done s.startEncoder = false := rfl
@[simp] theorem startEncoder_initOk (s : State) : State.initOk s.startEncoder = s.initOk := rfl
@[simp] theorem startEncoder_code (s : State) : State.code s.startEncoder = .ok := rfl
@[simp] theorem startEncoder_inLen (s : State) : State.inLen s.startEncoder = s.inLen := rfl
@[simp] theorem startEncoder_outCap (s : State) : State.outCap s.startEncoder = s.outCap := rfl
@[simp] theorem startEncoder_outLen (s : State) : State.outLen s.startEncoder = 0 := rfl
@[simp] theorem startEncoder_faultIp (s : State) : State.faultIp s.startEncoder = 0 := rfl
@[simp] theorem startEncoder_faultOp (s : State) : State.faultOp s.startEncoder = 0 := rfl
@[simp] theorem startEncoder_ip (s : State) : State.ip s.startEncoder = s.ip := rfl
@[simp] theorem startEncoder_op (s : State) : State.op s.startEncoder = s.op := rfl
@[simp] theorem startEncoder_st (s : State) : State.st s.startEncoder = s.st := rfl
@[simp] theorem startEncoder_ipc (s : State) : State.ipc s.startEncoder = s.ipc := rfl
@[simp] theorem startEncoder_opc (s : State) : State.opc s.startEncoder = s.opc := rfl
@[simp] theorem startEncoder_eip (s : State) : State.eip s.startEncoder = 0 := rfl
@[simp] theorem startEncoder_eii (s : State) : State.eii s.startEncoder = 0 := rfl
@[simp] theorem startEncoder_eop (s : State) : State.eop s.startEncoder = 0 := rfl
@[simp] theorem startEncoder_ht (s : State) : State.ht s.startEncoder = [] := rfl
@[simp] theorem startEncoder_inMem (s : State) : State.inMem s.startEncoder = s.inMem := rfl
@[simp] theorem startEncoder_outMem (s : State) : State.outMem s.startEncoder = s.outMem := rfl
@[simp] theorem startEncoder_inputs (s : State) : State.inputs s.startEncoder = s.inputs := rfl
@[simp] theorem startEncoder_freeCount (s : State) : State.freeCount s.startEncoder = s.freeCount := rfl

/-! ## The instruction-start latches (rule R140) -/

@[simp] theorem latched_posBits (s : State) : State.posBits s.latched = s.posBits := rfl
@[simp] theorem latched_active (s : State) : State.active s.latched = s.active := rfl
@[simp] theorem latched_done (s : State) : State.done s.latched = s.done := rfl
@[simp] theorem latched_initOk (s : State) : State.initOk s.latched = s.initOk := rfl
@[simp] theorem latched_code (s : State) : State.code s.latched = s.code := rfl
@[simp] theorem latched_inLen (s : State) : State.inLen s.latched = s.inLen := rfl
@[simp] theorem latched_outCap (s : State) : State.outCap s.latched = s.outCap := rfl
@[simp] theorem latched_outLen (s : State) : State.outLen s.latched = s.outLen := rfl
@[simp] theorem latched_faultIp (s : State) : State.faultIp s.latched = s.faultIp := rfl
@[simp] theorem latched_faultOp (s : State) : State.faultOp s.latched = s.faultOp := rfl
@[simp] theorem latched_ip (s : State) : State.ip s.latched = s.ip := rfl
@[simp] theorem latched_op (s : State) : State.op s.latched = s.op := rfl
@[simp] theorem latched_st (s : State) : State.st s.latched = s.st := rfl
@[simp] theorem latched_ipc (s : State) : State.ipc s.latched = s.ip := rfl
@[simp] theorem latched_opc (s : State) : State.opc s.latched = s.op := rfl
@[simp] theorem latched_eip (s : State) : State.eip s.latched = s.eip := rfl
@[simp] theorem latched_eii (s : State) : State.eii s.latched = s.eii := rfl
@[simp] theorem latched_eop (s : State) : State.eop s.latched = s.eop := rfl
@[simp] theorem latched_ht (s : State) : State.ht s.latched = s.ht := rfl
@[simp] theorem latched_inMem (s : State) : State.inMem s.latched = s.inMem := rfl
@[simp] theorem latched_outMem (s : State) : State.outMem s.latched = s.outMem := rfl
@[simp] theorem latched_inputs (s : State) : State.inputs s.latched = s.inputs := rfl
@[simp] theorem latched_freeCount (s : State) : State.freeCount s.latched = s.freeCount := rfl

/-! ## INIT (rule R202) -/

@[simp] theorem initialise_posBits (s : State) : State.posBits s.initialise = s.posBits := rfl
@[simp] theorem initialise_active (s : State) : State.active s.initialise = .idle := rfl
@[simp] theorem initialise_done (s : State) : State.done s.initialise = true := rfl
@[simp] theorem initialise_initOk (s : State) : State.initOk s.initialise = true := rfl
@[simp] theorem initialise_code (s : State) : State.code s.initialise = .ok := rfl
@[simp] theorem initialise_inLen (s : State) : State.inLen s.initialise = s.inLen := rfl
@[simp] theorem initialise_outCap (s : State) : State.outCap s.initialise = s.outCap := rfl
@[simp] theorem initialise_outLen (s : State) : State.outLen s.initialise = 0 := rfl
@[simp] theorem initialise_faultIp (s : State) : State.faultIp s.initialise = 0 := rfl
@[simp] theorem initialise_faultOp (s : State) : State.faultOp s.initialise = 0 := rfl
@[simp] theorem initialise_ip (s : State) : State.ip s.initialise = s.ip := rfl
@[simp] theorem initialise_op (s : State) : State.op s.initialise = s.op := rfl
@[simp] theorem initialise_st (s : State) : State.st s.initialise = s.st := rfl
@[simp] theorem initialise_ipc (s : State) : State.ipc s.initialise = s.ipc := rfl
@[simp] theorem initialise_opc (s : State) : State.opc s.initialise = s.opc := rfl
@[simp] theorem initialise_eip (s : State) : State.eip s.initialise = s.eip := rfl
@[simp] theorem initialise_eii (s : State) : State.eii s.initialise = s.eii := rfl
@[simp] theorem initialise_eop (s : State) : State.eop s.initialise = s.eop := rfl
@[simp] theorem initialise_ht (s : State) : State.ht s.initialise = s.ht := rfl
@[simp] theorem initialise_inMem (s : State) : State.inMem s.initialise = s.inMem := rfl
@[simp] theorem initialise_outMem (s : State) : State.outMem s.initialise = s.outMem := rfl
@[simp] theorem initialise_inputs (s : State) : State.inputs s.initialise = s.inputs := rfl
@[simp] theorem initialise_freeCount (s : State) : State.freeCount s.initialise = s.freeCount := rfl

/-! ## The engine and `BUSY` -/

@[simp] theorem busy_eq_false (s : State) : s.busy = false ↔ s.active = .idle := by
  cases h : s.active <;> simp [State.busy, h]

@[simp] theorem busy_eq_true (s : State) : s.busy = true ↔ s.active ≠ .idle := by
  cases h : s.active <;> simp [State.busy, h]

/-! ## The cursors fault entry records (rules R27, R232) -/

theorem faultCursors_decoder (s : State) (h : s.active = .decoder) : s.faultCursors = (s.ipc, s.opc) := by
  simp [State.faultCursors, h]

theorem faultCursors_encoder (s : State) (h : s.active = .encoder) : s.faultCursors = (s.eip, s.eop) := by
  simp [State.faultCursors, h]

theorem faultCursors_idle (s : State) (h : s.active = .idle) : s.faultCursors = (0, 0) := by
  simp [State.faultCursors, h]

end Sys2Proof.Laws
end

