-- ==== Sys2Proof/Laws/Ops.lean ====
section
/-!
SUPPORT. One lemma per shared operation of the decoder that says everything it can do: the two copies
(rules R101, R110), the bodies of the wire instructions, the commands, and hardware reset.
-/

namespace Sys2Proof.Laws

open Sys2Proof.Machine

/-! ## Flow -/

@[simp] theorem andThen_go (s : State) (f : State → Flow) : (Flow.go s).andThen f = f s := rfl
@[simp] theorem andThen_ended (s : State) (f : State → Flow) : (Flow.ended s).andThen f = .ended s := rfl
@[simp] theorem andThen_stuck (r : Fault) (f : State → Flow) : (Flow.stuck r).andThen f = .stuck r := rfl
@[simp] theorem outcome_go (s : State) : (Flow.go s).outcome = .next s := rfl
@[simp] theorem outcome_ended (s : State) : (Flow.ended s).outcome = .next s := rfl
@[simp] theorem outcome_stuck (r : Fault) : (Flow.stuck r).outcome = .fault r := rfl
@[simp] theorem withAccess_ok {α : Type} (v : α) (f : α → Flow) : withAccess (.ok v) f = f v := rfl
@[simp] theorem withAccess_error {α : Type} (e : Fault) (f : α → Flow) :
    withAccess (.error e : Except Fault α) f = .stuck e := rfl

/-- A flow answers a next state exactly where it is not stuck. -/
theorem outcome_eq_next {f : Flow} {t : State} : f.outcome = .next t ↔ f = .go t ∨ f = .ended t := by
  cases f <;> simp

theorem andThen_eq_go {f : Flow} {g : State → Flow} {t : State} :
    f.andThen g = .go t ↔ ∃ s, f = .go s ∧ g s = .go t := by
  cases f <;> simp

theorem andThen_eq_ended {f : Flow} {g : State → Flow} {t : State} :
    f.andThen g = .ended t ↔ f = .ended t ∨ ∃ s, f = .go s ∧ g s = .ended t := by
  cases f <;> simp

theorem andThen_eq_stuck {f : Flow} {g : State → Flow} {r : Fault} :
    f.andThen g = .stuck r ↔ f = .stuck r ∨ ∃ s, f = .go s ∧ g s = .stuck r := by
  cases f <;> simp

theorem andThen_assoc (f : Flow) (g h : State → Flow) :
    (f.andThen g).andThen h = f.andThen fun s => (g s).andThen h := by
  cases f <;> rfl

/-! ## The copies -/

/-- What the literal copy does when both ranges exist: it changes `OUT` only, in the destination range
only, where it puts the source bytes. -/
theorem copyFromIn_spec (n src dst : Nat) (s : State) (hs : src + n ≤ s.inLen.toNat)
    (hd : dst + n ≤ s.outCap.toNat) (hwf : s.outMem.wf = true) :
    ∃ m, copyFromIn n src dst s = .go { s with outMem := m } ∧ m.wf = true ∧
      ∀ a, m.read a = if dst ≤ a ∧ a < dst + n then s.inMem.read (src + (a - dst)) else s.outMem.read a := by
  induction n generalizing src dst s with
  | zero => exact ⟨s.outMem, rfl, hwf, fun a => by rw [if_neg (by omega)]⟩
  | succ n ih =>
    have hin : s.readIn src = .ok (s.inMem.read src) := readIn_ok (by omega)
    have hout := writeOut_ok (s := s) (a := dst) (s.inMem.read src) (by omega)
    obtain ⟨m, hm, hmwf, hread⟩ :=
      ih (src + 1) (dst + 1) { s with outMem := s.outMem.write dst (s.inMem.read src) } (by simpa using by omega)
        (by simpa using by omega) (Memory.write_wf _ _ hwf)
    refine ⟨m, ?_, hmwf, fun a => ?_⟩
    · simp only [copyFromIn, hin, withAccess_ok, hout, hm]
    · rw [hread a]
      by_cases h1 : dst + 1 ≤ a ∧ a < dst + 1 + n
      · rw [if_pos h1, if_pos (by omega)]
        congr 1
        omega
      · rw [if_neg h1, Memory.read_write _ _ _ hwf]
        by_cases h2 : a = dst
        · subst h2
          rw [if_pos rfl, if_pos (by omega)]
          congr 1
          omega
        · rw [if_neg h2, if_neg (by omega)]

/-- What the history copy does when the source starts in the window and the destination exists: it
changes `OUT` only, in the destination range only, where each byte equals the one `dist` before it. -/
theorem copyFromOut_spec (n dist dst : Nat) (s : State) (h1 : 1 ≤ dist) (h2 : dist ≤ dst)
    (hd : dst + n ≤ s.outCap.toNat) (hwf : s.outMem.wf = true) :
    ∃ m, copyFromOut n dist dst s = .go { s with outMem := m } ∧ m.wf = true ∧
      (∀ a, a < dst ∨ dst + n ≤ a → m.read a = s.outMem.read a) ∧
      ∀ i, i < n → m.read (dst + i) = m.read (dst + i - dist) := by
  induction n generalizing dst s with
  | zero => exact ⟨s.outMem, rfl, hwf, fun a _ => rfl, fun i hi => absurd hi (by omega)⟩
  | succ n ih =>
    have hin := readOutBack_ok (s := s) h1 h2
    have hout := writeOut_ok (s := s) (a := dst) (s.outMem.read (dst - dist)) (by omega)
    obtain ⟨m, hm, hmwf, hframe, heq⟩ :=
      ih (dst + 1) { s with outMem := s.outMem.write dst (s.outMem.read (dst - dist)) } (by omega)
        (by simpa using by omega) (Memory.write_wf _ _ hwf)
    refine ⟨m, ?_, hmwf, fun a ha => ?_, fun i hi => ?_⟩
    · simp only [copyFromOut, hin, withAccess_ok, hout, hm]
    · rw [hframe a (by omega), Memory.read_write_other _ hwf (by omega)]
    · cases i with
      | zero =>
        have e1 : m.read dst = s.outMem.read (dst - dist) := by
          rw [hframe dst (by omega), Memory.read_write_same _ _ hwf]
        have e2 : m.read (dst - dist) = s.outMem.read (dst - dist) := by
          rw [hframe (dst - dist) (by omega), Memory.read_write_other _ hwf (by omega)]
        simp [e1, e2]
      | succ i =>
        have := heq i (by omega)
        rwa [show dst + 1 + i = dst + (i + 1) by omega] at this

/-- `LitCopy(t)` where both ranges exist (rule R101). -/
theorem litCopy_spec (t : Nat) (s : State) (hi : s.ip + t ≤ s.inLen.toNat) (ho : s.op + t ≤ s.outCap.toNat)
    (hwf : s.outMem.wf = true) :
    ∃ m, litCopy t s = .go { s with outMem := m, ip := s.ip + t, op := s.op + t } ∧ m.wf = true ∧
      ∀ a, m.read a =
        if s.op ≤ a ∧ a < s.op + t then s.inMem.read (s.ip + (a - s.op)) else s.outMem.read a := by
  obtain ⟨m, hm, hmwf, hread⟩ := copyFromIn_spec t s.ip s.op s hi ho hwf
  refine ⟨m, ?_, hmwf, hread⟩
  simp only [litCopy, if_neg (show ¬ s.inLen.toNat - s.ip < t by omega),
    if_neg (show ¬ s.outCap.toNat - s.op < t by omega), hm, andThen_go]

/-- `LitCopy(t)` with too few input bytes (rules R101, R220). -/
theorem litCopy_inputOverrun (t : Nat) (s : State) (h : s.inLen.toNat - s.ip < t) :
    litCopy t s = .ended (s.raise .inputOverrun) := by
  simp [litCopy, h]

/-- `LitCopy(t)` with enough input but too little output space (rules R101, R221). -/
theorem litCopy_outputOverrun (t : Nat) (s : State) (hi : ¬ s.inLen.toNat - s.ip < t)
    (ho : s.outCap.toNat - s.op < t) : litCopy t s = .ended (s.raise .outputOverrun) := by
  simp [litCopy, hi, ho]

/-- Everything `LitCopy` can do, in any state whose `OUT` is canonical. -/
theorem litCopy_cases (t : Nat) (s : State) (hwf : s.outMem.wf = true) :
    (s.inLen.toNat - s.ip < t ∧ litCopy t s = .ended (s.raise .inputOverrun)) ∨
    (t ≤ s.inLen.toNat - s.ip ∧ s.outCap.toNat - s.op < t ∧ litCopy t s = .ended (s.raise .outputOverrun)) ∨
    (t ≤ s.inLen.toNat - s.ip ∧ t ≤ s.outCap.toNat - s.op ∧
      ∃ m, litCopy t s = .go { s with outMem := m, ip := s.ip + t, op := s.op + t } ∧ m.wf = true ∧
        ∀ a, m.read a =
          if s.op ≤ a ∧ a < s.op + t then s.inMem.read (s.ip + (a - s.op)) else s.outMem.read a) := by
  by_cases hi : s.inLen.toNat - s.ip < t
  · exact .inl ⟨hi, litCopy_inputOverrun t s hi⟩
  · by_cases ho : s.outCap.toNat - s.op < t
    · exact .inr (.inl ⟨by omega, ho, litCopy_outputOverrun t s hi ho⟩)
    · refine .inr (.inr ⟨by omega, by omega, ?_⟩)
      rcases Nat.eq_zero_or_pos t with rfl | ht
      · refine ⟨s.outMem, by simp [litCopy, copyFromIn], hwf, fun a => ?_⟩
        rw [if_neg (by omega)]
      · exact litCopy_spec t s (by omega) (by omega) hwf

/-- `MatchCopy(dist, len)` where the source and the destination exist (rule R110). -/
theorem matchCopy_spec (dist len : Nat) (s : State) (h1 : 1 ≤ dist) (h2 : dist ≤ s.op)
    (ho : s.op + len ≤ s.outCap.toNat) (hwf : s.outMem.wf = true) :
    ∃ m, matchCopy dist len s = .go { s with outMem := m, op := s.op + len } ∧ m.wf = true ∧
      (∀ a, a < s.op ∨ s.op + len ≤ a → m.read a = s.outMem.read a) ∧
      ∀ i, i < len → m.read (s.op + i) = m.read (s.op + i - dist) := by
  obtain ⟨m, hm, hmwf, hframe, heq⟩ := copyFromOut_spec len dist s.op s h1 h2 ho hwf
  refine ⟨m, ?_, hmwf, hframe, heq⟩
  simp only [matchCopy, if_neg (show ¬ s.op < dist by omega),
    if_neg (show ¬ s.outCap.toNat - s.op < len by omega), hm, andThen_go]

/-- `MatchCopy` with a source before `OUT[0]` (rules R110, R222). -/
theorem matchCopy_lookbehindOverrun (dist len : Nat) (s : State) (h : s.op < dist) :
    matchCopy dist len s = .ended (s.raise .lookbehindOverrun) := by
  simp [matchCopy, h]

/-- `MatchCopy` with too little output space (rules R110, R221). -/
theorem matchCopy_outputOverrun (dist len : Nat) (s : State) (h : ¬ s.op < dist)
    (ho : s.outCap.toNat - s.op < len) : matchCopy dist len s = .ended (s.raise .outputOverrun) := by
  simp [matchCopy, h, ho]

/-- Everything `MatchCopy` can do for a distance of at least 1, in any state whose `OUT` is
canonical. -/
theorem matchCopy_cases (dist len : Nat) (s : State) (h1 : 1 ≤ dist) (hwf : s.outMem.wf = true) :
    (s.op < dist ∧ matchCopy dist len s = .ended (s.raise .lookbehindOverrun)) ∨
    (dist ≤ s.op ∧ s.outCap.toNat - s.op < len ∧ matchCopy dist len s = .ended (s.raise .outputOverrun)) ∨
    (dist ≤ s.op ∧ len ≤ s.outCap.toNat - s.op ∧
      ∃ m, matchCopy dist len s = .go { s with outMem := m, op := s.op + len } ∧ m.wf = true ∧
        (∀ a, a < s.op ∨ s.op + len ≤ a → m.read a = s.outMem.read a) ∧
        ∀ i, i < len → m.read (s.op + i) = m.read (s.op + i - dist)) := by
  by_cases h : s.op < dist
  · exact .inl ⟨h, matchCopy_lookbehindOverrun dist len s h⟩
  · by_cases ho : s.outCap.toNat - s.op < len
    · exact .inr (.inl ⟨by omega, ho, matchCopy_outputOverrun dist len s h ho⟩)
    · refine .inr (.inr ⟨by omega, by omega, ?_⟩)
      rcases Nat.eq_zero_or_pos len with rfl | hl
      · exact ⟨s.outMem, by simp [matchCopy, copyFromOut, h], hwf, fun a _ => rfl, fun i hi => absurd hi (by omega)⟩
      · exact matchCopy_spec dist len s h1 (by omega) (by omega) hwf

/-- The equation of the byte-serial copy makes the copy periodic in the bytes before it (rule R60). -/
theorem periodic_of_step {m m0 : Memory} {dst n dist : Nat} (h1 : 1 ≤ dist) (h2 : dist ≤ dst)
    (hframe : ∀ a, a < dst → m.read a = m0.read a)
    (heq : ∀ i, i < n → m.read (dst + i) = m.read (dst + i - dist)) :
    ∀ i, i < n → m.read (dst + i) = m0.read (dst - dist + i % dist) := by
  intro i
  induction i using Nat.strong_induction_on with
  | _ i ih =>
    intro hi
    rw [heq i hi]
    by_cases hlt : i < dist
    · rw [Nat.mod_eq_of_lt hlt, hframe _ (by omega)]
      congr 1
      omega
    · have hrec := ih (i - dist) (by omega) (by omega)
      rw [show dst + i - dist = dst + (i - dist) by omega, hrec, ← Nat.mod_eq_sub_mod (show dist ≤ i by omega)]

/-! ## The bodies of the wire instructions -/

/-- Everything the body of a literal instruction can do. -/
theorem literalRun_cases (t : Nat) (after : St) (s : State) (hwf : s.outMem.wf = true) :
    (s.inLen.toNat - s.ip < t ∧ literalRun t after s = .ended (s.raise .inputOverrun)) ∨
    (t ≤ s.inLen.toNat - s.ip ∧ s.outCap.toNat - s.op < t ∧
      literalRun t after s = .ended (s.raise .outputOverrun)) ∨
    (t ≤ s.inLen.toNat - s.ip ∧ t ≤ s.outCap.toNat - s.op ∧
      ∃ m, literalRun t after s = .go { s with outMem := m, ip := s.ip + t, op := s.op + t, st := after } ∧
        m.wf = true ∧
        ∀ a, m.read a =
          if s.op ≤ a ∧ a < s.op + t then s.inMem.read (s.ip + (a - s.op)) else s.outMem.read a) := by
  rcases litCopy_cases t s hwf with ⟨h, e⟩ | ⟨h, h', e⟩ | ⟨h, h', m, e, hm, hread⟩
  · exact .inl ⟨h, by simp [literalRun, e]⟩
  · exact .inr (.inl ⟨h, h', by simp [literalRun, e]⟩)
  · exact .inr (.inr ⟨h, h', m, by simp [literalRun, e], hm, hread⟩)

/-- Everything the body of a match instruction can do: a fault of the match copy; the match copied and
a fault of the trailing literals; or both copies done (rules R110, R111). -/
theorem matchThenLiterals_cases (dist len sc : Nat) (s : State) (h1 : 1 ≤ dist) (hwf : s.outMem.wf = true) :
    (s.op < dist ∧ matchThenLiterals dist len sc s = .ended (s.raise .lookbehindOverrun)) ∨
    (dist ≤ s.op ∧ s.outCap.toNat - s.op < len ∧
      matchThenLiterals dist len sc s = .ended (s.raise .outputOverrun)) ∨
    (dist ≤ s.op ∧ len ≤ s.outCap.toNat - s.op ∧
      ∃ m, m.wf = true ∧ (∀ a, a < s.op ∨ s.op + len ≤ a → m.read a = s.outMem.read a) ∧
        (∀ i, i < len → m.read (s.op + i) = m.read (s.op + i - dist)) ∧
        ((s.inLen.toNat - s.ip < sc ∧ matchThenLiterals dist len sc s =
            .ended ({ s with outMem := m, op := s.op + len }.raise .inputOverrun)) ∨
         (sc ≤ s.inLen.toNat - s.ip ∧ s.outCap.toNat - (s.op + len) < sc ∧ matchThenLiterals dist len sc s =
            .ended ({ s with outMem := m, op := s.op + len }.raise .outputOverrun)) ∨
         (sc ≤ s.inLen.toNat - s.ip ∧ sc ≤ s.outCap.toNat - (s.op + len) ∧
           ∃ m', m'.wf = true ∧ matchThenLiterals dist len sc s =
             .go { s with outMem := m', ip := s.ip + sc, op := s.op + len + sc, st := stAfter sc } ∧
             ∀ a, m'.read a = if s.op + len ≤ a ∧ a < s.op + len + sc
               then s.inMem.read (s.ip + (a - (s.op + len))) else m.read a))) := by
  rcases matchCopy_cases dist len s h1 hwf with ⟨h, e⟩ | ⟨h, h', e⟩ | ⟨h, h', m, e, hm, hframe, heq⟩
  · exact .inl ⟨h, by simp [matchThenLiterals, e]⟩
  · exact .inr (.inl ⟨h, h', by simp [matchThenLiterals, e]⟩)
  · refine .inr (.inr ⟨h, h', m, hm, hframe, heq, ?_⟩)
    rcases litCopy_cases sc { s with outMem := m, op := s.op + len } hm with
      ⟨g, e'⟩ | ⟨g, g', e'⟩ | ⟨g, g', m', e', hm', hread⟩
    · exact .inl ⟨g, by simp [matchThenLiterals, e, e']⟩
    · exact .inr (.inl ⟨g, g', by simp [matchThenLiterals, e, e']⟩)
    · exact .inr (.inr ⟨g, g', m', hm', by simp [matchThenLiterals, e, e'], hread⟩)

/-- Everything EOS can do (rule R130). -/
theorem endOfStream_cases (s : State) :
    (s.op ≠ s.outCap.toNat ∧ endOfStream s = .ended (s.raise .outputNotConsumed)) ∨
    (s.op = s.outCap.toNat ∧ s.ip ≠ s.inLen.toNat ∧ endOfStream s = .ended (s.raise .inputNotConsumed)) ∨
    (s.op = s.outCap.toNat ∧ s.ip = s.inLen.toNat ∧ endOfStream s = .ended (s.endOk s.op)) := by
  unfold endOfStream
  by_cases h : s.op = s.outCap.toNat
  · by_cases h' : s.ip = s.inLen.toNat
    · exact .inr (.inr ⟨h, h', by simp [h, h']⟩)
    · exact .inr (.inl ⟨h, h', by simp [h, h']⟩)
  · exact .inl ⟨h, by simp [h]⟩

/-- A wire instruction in a DECOMPRESS job is its body. -/
theorem inDecompressJob_decoder (s : State) (body : State → Flow) (h : s.active = .decoder) :
    inDecompressJob s body = (body s).outcome := by
  simp [inDecompressJob, h]

/-- A wire instruction outside a DECOMPRESS job is refused. -/
theorem inDecompressJob_other (s : State) (body : State → Flow) (h : s.active ≠ .decoder) :
    inDecompressJob s body = .refused .noDecompressJob := by
  simp [inDecompressJob, h]

/-! ## Commands -/

theorem whenIdle_idle (s : State) (f : State → State) (h : s.active = .idle) : whenIdle s f = .next (f s) := by
  simp [whenIdle, h]

theorem whenIdle_busy (s : State) (f : State → State) (h : s.active ≠ .idle) : whenIdle s f = .next s := by
  simp [whenIdle, h]

/-- Everything the start of COMPRESS can do (rule R203). -/
theorem beginCompress_cases (s : State) :
    (s.initOk = false ∧ s.beginCompress = s.startEncoder.raise .error) ∨
    (s.initOk = true ∧ s.outCap.toNat < worstCase s.inLen.toNat ∧
      s.beginCompress = s.startEncoder.raise .outOfMemory) ∨
    (s.initOk = true ∧ worstCase s.inLen.toNat ≤ s.outCap.toNat ∧ s.beginCompress = s.startEncoder) := by
  unfold State.beginCompress
  cases hi : s.initOk
  · simp
  · by_cases h : s.outCap.toNat < worstCase s.inLen.toNat
    · simp [h]
    · simp [h, Nat.le_of_not_lt h]

/-- Everything the start of DECOMPRESS can do (rule R204). -/
theorem beginDecompress_cases (s : State) :
    (s.initOk = false ∧ s.beginDecompress = s.startDecoder.raise .error) ∨
    (s.initOk = true ∧ s.beginDecompress = s.startDecoder) := by
  unfold State.beginDecompress
  cases hi : s.initOk <;> simp

/-! ## The status word -/

theorem kindCode_lt (k : Kind) : kindCode k < 256 := by
  cases k <;> decide

/-- The number the `STATUS` word is, at a width that has room for its fields (rule R23; log 1). -/
theorem status_toNat (s : State) (h : 16 ≤ s.posBits) :
    s.status.toNat = s.busy.toNat + 2 * s.done.toNat + 4 * s.initOk.toNat + 256 * kindCode s.code := by
  have hk := kindCode_lt s.code
  have h1 := Bool.toNat_le s.busy
  have h2 := Bool.toNat_le s.done
  have h3 := Bool.toNat_le s.initOk
  have hw : 2 ^ 16 ≤ 2 ^ s.posBits := Nat.pow_le_pow_right (by omega) h
  rw [State.status, BitVec.toNat_ofNat, Nat.mod_eq_of_lt (by omega)]

/-- The number the `CFG` word is, at a width that has room for its fields (rule R28; log 1). -/
theorem cfgWord_toNat {w : Nat} (h : 16 ≤ w) (h' : w < 256) : (cfgWord w).toNat = w + 256 * 14 := by
  have hw : 2 ^ 16 ≤ 2 ^ w := Nat.pow_le_pow_right (by omega) h
  rw [cfgWord, BitVec.toNat_ofNat, Config.hashBits, Nat.mod_eq_of_lt (by omega)]

/-! ## Hardware reset -/

theorem abandonBytes_wf (k n : Nat) {m : Memory} (h : m.wf = true) : (abandonBytes k n m).wf = true := by
  induction n generalizing m with
  | zero => exact h
  | succ n ih => exact ih (Memory.write_wf _ _ h)

/-- A hardware reset leaves every `OUT` byte the abandoned job had not written (rule R245). -/
theorem abandonBytes_read (k n a : Nat) {m : Memory} (h : m.wf = true) (ha : n ≤ a) :
    (abandonBytes k n m).read a = m.read a := by
  induction n generalizing m with
  | zero => rfl
  | succ n ih =>
    rw [abandonBytes, ih (Memory.write_wf _ _ h) (by omega), Memory.read_write_other _ h (by omega)]

end Sys2Proof.Laws
end

