-- ==== Sys2Proof/Laws/Encoder.lean ====
section
/-!
SUPPORT. One lemma per shared operation of the encoder engine that says everything it can do: hash and
extension (rules R161, R164), the output write and the literal flush (rules R185, R186, R188), the
match, the re-index loop, and the two shapes of a scan step (rules R166, R167).
-/

namespace Sys2Proof.Laws

open Sys2Proof.Machine

/-! ## Match finder -/

/-- A hash is a table index (rule R161). -/
theorem hashWindow_lt (b0 b1 b2 b3 : Byte) : hashWindow b0 b1 b2 b3 < 2 ^ Config.hashBits := by
  unfold hashWindow Config.hashBits
  have := Nat.mod_lt (Config.hashMult * (b0.toNat + b1.toNat * 2 ^ 8 + b2.toNat * 2 ^ 16 + b3.toNat * 2 ^ 24))
    (show 0 < 2 ^ 32 by norm_num)
  norm_num at this ⊢
  omega

/-- `Hash4(p)` where the whole window lies in the input (rule R161). -/
theorem hash4_ok {s : State} {p : Nat} (h : p + 4 ≤ s.inLen.toNat) :
    s.hash4 p = .ok (hashWindow (s.inMem.read p) (s.inMem.read (p + 1)) (s.inMem.read (p + 2)) (s.inMem.read (p + 3))) := by
  have h0 : s.readIn p = .ok (s.inMem.read p) := readIn_ok (by omega)
  have h1 : s.readIn (p + 1) = .ok (s.inMem.read (p + 1)) := readIn_ok (by omega)
  have h2 : s.readIn (p + 2) = .ok (s.inMem.read (p + 2)) := readIn_ok (by omega)
  have h3 : s.readIn (p + 3) = .ok (s.inMem.read (p + 3)) := readIn_ok (by omega)
  simp only [State.hash4, h0, h1, h2, h3]
  rfl

/-- The extension loop over `n` bytes that exist, from a source behind the position: it answers a
length, every byte before it agrees, and it stops at the end or at a byte that differs (rule R164). -/
theorem matchLen_spec (s : State) (n m p : Nat) (hp : p + n ≤ s.inLen.toNat) (hm : m ≤ p) :
    ∃ k, s.matchLen n m p = .ok k ∧ k ≤ n ∧ (∀ i, i < k → s.inMem.read (m + i) = s.inMem.read (p + i)) ∧
      (k = n ∨ s.inMem.read (m + k) ≠ s.inMem.read (p + k)) := by
  induction n generalizing m p with
  | zero => exact ⟨0, rfl, le_rfl, fun i hi => absurd hi (by omega), .inl rfl⟩
  | succ n ih =>
    have h1 : s.readIn m = .ok (s.inMem.read m) := readIn_ok (by omega)
    have h2 : s.readIn p = .ok (s.inMem.read p) := readIn_ok (by omega)
    by_cases he : s.inMem.read m = s.inMem.read p
    · obtain ⟨k, hk, hle, hag, hstop⟩ := ih (m + 1) (p + 1) (by omega) (by omega)
      refine ⟨k + 1, ?_, by omega, fun i hi => ?_, ?_⟩
      · simp only [State.matchLen, h1, h2, bind, Except.bind, he, if_true, hk]
        rfl
      · cases i with
        | zero => simpa using he
        | succ i =>
          have := hag i (by omega)
          rwa [show m + 1 + i = m + (i + 1) by omega, show p + 1 + i = p + (i + 1) by omega] at this
      · rcases hstop with h | h
        · exact .inl (by omega)
        · right
          rwa [show m + 1 + k = m + (k + 1) by omega, show p + 1 + k = p + (k + 1) by omega] at h
    · refine ⟨0, ?_, by omega, fun i hi => absurd hi (by omega), .inr (by simpa using he)⟩
      simp only [State.matchLen, h1, h2, bind, Except.bind, he, if_false]
      rfl

/-- Inserting one more position in front: the table before the rest is the one with it put in. -/
theorem tableAfter_step {s : State} {t0 t : HashTable} {q n v : Nat} (hw : q + 4 ≤ s.inLen.toNat)
    (hh : s.hash4 q = .ok v) (h : s.tableAfter (t0.put v q) t (q + 1) n) : s.tableAfter t0 t q (n + 1) := by
  intro g
  rcases h g with ⟨p, hp, hidx, hmax⟩ | ⟨hno, hg⟩
  · refine .inl ⟨p, hp, ⟨by have := hidx.1; omega, by have := hidx.2.1; omega, hidx.2.2⟩, fun q' hq' => ?_⟩
    rcases Nat.eq_or_lt_of_le hq'.1 with he | hlt
    · have := hidx.1
      omega
    · exact hmax q' ⟨hlt, by have := hq'.2.1; omega, hq'.2.2⟩
  · rw [HashTable.get_put] at hg
    have hrest : ∀ q', s.indexes q (n + 1) q' g → q' = q := by
      intro q' hq'
      by_contra hne
      exact hno q' ⟨by have := hq'.1; omega, by have := hq'.2.1; omega, hq'.2.2⟩
    by_cases he : g = v
    · rw [if_pos he] at hg
      exact .inl ⟨q, hg, ⟨le_rfl, by omega, hw, by rw [hh, he]⟩, fun q' hq' => (hrest q' hq').le⟩
    · rw [if_neg he] at hg
      refine .inr ⟨fun q' hq' => he ?_, hg⟩
      have h1 := hq'.2.2.2
      rw [hrest q' hq', hh] at h1
      exact (Except.ok.inj h1).symm

/-- The re-index loop changes the table only: it inserts the positions that still have a whole window,
in ascending order (rule R167). -/
theorem reindex_spec (n q : Nat) (s : State) :
    ∃ t, reindex n q s = .go { s with ht := t } ∧ (s.ht.wf = true → t.wf = true) ∧ s.tableAfter s.ht t q n := by
  induction n generalizing q s with
  | zero => exact ⟨s.ht, rfl, id, fun g => .inr ⟨fun q' hq' => by have := hq'.1; have := hq'.2.1; omega, rfl⟩⟩
  | succ n ih =>
    by_cases hw : q + 4 ≤ s.inLen.toNat
    · have hh := hash4_ok hw
      set v := hashWindow (s.inMem.read q) (s.inMem.read (q + 1)) (s.inMem.read (q + 2)) (s.inMem.read (q + 3)) with hv
      obtain ⟨t, ht, hwf, htab⟩ := ih (q + 1) { s with ht := s.ht.put v q }
      exact ⟨t, by simp only [reindex, if_pos hw, hh, withAccess_ok, ht],
        fun h => hwf (HashTable.put_wf q h (hv ▸ hashWindow_lt _ _ _ _)), tableAfter_step hw hh htab⟩
    · obtain ⟨t, ht, hwf, htab⟩ := ih (q + 1) s
      refine ⟨t, by simp only [reindex, if_neg hw, ht], hwf, fun g => .inr ⟨fun q' hq' => ?_, ?_⟩⟩
      · have := hq'.1
        have := hq'.2.2.1
        omega
      · rcases htab g with ⟨p, -, hidx, -⟩ | ⟨-, hg⟩
        · have := hidx.1
          have := hidx.2.2.1
          omega
        · exact hg

/-- An entry of the table after an insertion of positions below a bound is below it, if those before
were. -/
theorem tableAfter_lt {s : State} {t0 t : HashTable} {p n : Nat} (h : s.tableAfter t0 t p n)
    (h0 : ∀ g q, t0.get g = some q → q < p + n) : ∀ g q, t.get g = some q → q < p + n := by
  intro g q hq
  rcases h g with ⟨q', hq', hidx, -⟩ | ⟨-, hg⟩
  · rw [hq] at hq'
    exact (Option.some.inj hq') ▸ hidx.2.1
  · exact h0 g q (hg ▸ hq)

/-! ## Output -/

theorem emitByte_go {s : State} (v : Byte) (h : s.eop < s.outCap.toNat) :
    emitByte v s = .go { s with outMem := s.outMem.write s.eop v, eop := s.eop + 1 } := by
  simp [emitByte, Nat.not_le.mpr h, writeOut_ok v h]

/-- `EmitByte` past the capacity (rules R188, R229). -/
theorem emitByte_internalError {s : State} (v : Byte) (h : s.outCap.toNat ≤ s.eop) :
    emitByte v s = .ended (s.raise .internalError) := by
  simp [emitByte, h]

/-- Emitting bytes that fit: the stream grows by them and nothing else of `OUT` changes. -/
theorem emitBytes_spec (bs : List Byte) (s : State) (h : s.eop + bs.length ≤ s.outCap.toNat)
    (hwf : s.outMem.wf = true) :
    ∃ m, emitBytes bs s = .go { s with outMem := m, eop := s.eop + bs.length } ∧ m.wf = true ∧
      m.slice s.eop bs.length = bs ∧
      ∀ a, a < s.eop ∨ s.eop + bs.length ≤ a → m.read a = s.outMem.read a := by
  induction bs generalizing s with
  | nil => exact ⟨s.outMem, rfl, hwf, rfl, fun a _ => rfl⟩
  | cons b bs ih =>
    simp only [List.length_cons] at h
    have h0 := emitByte_go b (s := s) (by omega)
    obtain ⟨m, hm, hmwf, hsl, hframe⟩ :=
      ih { s with outMem := s.outMem.write s.eop b, eop := s.eop + 1 } (by simpa using by omega)
        (Memory.write_wf _ _ hwf)
    simp only at hsl hframe hm
    refine ⟨m, ?_, hmwf, ?_, fun a ha => ?_⟩
    · simp only [emitBytes, h0, andThen_go, hm, List.length_cons]
      congr 2
      omega
    · have hb : m.read s.eop = b := by
        rw [hframe s.eop (by omega), Memory.read_write_same _ _ hwf]
      simp only [List.length_cons, Memory.slice, hb, hsl]
    · simp only [List.length_cons] at ha
      rw [hframe a (by omega), Memory.read_write_other _ hwf (by omega)]

/-- Emitting bytes one list after another is emitting their concatenation. -/
theorem emitBytes_append (bs cs : List Byte) (s : State) :
    emitBytes (bs ++ cs) s = (emitBytes bs s).andThen (emitBytes cs) := by
  induction bs generalizing s with
  | nil => rfl
  | cons b bs ih =>
    simp only [List.cons_append, emitBytes, andThen_assoc]
    congr 1
    funext s'
    exact ih s'

/-- Emitting a run of input bytes that exist is emitting their slice (rule R185). -/
theorem emitFromIn_eq (t start : Nat) (s : State) (h : start + t ≤ s.inLen.toNat) :
    emitFromIn t start s = emitBytes (s.inMem.slice start t) s := by
  induction t generalizing start s with
  | zero => rfl
  | succ t ih =>
    have h0 : s.readIn start = .ok (s.inMem.read start) := readIn_ok (by omega)
    simp only [emitFromIn, h0, withAccess_ok, Memory.slice, emitBytes]
    by_cases hc : s.outCap.toNat ≤ s.eop
    · simp [emitByte_internalError _ hc]
    · rw [emitByte_go _ (by omega)]
      simp only [andThen_go]
      exact ih (start + 1) _ (by simpa using by omega)

/-- The two ways of writing `EmitExt` (rules R77, R183) agree. -/
theorem extensionLoop_eq (fuel x : Nat) (h1 : 1 ≤ x) (h : x ≤ fuel * 255 + 255) :
    extensionLoop fuel x = extBytes x := by
  induction fuel generalizing x with
  | zero =>
    have hx : (x - 1) / 255 = 0 := by omega
    rw [extensionLoop, extBytes, hx, Nat.mul_zero, Nat.sub_zero, List.replicate_zero, List.nil_append]
    rfl
  | succ fuel ih =>
    by_cases hx : 255 < x
    · have hd : (x - 1) / 255 = (x - 255 - 1) / 255 + 1 := by omega
      have he : x - 255 - 255 * ((x - 255 - 1) / 255) = x - 255 * ((x - 255 - 1) / 255 + 1) := by omega
      rw [extensionLoop, if_pos hx, ih (x - 255) (by omega) (by omega), extBytes, extBytes, hd, he,
        List.replicate_succ, List.cons_append]
    · have hx' : (x - 1) / 255 = 0 := by omega
      rw [extensionLoop, if_neg hx, extBytes, hx', Nat.mul_zero, Nat.sub_zero, List.replicate_zero, List.nil_append]
      rfl

theorem emitExt_eq (x : Nat) (h : 1 ≤ x) : emitExt x = extBytes x :=
  extensionLoop_eq x x h (by omega)

/-- The back-patch where the stream holds at least two bytes (rule R186): one byte changes. -/
theorem backPatchS_spec (t : Nat) (s : State) (h2 : 2 ≤ s.eop) (hc : s.eop ≤ s.outCap.toNat) :
    backPatchS t s =
      .go { s with outMem := s.outMem.write (s.eop - 2) (s.outMem.read (s.eop - 2) ||| byteOf t) } := by
  have hr := readOutBack_ok (s := s) (back := s.eop) (dist := 2) (by omega) h2
  have hw := writeOut_ok (s := s) (a := s.eop - 2) (s.outMem.read (s.eop - 2) ||| byteOf t) (by omega)
  simp only [backPatchS, hr, withAccess_ok]
  exact congrArg (fun r => withAccess r Flow.go) hw

/-- The literal flush where the run exists and fits (rules R185, R186): the stream grows by the header
and the literal bytes, and behind it only the `S` field can change. -/
theorem flushLiterals_spec (start t : Nat) (s : State) (hin : start + t ≤ s.inLen.toNat)
    (hop : s.eop = 0 ∨ 2 ≤ s.eop) (hcap : s.eop + (runHeader (s.eop == 0) t).length + t ≤ s.outCap.toNat)
    (hwf : s.outMem.wf = true) :
    ∃ m, flushLiterals start t s =
        .go { s with outMem := m, eop := s.eop + (runHeader (s.eop == 0) t).length + t } ∧ m.wf = true ∧
      m.slice s.eop ((runHeader (s.eop == 0) t).length + t) =
        runHeader (s.eop == 0) t ++ s.inMem.slice start t ∧
      (∀ a, a < s.eop → m.read a = patchedByte s.eop t a (s.outMem.read a)) ∧
      ∀ a, s.eop + (runHeader (s.eop == 0) t).length + t ≤ a → m.read a = s.outMem.read a := by
  rcases Nat.eq_zero_or_pos t with rfl | ht
  · exact ⟨s.outMem, by simp [flushLiterals, runHeader], hwf, by simp [runHeader, Memory.slice],
      fun a _ => by simp [patchedByte], fun a _ => rfl⟩
  by_cases hpatch : s.eop ≠ 0 ∧ t ≤ 3
  · -- the count rides in the preceding match
    have h0 : (s.eop == 0) = false := by simpa using hpatch.1
    have hh : runHeader (s.eop == 0) t = [] := by simp [runHeader, h0, hpatch.2]
    rw [hh] at hcap ⊢
    simp only [List.length_nil, Nat.add_zero, Nat.zero_add, List.nil_append] at hcap ⊢
    have hbp := backPatchS_spec t s (by omega) (by omega)
    set m1 := s.outMem.write (s.eop - 2) (s.outMem.read (s.eop - 2) ||| byteOf t) with hm1
    have hm1wf : m1.wf = true := Memory.write_wf _ _ hwf
    obtain ⟨m, hm, hmwf, hsl, hframe⟩ :=
      emitBytes_spec (s.inMem.slice start t) { s with outMem := m1 } (by simpa using hcap) hm1wf
    simp only [Memory.length_slice] at hm hsl hframe
    refine ⟨m, ?_, hmwf, hsl, fun a ha => ?_, fun a ha => ?_⟩
    · have hlit : literalHeader t s = .go { s with outMem := m1 } := by
        simp only [literalHeader, Config.litfMax, Config.sMax]
        rw [if_neg (by omega), if_pos hpatch, hbp]
      rw [flushLiterals, if_neg (by omega), hlit, andThen_go, emitFromIn_eq _ _ _ (by simpa using hin)]
      exact hm
    · rw [hframe a (by omega), hm1, Memory.read_write _ _ _ hwf]
      by_cases he : a = s.eop - 2
      · rw [if_pos he, patchedByte, if_pos ⟨by omega, ht, hpatch.2, by omega⟩, he]
      · rw [if_neg he, patchedByte, if_neg (by omega)]
    · rw [hframe a (by omega), hm1, Memory.read_write_other _ hwf (by omega)]
  · -- a header of its own
    have hlit : literalHeader t s = emitBytes (runHeader (s.eop == 0) t) s := by
      have hone : ∀ v, emitBytes [v] s = emitByte v s := by
        intro v
        simp only [emitBytes]
        cases emitByte v s <;> rfl
      by_cases h0 : s.eop = 0
      · by_cases h238 : t ≤ 238
        · simp [literalHeader, Config.litfMax, h0, h238, runHeader, show ¬ t = 0 by omega, hone, emitted, byteOf]
        · simp [literalHeader, Config.litfMax, Config.sMax, Config.litrInlineMax, h0, h238, runHeader,
            show ¬ t = 0 by omega, show ¬ t ≤ 18 by omega, emitExt_eq (t - 18) (by omega)]
      · have h3 : ¬ t ≤ 3 := fun h => hpatch ⟨h0, h⟩
        by_cases h18 : t ≤ 18
        · simp [literalHeader, Config.litfMax, Config.sMax, Config.litrInlineMax, h0, h3, h18, runHeader,
            show ¬ t = 0 by omega, hone, emitted, byteOf]
        · simp [literalHeader, Config.litfMax, Config.sMax, Config.litrInlineMax, h0, h3, h18, runHeader,
            show ¬ t = 0 by omega, emitExt_eq (t - 18) (by omega)]
    have hcap' : s.eop + (runHeader (s.eop == 0) t ++ s.inMem.slice start t).length ≤ s.outCap.toNat := by
      simpa [Nat.add_assoc] using hcap
    obtain ⟨m, hm, hmwf, hsl, hframe⟩ :=
      emitBytes_spec (runHeader (s.eop == 0) t ++ s.inMem.slice start t) s hcap' hwf
    simp only [List.length_append, Memory.length_slice] at hm hsl hframe
    refine ⟨m, ?_, hmwf, hsl, fun a ha => ?_, fun a ha => hframe a (by omega)⟩
    · rw [flushLiterals, if_neg (by omega), hlit]
      rw [emitBytes_append] at hm
      obtain ⟨m1, hm1, -, -, -⟩ :=
        emitBytes_spec (runHeader (s.eop == 0) t) s (by omega) hwf
      rw [hm1, andThen_go] at hm ⊢
      rw [emitFromIn_eq _ _ _ (by simpa using hin)]
      simpa [Nat.add_assoc] using hm
    · rw [hframe a (by omega), patchedByte, if_neg (by omega)]

/-- A step with an accepted match, where it fits (rule R167): the literals are flushed, the match is
emitted, the table is re-indexed, the cursors move past the match. -/
theorem acceptMatch_spec (dist len : Nat) (s : State) (hlen : s.eip + len ≤ s.inLen.toNat) (hii : s.eii ≤ s.eip)
    (hop : s.eop = 0 ∨ 2 ≤ s.eop)
    (hcap : s.eop + (runHeader (s.eop == 0) (s.eip - s.eii)).length + (s.eip - s.eii)
      + (emitMatch dist len).length ≤ s.outCap.toNat) (hwf : s.outMem.wf = true) :
    ∃ m t, acceptMatch dist len s = .go { s with
        outMem := m, ht := t, eip := s.eip + len, eii := s.eip + len,
        eop := s.eop + (runHeader (s.eop == 0) (s.eip - s.eii)).length + (s.eip - s.eii) + (emitMatch dist len).length } ∧
      m.wf = true ∧
      m.slice s.eop ((runHeader (s.eop == 0) (s.eip - s.eii)).length + (s.eip - s.eii) + (emitMatch dist len).length) =
        runHeader (s.eop == 0) (s.eip - s.eii) ++ s.inMem.slice s.eii (s.eip - s.eii) ++ emitMatch dist len ∧
      (∀ a, a < s.eop → m.read a = patchedByte s.eop (s.eip - s.eii) a (s.outMem.read a)) ∧
      (∀ a, s.eop + (runHeader (s.eop == 0) (s.eip - s.eii)).length + (s.eip - s.eii) + (emitMatch dist len).length ≤ a →
        m.read a = s.outMem.read a) ∧
      (s.ht.wf = true → t.wf = true) ∧ s.tableAfter s.ht t (s.eip + 1) (len - 1) := by
  obtain ⟨m1, hm1, hm1wf, hsl1, hfr1, hup1⟩ :=
    flushLiterals_spec s.eii (s.eip - s.eii) s (by omega) hop (by omega) hwf
  set k := (runHeader (s.eop == 0) (s.eip - s.eii)).length + (s.eip - s.eii) with hk
  obtain ⟨m2, hm2, hm2wf, hsl2, hfr2⟩ :=
    emitBytes_spec (emitMatch dist len) { s with outMem := m1, eop := s.eop + (runHeader (s.eop == 0) (s.eip - s.eii)).length + (s.eip - s.eii) }
      (by simpa using hcap) hm1wf
  simp only at hm2 hsl2 hfr2
  obtain ⟨t, ht, htwf, htab⟩ := reindex_spec (len - 1) (s.eip + 1)
    { s with outMem := m2, eop := s.eop + (runHeader (s.eop == 0) (s.eip - s.eii)).length + (s.eip - s.eii) + (emitMatch dist len).length }
  refine ⟨m2, t, ?_, hm2wf, ?_, fun a ha => ?_, fun a ha => ?_, htwf, htab⟩
  · simp only [acceptMatch, hm1, andThen_go, hm2, ht]
  · rw [Memory.slice_add, ← hsl1]
    congr 1
    · refine Memory.slice_congr fun i hi => hfr2 _ (.inl ?_)
      omega
    · rw [show s.eop + k = s.eop + (runHeader (s.eop == 0) (s.eip - s.eii)).length + (s.eip - s.eii) by omega]
      exact hsl2
  · rw [hfr2 a (.inl (by omega)), hfr1 a ha]
  · rw [hfr2 a (.inr (by omega)), hup1 a (by omega)]

/-- Everything a scan step can do where a whole window remains and the table holds earlier positions
only: no usable candidate, a candidate not accepted, or an accepted match (rules R162 to R167). -/
theorem scanStep_cases (s : State) (hw : s.eip + 4 ≤ s.inLen.toNat)
    (htab : ∀ h p, s.ht.get h = some p → p < s.eip) :
    ∃ h, s.hash4 s.eip = .ok h ∧ h < 2 ^ Config.hashBits ∧
      ((usable s.eip (s.ht.get h) = none ∧ scanStep s = passByte { s with ht := s.ht.put h s.eip }) ∨
       ∃ m len, s.ht.get h = some m ∧ m < s.eip ∧ s.eip - m ≤ Config.maxDist ∧
        s.matchLen (s.inLen.toNat - s.eip) m s.eip = .ok len ∧ len ≤ s.inLen.toNat - s.eip ∧
        (∀ i, i < len → s.inMem.read (m + i) = s.inMem.read (s.eip + i)) ∧
        ((accepts (s.eip - m) len = false ∧ scanStep s = passByte { s with ht := s.ht.put h s.eip }) ∨
         (accepts (s.eip - m) len = true ∧
           scanStep s = acceptMatch (s.eip - m) len { s with ht := s.ht.put h s.eip }))) := by
  have hh := hash4_ok hw
  set v := hashWindow (s.inMem.read s.eip) (s.inMem.read (s.eip + 1)) (s.inMem.read (s.eip + 2))
    (s.inMem.read (s.eip + 3)) with hv
  refine ⟨v, hh, hv ▸ hashWindow_lt _ _ _ _, ?_⟩
  rcases hu : usable s.eip (s.ht.get v) with _ | m
  · exact .inl ⟨rfl, by simp [scanStep, hh, hu]⟩
  · right
    have hm : s.ht.get v = some m ∧ s.eip - m ≤ Config.maxDist := by
      cases hg : s.ht.get v with
      | none => simp [usable, hg] at hu
      | some m' =>
        by_cases hd : s.eip - m' ≤ Config.maxDist
        · simp only [usable, hg, hd, if_true, Option.some.injEq] at hu
          exact ⟨by rw [hu], hu ▸ hd⟩
        · simp [usable, hg, hd] at hu
    have hlt := htab v m hm.1
    have hlt' := s.inLen.isLt
    obtain ⟨len, hlen, hle, hag, -⟩ :=
      matchLen_spec s (s.inLen.toNat - s.eip) m s.eip (by omega) (by omega)
    have hlen' : ({ s with ht := s.ht.put v s.eip } : State).matchLen (s.inLen.toNat - s.eip) m s.eip = .ok len := by
      obtain ⟨len', hl', -⟩ := matchLen_spec { s with ht := s.ht.put v s.eip } (s.inLen.toNat - s.eip) m s.eip
        (by simpa using by omega) (by omega)
      have : ∀ n m p, ({ s with ht := s.ht.put v s.eip } : State).matchLen n m p = s.matchLen n m p := by
        intro n
        induction n with
        | zero => intros; rfl
        | succ n ih => intro m p; simp only [State.matchLen, ih]; rfl
      rw [this, hlen]
    refine ⟨m, len, hm.1, hlt, hm.2, hlen, hle, hag, ?_⟩
    cases ha : accepts (s.eip - m) len
    · exact .inl ⟨rfl, by simp [scanStep, hh, hu, hlen', ha]⟩
    · exact .inr ⟨rfl, by simp [scanStep, hh, hu, hlen', ha]⟩

/-- The tail step, where the stream fits (rules R187, R189): the pending literals and EOS are written,
then the result is decided. -/
theorem tailStep_spec (s : State) (hii : s.eii ≤ s.inLen.toNat) (hop : s.eop = 0 ∨ 2 ≤ s.eop)
    (hcap : s.eop + (runHeader (s.eop == 0) (s.inLen.toNat - s.eii)).length + (s.inLen.toNat - s.eii) + 3
      ≤ s.outCap.toNat) (hwf : s.outMem.wf = true) :
    ∃ m, tailStep s = finishCompress { s with
        outMem := m, eop := s.eop + (runHeader (s.eop == 0) (s.inLen.toNat - s.eii)).length + (s.inLen.toNat - s.eii) + 3 } ∧
      m.wf = true ∧
      m.slice s.eop ((runHeader (s.eop == 0) (s.inLen.toNat - s.eii)).length + (s.inLen.toNat - s.eii) + 3) =
        runHeader (s.eop == 0) (s.inLen.toNat - s.eii) ++ s.inMem.slice s.eii (s.inLen.toNat - s.eii) ++ eosBytes ∧
      (∀ a, a < s.eop → m.read a = patchedByte s.eop (s.inLen.toNat - s.eii) a (s.outMem.read a)) ∧
      ∀ a, s.eop + (runHeader (s.eop == 0) (s.inLen.toNat - s.eii)).length + (s.inLen.toNat - s.eii) + 3 ≤ a →
        m.read a = s.outMem.read a := by
  obtain ⟨m1, hm1, hm1wf, hsl1, hfr1, hup1⟩ :=
    flushLiterals_spec s.eii (s.inLen.toNat - s.eii) s (by omega) hop (by omega) hwf
  set k := (runHeader (s.eop == 0) (s.inLen.toNat - s.eii)).length + (s.inLen.toNat - s.eii) with hk
  obtain ⟨m2, hm2, hm2wf, hsl2, hfr2⟩ :=
    emitBytes_spec eosBytes { s with outMem := m1, eop := s.eop + (runHeader (s.eop == 0) (s.inLen.toNat - s.eii)).length + (s.inLen.toNat - s.eii) }
      (by simpa [eosBytes] using hcap) hm1wf
  simp only [show eosBytes.length = 3 from rfl] at hm2 hsl2 hfr2
  refine ⟨m2, ?_, hm2wf, ?_, fun a ha => ?_, fun a ha => ?_⟩
  · simp only [tailStep, hm1, andThen_go, hm2]
  · rw [Memory.slice_add, ← hsl1]
    congr 1
    · refine Memory.slice_congr fun i hi => hfr2 _ (.inl ?_)
      omega
    · rw [show s.eop + k = s.eop + (runHeader (s.eop == 0) (s.inLen.toNat - s.eii)).length + (s.inLen.toNat - s.eii) by omega]
      exact hsl2
  · rw [hfr2 a (.inl (by omega)), hfr1 a ha]
  · rw [hfr2 a (.inr (by omega)), hup1 a (by omega)]

end Sys2Proof.Laws
end

