-- ==== Sys2Proof/Laws/Step.lean ====
section
/-!
SUPPORT. What one step of each engine can do, said once: the decoder step (rules R140 to R145) and the
encoder step (rules R166 to R171, R187 to R190), each from a state in the middle of its job; and what no
engine ever changes.
-/

namespace Sys2Proof.Laws

open Sys2Proof.Machine

/-! ## Who moves -/

/-- With no pending move of the host the engine moves. -/
theorem step_engine {s : State} (h : s.inputs = []) : step s = engineStep s := by
  simp [step, wholeStep, h]

/-- The host's oldest pending move comes first. -/
theorem step_host {s : State} {a : HostAction s.posBits} {rest : List (HostAction s.posBits)}
    (h : s.inputs = a :: rest) : step s = hostMove s a rest := by
  simp [step, wholeStep, h]

/-- The host's write of a command value to `CMD` of an idle CORE runs the command (rule R200). -/
theorem step_commandWrite {s : State} {v : Word s.posBits} {i : Instr} {rest : List (HostAction s.posBits)}
    (h : s.active = .idle) (hin : s.inputs = .writeReg 0 v :: rest) (hv : decodeCommand v = some i) :
    step s = exec i { s with inputs := rest } := by
  rw [step_host hin]
  simp only [hostMove, registerWrite, if_true, commandWrite]
  rw [if_neg (by simp [State.busy, h]), hv]

theorem engineStep_decoder {s : State} (h : s.active = .decoder) : engineStep s = decoderStep s := by
  simp [engineStep, h]

theorem engineStep_encoder {s : State} (h : s.active = .encoder) : engineStep s = encoderStep s := by
  simp [engineStep, h]

/-! ## The decoder step -/

/-- A length field that is read leaves no more bytes than it was given. -/
theorem lengthField_length {inl bias base len : Nat} {bytes rest : List Byte}
    (h : lengthField inl bias base bytes = some (len, rest)) : rest.length ≤ bytes.length := by
  by_cases h0 : inl = 0
  · rw [lengthField, if_pos h0] at h
    obtain ⟨⟨v, r⟩, hv, hr⟩ := Option.map_eq_some_iff.mp h
    obtain ⟨-, hbytes⟩ := extLen_eq_some hv
    rw [hbytes, List.length_append, ← (Prod.mk.inj hr).2]
    exact Nat.le_add_left _ _
  · rw [lengthField, if_neg h0] at h
    exact ((Prod.mk.inj (Option.some.inj h)).2 ▸ le_rfl)

/-- What a decoded instruction executes: a literal run, a match with a distance of at least 1, or EOS. -/
def hasBody (i : Instr) : Prop :=
  (∃ t after, ∀ s : State, s.active = .decoder → exec i s = (literalRun t after s).outcome) ∨
  (∃ dist len sc, 1 ≤ dist ∧ ∀ s : State, s.active = .decoder → exec i s = (matchThenLiterals dist len sc s).outcome) ∨
  ∀ s : State, s.active = .decoder → exec i s = (endOfStream s).outcome

theorem decodeShort_spec {mk : Nat → Instr} {bytes rest : List Byte} {i : Instr}
    (h : decodeShort mk bytes = some (i, rest)) : rest.length < bytes.length ∧ ∃ n, i = mk n := by
  cases bytes with
  | nil => simp [decodeShort] at h
  | cons b bs =>
    simp only [decodeShort, Option.some.injEq, Prod.mk.injEq] at h
    exact ⟨h.2 ▸ Nat.lt_succ_self _, b.toNat, h.1.symm⟩

theorem decodeWide_spec {mk : Byte → Byte → Instr} {bytes rest : List Byte} {i : Instr}
    (h : decodeWide mk bytes = some (i, rest)) : rest.length < bytes.length ∧ ∃ b0 b1, i = mk b0 b1 := by
  match bytes, h with
  | [], h => simp [decodeWide] at h
  | [_], h => simp [decodeWide] at h
  | b0 :: b1 :: bs, h =>
    simp only [decodeWide, Option.some.injEq, Prod.mk.injEq] at h
    refine ⟨?_, b0, b1, h.1.symm⟩
    rw [← h.2, List.length_cons, List.length_cons]
    omega

/-- Decoding consumes at least the tag, and what it reads has a body. -/
theorem decode_ok {st : St} {bytes rest : List Byte} {i : Instr} (h : decode st bytes = .ok (i, rest)) :
    rest.length < bytes.length ∧ hasBody i := by
  cases bytes with
  | nil => simp [decode] at h
  | cons tag bs =>
    rw [decode_cons] at h
    have h' : decodeOperands (dispatchForm st tag) tag bs = some (i, rest) := by
      cases hd : decodeOperands (dispatchForm st tag) tag bs with
      | none => simp [hd] at h
      | some r => simpa [hd] using h
    have hlit : ∀ t after j, (∀ s, exec j s = inDecompressJob s (literalRun t after)) → hasBody j :=
      fun t after j hj => .inl ⟨t, after, fun s hs => by rw [hj, inDecompressJob_decoder _ _ hs]⟩
    have hmatch : ∀ dist len sc j, 1 ≤ dist → (∀ s, exec j s = inDecompressJob s (matchThenLiterals dist len sc)) →
        hasBody j :=
      fun dist len sc j h1 hj => .inr (.inl ⟨dist, len, sc, h1, fun s hs => by rw [hj, inDecompressJob_decoder _ _ hs]⟩)
    rw [List.length_cons]
    cases hf : dispatchForm st tag <;> rw [hf] at h' <;> simp only [decodeOperands] at h'
    case litf =>
      obtain ⟨rfl, rfl⟩ := Prod.mk.inj (Option.some.inj h')
      exact ⟨Nat.lt_succ_self _, hlit _ _ _ fun s => rfl⟩
    case litr =>
      obtain ⟨⟨v, r⟩, hv, hr⟩ := Option.map_eq_some_iff.mp h'
      obtain ⟨rfl, rfl⟩ := Prod.mk.inj hr
      exact ⟨Nat.lt_succ_of_le (lengthField_length hv), hlit _ _ _ fun s => rfl⟩
    case m1n =>
      obtain ⟨hl, n, rfl⟩ := decodeShort_spec h'
      exact ⟨by omega, hmatch _ _ _ _ (Nat.le_add_left _ _) fun s => rfl⟩
    case m1f =>
      obtain ⟨hl, n, rfl⟩ := decodeShort_spec h'
      exact ⟨by omega, hmatch _ _ _ _ (by omega) fun s => rfl⟩
    case m2s =>
      obtain ⟨hl, n, rfl⟩ := decodeShort_spec h'
      exact ⟨by omega, hmatch _ _ _ _ (Nat.le_add_left _ _) fun s => rfl⟩
    case m2l =>
      obtain ⟨hl, n, rfl⟩ := decodeShort_spec h'
      exact ⟨by omega, hmatch _ _ _ _ (Nat.le_add_left _ _) fun s => rfl⟩
    case m3 =>
      obtain ⟨⟨v, r⟩, hv, hr⟩ := Option.bind_eq_some_iff.mp h'
      obtain ⟨hl, b0, b1, rfl⟩ := decodeWide_spec hr
      simp only at hl
      have := lengthField_length hv
      exact ⟨by omega, hmatch _ _ _ _ (Nat.le_add_left _ _) fun s => rfl⟩
    case m4OrEos =>
      obtain ⟨⟨v, r⟩, hv, hr⟩ := Option.bind_eq_some_iff.mp h'
      obtain ⟨hl, b0, b1, rfl⟩ := decodeWide_spec hr
      simp only at hl
      have := lengthField_length hv
      refine ⟨by omega, ?_⟩
      unfold m4OrEos
      split
      · exact .inr (.inr fun s hs => inDecompressJob_decoder s endOfStream hs)
      · exact hmatch _ _ _ _ (by omega) fun s => rfl

/-- What an instruction of the decoder leaves: `s` with the cursors, `st`, the latches and `OUT` changed,
`OUT` only from the output cursor on and below `OUT_CAP` (rules R118, R144). -/
structure DecoderReaches (s u : State) : Prop where
  frame : u = { s with ip := u.ip, op := u.op, st := u.st, ipc := s.ip, opc := s.op, outMem := u.outMem }
  wf : u.outMem.wf = true
  ipLe : u.ip ≤ s.inLen.toNat
  ipLt : s.ip < s.inLen.toNat → s.ip < u.ip
  opLe : s.op ≤ u.op
  opCap : u.op ≤ s.outCap.toNat
  ahead : ∀ a, a < s.op ∨ s.outCap.toNat ≤ a → u.outMem.read a = s.outMem.read a

/-- The kinds a DECOMPRESS job can end with, besides Ok (rule R131). -/
def decoderKinds : List Kind :=
  [.inputOverrun, .outputOverrun, .lookbehindOverrun, .eofNotFound, .inputNotConsumed, .outputNotConsumed]

/-- Everything a decoder step can do in the middle of a job: a fault of one of the six kinds, the good
end at exactly the two buffers' ends, or the next instruction boundary with `ip` moved forward. -/
theorem decoderStep_cases (s : State) (hact : s.active = .decoder) (hip : s.ip ≤ s.inLen.toNat)
    (hop : s.op ≤ s.outCap.toNat) (hwf : s.outMem.wf = true) :
    ∃ u, DecoderReaches s u ∧
      ((∃ k ∈ decoderKinds, decoderStep s = .next (u.raise k)) ∨
       (u.op = s.outCap.toNat ∧ u.ip = s.inLen.toNat ∧ decoderStep s = .next (u.endOk u.op)) ∨
       (s.ip < u.ip ∧ decoderStep s = .next u)) := by
  have hlen : s.unread.length = s.inLen.toNat - s.ip := by simp [State.unread]
  unfold decoderStep
  cases hd : decode s.st s.unread with
  | error e =>
    cases e with
    | noTag =>
      have h0 : s.inLen.toNat - s.ip = 0 := by
        cases hu : s.unread with
        | nil => rw [← hlen, hu]; rfl
        | cons b bs =>
          rw [hu, decode_cons] at hd
          cases ho : decodeOperands (dispatchForm s.st b) b bs <;> simp [ho] at hd
      exact ⟨s.latched, ⟨rfl, hwf, hip, fun h => by omega, le_rfl, hop, fun a _ => rfl⟩,
        .inl ⟨.eofNotFound, by simp [decoderKinds], rfl⟩⟩
    | truncated =>
      exact ⟨{ s.latched with ip := s.inLen.toNat }, ⟨rfl, hwf, le_rfl, fun h => h, le_rfl, hop, fun a _ => rfl⟩,
        .inl ⟨.inputOverrun, by simp [decoderKinds], rfl⟩⟩
  | ok r =>
    obtain ⟨i, rest⟩ := r
    obtain ⟨hlt, hbody⟩ := decode_ok hd
    simp only
    set s1 : State := { s.latched with ip := s.ip + (s.unread.length - rest.length) } with hs1
    have hip1 : s1.ip ≤ s.inLen.toNat := by simp only [hs1]; omega
    have hip0 : s.ip < s1.ip := by simp only [hs1]; omega
    have hr1 : DecoderReaches s s1 := ⟨rfl, hwf, hip1, fun _ => hip0, le_rfl, hop, fun a _ => rfl⟩
    rcases hbody with ⟨t, after, he⟩ | ⟨dist, len, sc, h1, he⟩ | he
    · rw [he s1 hact]
      rcases literalRun_cases t after s1 hwf with ⟨h, e⟩ | ⟨h, h', e⟩ | ⟨h, h', m, e, hm, hread⟩
      · exact ⟨s1, hr1, .inl ⟨.inputOverrun, by simp [decoderKinds], by rw [e]; rfl⟩⟩
      · exact ⟨s1, hr1, .inl ⟨.outputOverrun, by simp [decoderKinds], by rw [e]; rfl⟩⟩
      · have h0 : t ≤ s.inLen.toNat - s1.ip := h
        have h0' : t ≤ s.outCap.toNat - s.op := h'
        refine ⟨{ s1 with outMem := m, ip := s1.ip + t, op := s1.op + t, st := after },
          ⟨rfl, hm, ?_, fun _ => ?_, Nat.le_add_right _ _, ?_, fun a ha => ?_⟩,
          .inr (.inr ⟨?_, by rw [e]; rfl⟩)⟩
        · show s1.ip + t ≤ _
          omega
        · show s.ip < s1.ip + t
          omega
        · show s.op + t ≤ _
          omega
        · have := hread a
          rw [if_neg (by show ¬ (s.op ≤ a ∧ a < s.op + t); omega)] at this
          exact this
        · show s.ip < s1.ip + t
          omega
    · rw [he s1 hact]
      rcases matchThenLiterals_cases dist len sc s1 h1 hwf with
        ⟨h, e⟩ | ⟨h, h', e⟩ | ⟨h, h', m, hm, hframe, -, hlits⟩
      · exact ⟨s1, hr1, .inl ⟨.lookbehindOverrun, by simp [decoderKinds], by rw [e]; rfl⟩⟩
      · exact ⟨s1, hr1, .inl ⟨.outputOverrun, by simp [decoderKinds], by rw [e]; rfl⟩⟩
      · have h0' : len ≤ s.outCap.toNat - s.op := h'
        have hr2 : DecoderReaches s { s1 with outMem := m, op := s1.op + len } :=
          ⟨rfl, hm, hip1, fun _ => hip0, Nat.le_add_right _ _, by show s.op + len ≤ _; omega,
            fun a ha => hframe a (by show a < s.op ∨ s.op + len ≤ a; omega)⟩
        rcases hlits with ⟨g, e⟩ | ⟨g, g', e⟩ | ⟨g, g', m', hm', e, hread⟩
        · exact ⟨_, hr2, .inl ⟨.inputOverrun, by simp [decoderKinds], by rw [e]; rfl⟩⟩
        · exact ⟨_, hr2, .inl ⟨.outputOverrun, by simp [decoderKinds], by rw [e]; rfl⟩⟩
        · have g0 : sc ≤ s.inLen.toNat - s1.ip := g
          have g0' : sc ≤ s.outCap.toNat - (s.op + len) := g'
          refine ⟨{ s1 with outMem := m', ip := s1.ip + sc, op := s1.op + len + sc, st := stAfter sc },
            ⟨rfl, hm', ?_, fun _ => ?_, ?_, ?_, fun a ha => ?_⟩, .inr (.inr ⟨?_, by rw [e]; rfl⟩)⟩
          · show s1.ip + sc ≤ _
            omega
          · show s.ip < s1.ip + sc
            omega
          · show s.op ≤ s.op + len + sc
            omega
          · show s.op + len + sc ≤ _
            omega
          · have h2 := hread a
            rw [if_neg (by show ¬ (s.op + len ≤ a ∧ a < s.op + len + sc); omega)] at h2
            exact h2.trans (hframe a (by show a < s.op ∨ s.op + len ≤ a; omega))
          · show s.ip < s1.ip + sc
            omega
    · rw [he s1 hact]
      rcases endOfStream_cases s1 with ⟨h, e⟩ | ⟨h, h', e⟩ | ⟨h, h', e⟩
      · exact ⟨s1, hr1, .inl ⟨.outputNotConsumed, by simp [decoderKinds], by rw [e]; rfl⟩⟩
      · exact ⟨s1, hr1, .inl ⟨.inputNotConsumed, by simp [decoderKinds], by rw [e]; rfl⟩⟩
      · exact ⟨s1, hr1, .inr (.inl ⟨h, h', by rw [e]; rfl⟩)⟩

/-! ## The encoder step -/

theorem length_emitExt (x : Nat) (h : 1 ≤ x) : (emitExt x).length = (x - 1) / 255 + 1 := by
  rw [emitExt_eq x h, length_extBytes]

/-- The bytes `EmitMatch` writes are as many as `MatchCost` says, and at least two (rule R181). -/
theorem length_emitMatch (dist len : Nat) : (emitMatch dist len).length = matchCost dist len ∧ 2 ≤ matchCost dist len := by
  unfold emitMatch matchCost
  simp only [Config.m2MaxDist, Config.m2MaxLen, Config.m3MaxDist, Config.m3InlineMaxLen, Config.m4InlineMaxLen]
  split
  · exact ⟨rfl, le_rfl⟩
  · split
    · unfold emitM3
      simp only [Config.m3InlineMaxLen]
      split
      · exact ⟨rfl, by omega⟩
      · rw [List.length_append, List.length_cons, length_emitExt _ (by omega), ceil255]
        exact ⟨by simp only [List.length_cons, List.length_nil]; omega, by omega⟩
    · unfold emitM4
      simp only [Config.m4InlineMaxLen]
      split
      · exact ⟨rfl, by omega⟩
      · rw [List.length_append, List.length_cons, length_emitExt _ (by omega), ceil255]
        exact ⟨by simp only [List.length_cons, List.length_nil]; omega, by omega⟩

/-- The header of a run of at least one literal is one byte more than a sixteenth of it at most (rules
R185, R190); it is missing only where the count rides in a match. -/
theorem length_runHeader (first : Bool) (t : Nat) : (runHeader first t).length ≤ 1 + t / 16 ∧
    (t = 0 → runHeader first t = []) ∧ (first = true → 1 ≤ t → 1 ≤ (runHeader first t).length) := by
  unfold runHeader
  split
  · exact ⟨by simp, fun _ => rfl, fun _ h => by omega⟩
  · split
    · split
      · exact ⟨by simp, fun h => by omega, fun _ _ => by simp⟩
      · rw [List.length_cons, length_extBytes]
        exact ⟨by omega, fun h => by omega, fun _ _ => by omega⟩
    · split
      · exact ⟨by simp, fun _ => rfl, fun h => by simp_all⟩
      · split
        · exact ⟨by simp, fun h => by omega, fun _ _ => by simp⟩
        · rw [List.length_cons, length_extBytes]
          exact ⟨by omega, fun h => by omega, fun _ _ => by omega⟩

/-- What an accepted match's cost leaves for the literals before it (rules R165, R190). -/
theorem accepts_iff (dist len : Nat) : accepts dist len = true → 3 ≤ len ∧ matchCost dist len < len := by
  simp [accepts, Config.minMatch]

/-- What an encoder step that leaves the stream at `n` bytes does to `OUT`, which becomes `m`: it writes
below the new cursor only, and behind the old one only the byte two positions back (rules R180, R186,
R188). -/
structure EncoderWrites (s : State) (m : Memory) (n : Nat) : Prop where
  wf : m.wf = true
  forward : s.eop ≤ n
  cap : n ≤ s.outCap.toNat
  above : ∀ a, n ≤ a → m.read a = s.outMem.read a
  behind : ∀ a, a < s.eop → a + 2 ≠ s.eop → m.read a = s.outMem.read a

theorem patchedByte_other {op t a : Nat} (b : Byte) (h : a + 2 ≠ op) : patchedByte op t a b = b := by
  rw [patchedByte, if_neg (fun g => h g.2.2.2)]

/-- Everything an encoder step can do in the middle of a job: the scan goes on with the cursors of a
running job; or, where no whole window remains, the tail ends the job, Ok where the stream is shorter than
the input, else `NotCompressible`. -/
theorem encoderStep_cases (s : State) (henc : s.EncoderOk) (hwf : s.outMem.wf = true)
    (hht : s.ht.wf = true) :
    (∃ m t ip ii op, encoderStep s = .next { s with outMem := m, ht := t, eip := ip, eii := ii, eop := op } ∧
      EncoderWrites s m op ∧ t.wf = true ∧ s.eip < ip ∧
      ({ s with outMem := m, ht := t, eip := ip, eii := ii, eop := op } : State).EncoderOk) ∨
    (∃ m n, EncoderWrites s m n ∧ s.inLen.toNat < s.eip + 4 ∧ n ≤ s.inLen.toNat + s.inLen.toNat / 16 + 4 ∧
      ((n < s.inLen.toNat ∧ encoderStep s = .next ({ s with outMem := m, eop := n }.endOk n)) ∨
       (s.inLen.toNat ≤ n ∧ encoderStep s = .next ({ s with outMem := m, eop := n }.raise .notCompressible)))) := by
  obtain ⟨horder, hbound, hcap, hemit, htab⟩ := henc
  have hop : s.eop = 0 ∨ 2 ≤ s.eop := by omega
  have hzero : s.eop = 0 → s.eii = 0 := by omega
  have heop : s.eop ≤ s.eii + s.eii / 16 := by omega
  unfold worstCase at hcap
  by_cases hw : s.eip + 4 ≤ s.inLen.toNat
  · left
    have hstep : encoderStep s = (scanStep s).outcome := by simp [encoderStep, hw]
    obtain ⟨h, -, hlt, hcase⟩ := scanStep_cases s hw htab
    have hpass : ∀ e : scanStep s = passByte { s with ht := s.ht.put h s.eip },
        encoderStep s = .next { s with outMem := s.outMem, ht := s.ht.put h s.eip, eip := s.eip + 1, eii := s.eii, eop := s.eop } ∧
        EncoderWrites s s.outMem s.eop ∧ (s.ht.put h s.eip).wf = true ∧ s.eip < s.eip + 1 ∧
        ({ s with outMem := s.outMem, ht := s.ht.put h s.eip, eip := s.eip + 1, eii := s.eii, eop := s.eop } : State).EncoderOk := by
      intro e
      refine ⟨by rw [hstep, e]; rfl, ⟨hwf, le_rfl, by omega, fun _ _ => rfl, fun _ _ _ => rfl⟩,
        HashTable.put_wf _ hht hlt, Nat.lt_succ_self _,
        ⟨Nat.le_succ_of_le horder, ?_, hcap, hemit, fun g p hp => ?_⟩⟩
      · show s.eip + 1 ≤ s.inLen.toNat
        omega
      · replace hp : (s.ht.put h s.eip).get g = some p := hp
        show p < s.eip + 1
        rw [HashTable.get_put] at hp
        by_cases hg : g = h
        · rw [if_pos hg] at hp
          have := Option.some.inj hp
          omega
        · rw [if_neg hg] at hp
          have := htab g p hp
          omega
    rcases hcase with ⟨-, e⟩ | ⟨m, len, hget, hm, -, -, hlen, -, ⟨-, e⟩ | ⟨hacc, e⟩⟩
    · exact ⟨_, _, _, _, _, hpass e⟩
    · exact ⟨_, _, _, _, _, hpass e⟩
    · obtain ⟨hl3, hcost⟩ := accepts_iff _ _ hacc
      obtain ⟨hml, hm2⟩ := length_emitMatch (s.eip - m) len
      obtain ⟨hrh, hrh0, hrh1⟩ := length_runHeader (s.eop == 0) (s.eip - s.eii)
      have hfirst : s.eop = 0 → s.eip - s.eii = 0 ∨ 1 ≤ (runHeader (s.eop == 0) (s.eip - s.eii)).length := by
        intro h0
        by_cases ht : s.eip - s.eii = 0
        · exact .inl ht
        · exact .inr (hrh1 (by simp [h0]) (by omega))
      obtain ⟨m1, t, hgo, hmwf, -, hbehind, habove, htwf, htab'⟩ := acceptMatch_spec (s.eip - m) len { s with ht := s.ht.put h s.eip }
        (by show s.eip + len ≤ s.inLen.toNat; omega) horder hop
        (by
          show s.eop + (runHeader (s.eop == 0) (s.eip - s.eii)).length + (s.eip - s.eii) + _ ≤ s.outCap.toNat
          omega) hwf
      refine ⟨m1, t, s.eip + len, s.eip + len, _, by rw [hstep, e, hgo]; rfl,
        ⟨hmwf, by show s.eop ≤ s.eop + _ + _ + _; omega, ?_, habove,
          fun a ha h2 => (hbehind a ha).trans (patchedByte_other _ h2)⟩,
        htwf (HashTable.put_wf _ hht hlt), by omega, ⟨le_rfl, ?_, hcap, .inr ⟨?_, ?_⟩, ?_⟩⟩
      · show s.eop + (runHeader (s.eop == 0) (s.eip - s.eii)).length + (s.eip - s.eii) + _ ≤ s.outCap.toNat
        omega
      · show s.eip + len ≤ s.inLen.toNat
        omega
      · show 2 ≤ s.eop + (runHeader (s.eop == 0) (s.eip - s.eii)).length + (s.eip - s.eii) + _
        omega
      · show s.eop + (runHeader (s.eop == 0) (s.eip - s.eii)).length + (s.eip - s.eii) + _ ≤
          s.eip + len + (s.eip + len) / 16
        omega
      · show ∀ g p, t.get g = some p → p < s.eip + len
        have hb : ∀ g q, (s.ht.put h s.eip).get g = some q → q < s.eip + 1 + (len - 1) := by
          intro g q hq
          rw [HashTable.get_put] at hq
          by_cases hg : g = h
          · rw [if_pos hg] at hq
            have := Option.some.inj hq
            omega
          · rw [if_neg hg] at hq
            have := htab g q hq
            omega
        intro g p hp
        have hp' : p < s.eip + 1 + (len - 1) := tableAfter_lt htab' hb g p hp
        omega
  · right
    have hstep : encoderStep s = (tailStep s).outcome := by simp [encoderStep, hw]
    obtain ⟨hrh, hrh0, hrh1⟩ := length_runHeader (s.eop == 0) (s.inLen.toNat - s.eii)
    obtain ⟨m, hfin, hmwf, -, hbehind, habove⟩ := tailStep_spec s (by omega) hop (by omega) hwf
    refine ⟨m, s.eop + (runHeader (s.eop == 0) (s.inLen.toNat - s.eii)).length + (s.inLen.toNat - s.eii) + 3,
      ⟨hmwf, by omega, by omega, habove, fun a ha h2 => (hbehind a ha).trans (patchedByte_other _ h2)⟩,
      by omega, by omega, ?_⟩
    · rw [hstep, hfin]
      unfold finishCompress
      by_cases hn : s.inLen.toNat ≤ s.eop + (runHeader (s.eop == 0) (s.inLen.toNat - s.eii)).length
          + (s.inLen.toNat - s.eii) + 3
      · exact .inr ⟨hn, by rw [if_pos hn]; rfl⟩
      · exact .inl ⟨by omega, by rw [if_neg hn]; rfl⟩

/-! ## What no engine changes -/

/-- An engine leaves the host's side as it is (rules R24, R25, R36, R38). -/
def SameHostSide (s t : State) : Prop := t.hostSide = s.hostSide

theorem SameHostSide.refl (s : State) : SameHostSide s s := rfl

theorem SameHostSide.trans {s t u : State} (h : SameHostSide s t) (h' : SameHostSide t u) : SameHostSide s u :=
  Eq.trans h' h

theorem SameHostSide.posBits {s t : State} (h : SameHostSide s t) : t.posBits = s.posBits :=
  congrArg HostSide.posBits h

theorem SameHostSide.inLen {s t : State} (h : SameHostSide s t) : t.inLen.toNat = s.inLen.toNat :=
  congrArg (fun x => x.inLen.toNat) h

theorem SameHostSide.outCap {s t : State} (h : SameHostSide s t) : t.outCap.toNat = s.outCap.toNat :=
  congrArg (fun x => x.outCap.toNat) h

theorem SameHostSide.initOk {s t : State} (h : SameHostSide s t) : t.initOk = s.initOk :=
  congrArg HostSide.initOk h

theorem SameHostSide.inMem {s t : State} (h : SameHostSide s t) : t.inMem = s.inMem :=
  congrArg HostSide.inMem h

theorem SameHostSide.inputs {s t : State} (h : SameHostSide s t) : t.inputs.length = s.inputs.length :=
  congrArg (fun x => x.inputs.length) h

/-- With no pending move of the host before, there is none after. -/
theorem SameHostSide.noInput {s t : State} (h : SameHostSide s t) (hi : s.inputs = []) : t.inputs = [] :=
  List.eq_nil_of_length_eq_zero (by rw [h.inputs, hi, List.length_nil])

theorem SameHostSide.freeCount {s t : State} (h : SameHostSide s t) : t.freeCount = s.freeCount :=
  congrArg HostSide.freeCount h

theorem DecoderReaches.same {s u : State} (h : DecoderReaches s u) : SameHostSide s u :=
  h.frame ▸ rfl

/-- Wherever the flow `f` leads, the host's side is that of `s`. -/
def Flow.Keeps (s : State) : Flow → Prop
  | .go t => SameHostSide s t
  | .ended t => SameHostSide s t
  | .stuck _ => True

theorem keeps_andThen {s : State} {f : Flow} {g : State → Flow} (hf : Flow.Keeps s f)
    (hg : ∀ t, Flow.Keeps t (g t)) : Flow.Keeps s (f.andThen g) := by
  cases f with
  | go t =>
    have ht : SameHostSide s t := hf
    have := hg t
    show Flow.Keeps s (g t)
    cases hgt : g t with
    | go u => rw [hgt] at this; exact ht.trans this
    | ended u => rw [hgt] at this; exact ht.trans this
    | stuck r => trivial
  | ended t => exact hf
  | stuck r => trivial

theorem keeps_withAccess {α : Type} {s : State} {r : Except Fault α} {f : α → Flow}
    (h : ∀ v, r = .ok v → Flow.Keeps s (f v)) : Flow.Keeps s (withAccess r f) := by
  cases r with
  | ok v => exact h v rfl
  | error e => trivial

theorem keeps_of_same {s t : State} {f : Flow} (h : SameHostSide s t) (hf : Flow.Keeps t f) : Flow.Keeps s f := by
  cases f with
  | go u => exact h.trans hf
  | ended u => exact h.trans hf
  | stuck r => trivial

theorem same_writeOut {s t : State} {a : Nat} {v : Byte} (h : s.writeOut a v = .ok t) : SameHostSide s t := by
  by_cases ha : a < s.outCap.toNat
  · rw [writeOut_ok v ha] at h
    exact Except.ok.inj h ▸ rfl
  · simp [State.writeOut, ha] at h

theorem same_raise (s : State) (k : Kind) : SameHostSide s (s.raise k) := rfl

theorem keeps_copyFromIn (n src dst : Nat) (s : State) : Flow.Keeps s (copyFromIn n src dst s) := by
  induction n generalizing src dst s with
  | zero => exact .refl s
  | succ n ih => exact keeps_withAccess fun b _ => keeps_withAccess fun t ht => keeps_of_same (same_writeOut ht) (ih _ _ t)

theorem keeps_copyFromOut (n dist dst : Nat) (s : State) : Flow.Keeps s (copyFromOut n dist dst s) := by
  induction n generalizing dst s with
  | zero => exact .refl s
  | succ n ih => exact keeps_withAccess fun b _ => keeps_withAccess fun t ht => keeps_of_same (same_writeOut ht) (ih _ t)

theorem keeps_litCopy (t : Nat) (s : State) : Flow.Keeps s (litCopy t s) := by
  unfold litCopy
  split
  · exact same_raise s _
  · split
    · exact same_raise s _
    · exact keeps_andThen (keeps_copyFromIn _ _ _ s) fun u => rfl

theorem keeps_matchCopy (dist len : Nat) (s : State) : Flow.Keeps s (matchCopy dist len s) := by
  unfold matchCopy
  split
  · exact same_raise s _
  · split
    · exact same_raise s _
    · exact keeps_andThen (keeps_copyFromOut _ _ _ s) fun u => rfl

theorem keeps_literalRun (t : Nat) (after : St) (s : State) : Flow.Keeps s (literalRun t after s) :=
  keeps_andThen (keeps_litCopy t s) fun _ => rfl

theorem keeps_matchThenLiterals (dist len sc : Nat) (s : State) : Flow.Keeps s (matchThenLiterals dist len sc s) :=
  keeps_andThen (keeps_matchCopy dist len s) fun u => keeps_andThen (keeps_litCopy sc u) fun _ => rfl

theorem keeps_endOfStream (s : State) : Flow.Keeps s (endOfStream s) := by
  unfold endOfStream
  split
  · exact same_raise s _
  · split
    · exact same_raise s _
    · exact rfl

theorem keeps_emitByte (v : Byte) (s : State) : Flow.Keeps s (emitByte v s) := by
  unfold emitByte
  split
  · exact same_raise s _
  · exact keeps_withAccess fun t ht => (same_writeOut ht).trans rfl

theorem keeps_emitBytes (bs : List Byte) (s : State) : Flow.Keeps s (emitBytes bs s) := by
  induction bs generalizing s with
  | nil => exact .refl s
  | cons b bs ih => exact keeps_andThen (keeps_emitByte b s) ih

theorem keeps_emitFromIn (t start : Nat) (s : State) : Flow.Keeps s (emitFromIn t start s) := by
  induction t generalizing start s with
  | zero => exact .refl s
  | succ t ih => exact keeps_withAccess fun b _ => keeps_andThen (keeps_emitByte b s) fun u => ih _ u

theorem keeps_flushLiterals (start t : Nat) (s : State) : Flow.Keeps s (flushLiterals start t s) := by
  unfold flushLiterals
  split
  · exact .refl s
  · refine keeps_andThen ?_ fun u => keeps_emitFromIn t start u
    unfold literalHeader
    split
    · exact keeps_emitByte _ s
    · split
      · exact keeps_withAccess fun b _ => keeps_withAccess fun u hu => same_writeOut hu
      · split
        · exact keeps_emitByte _ s
        · exact keeps_emitBytes _ s

theorem keeps_reindex (n q : Nat) (s : State) : Flow.Keeps s (reindex n q s) := by
  induction n generalizing q s with
  | zero => exact .refl s
  | succ n ih =>
    unfold reindex
    split
    · exact keeps_withAccess fun h _ =>
        keeps_of_same (t := { s with ht := s.ht.put h q }) rfl (ih _ _)
    · exact ih _ s

theorem keeps_scanStep (s : State) : Flow.Keeps s (scanStep s) := by
  refine keeps_withAccess fun h _ => keeps_of_same (t := { s with ht := s.ht.put h s.eip }) rfl ?_
  have hpass : ∀ u : State, Flow.Keeps u (passByte u) := fun u => rfl
  split
  · exact hpass _
  · refine keeps_withAccess fun len _ => ?_
    split
    · exact keeps_andThen (keeps_flushLiterals _ _ _) fun u => keeps_andThen (keeps_emitBytes _ u) fun v =>
        keeps_andThen (keeps_reindex _ _ v) fun w => rfl
    · exact hpass _

theorem keeps_tailStep (s : State) : Flow.Keeps s (tailStep s) := by
  refine keeps_andThen (keeps_flushLiterals _ _ s) fun u => keeps_andThen (keeps_emitBytes _ u) fun v => ?_
  unfold finishCompress
  split
  · exact same_raise v _
  · exact rfl

theorem same_of_outcome {s t : State} {f : Flow} (hf : Flow.Keeps s f) (h : f.outcome = .next t) : SameHostSide s t := by
  rcases outcome_eq_next.mp h with rfl | rfl <;> exact hf

/-- No step of an engine, from any state, changes the host's side. -/
theorem engineStep_same {s t : State} (h : engineStep s = .next t) : SameHostSide s t := by
  unfold engineStep at h
  split at h
  · exact Host.Outcome.next.inj h ▸ .refl s
  · unfold encoderStep at h
    split at h
    · exact same_of_outcome (keeps_scanStep s) h
    · exact same_of_outcome (keeps_tailStep s) h
  · next hact =>
    unfold decoderStep at h
    split at h
    · exact Host.Outcome.next.inj h ▸ rfl
    · exact Host.Outcome.next.inj h ▸ rfl
    · next i rest hd =>
      set s1 : State := { s.latched with ip := s.ip + (s.unread.length - rest.length) } with hs1
      have h1 : SameHostSide s s1 := rfl
      refine h1.trans ?_
      rcases (decode_ok hd).2 with ⟨n, after, he⟩ | ⟨dist, len, sc, -, he⟩ | he
      · rw [he s1 hact] at h
        exact same_of_outcome (keeps_literalRun n after s1) h
      · rw [he s1 hact] at h
        exact same_of_outcome (keeps_matchThenLiterals dist len sc s1) h
      · rw [he s1 hact] at h
        exact same_of_outcome (keeps_endOfStream s1) h

/-- No step of an engine is refused: the sequencer hands the decoder only wire instructions, in a
DECOMPRESS job. -/
theorem engineStep_not_refused (s : State) (r : Refusal) : engineStep s ≠ .refused r := by
  have hout : ∀ f : Flow, f.outcome ≠ .refused r := fun f => by cases f <;> simp
  unfold engineStep
  split
  · simp
  · unfold encoderStep
    split <;> exact hout _
  · next hact =>
    unfold decoderStep
    split
    · simp
    · simp
    · next i rest hd =>
      rcases (decode_ok hd).2 with ⟨n, after, he⟩ | ⟨dist, len, sc, -, he⟩ | he <;>
        rw [he { s.latched with ip := s.ip + (s.unread.length - rest.length) } hact] <;> exact hout _

/-! ## Runs -/

/-- A word made from a number below `2^POS_BITS` has that value. -/
theorem word_toNat {w n : Nat} (h : n < 2 ^ w) : (BitVec.ofNat w n).toNat = n := by
  rw [BitVec.toNat_ofNat]
  exact Nat.mod_eq_of_lt h

/-- One more step at the front of a run. -/
theorem run_succ (M : Host.Core) (k : Nat) (s : M.State) : M.run (k + 1) s =
    match M.step s with
    | .next s' => M.run k s'
    | .fault r => .fault r
    | .refused r => .refused r := rfl

/-- A run whose first step answers a next state goes on from it. -/
theorem run_next {s t : State} (k : Nat) (h : step s = .next t) :
    Sys2Proof.core.run (k + 1) s = Sys2Proof.core.run k t := by
  have h' : Sys2Proof.core.step s = .next t := h
  have hr := run_succ Sys2Proof.core k s
  rw [h'] at hr
  exact hr

/-- A run of `k + 1` steps that answers a next state takes a first step, then the others. -/
theorem run_succ_next {s t : State} {k : Nat} (h : Sys2Proof.core.run (k + 1) s = .next t) :
    ∃ u, step s = .next u ∧ Sys2Proof.core.run k u = .next t := by
  have hr := run_succ Sys2Proof.core k s
  cases hs : step s with
  | next u => exact ⟨u, rfl, (run_next k hs).symm.trans h⟩
  | fault r =>
    have h' : Sys2Proof.core.step s = .fault r := hs
    rw [h'] at hr
    cases hr.symm.trans h
  | refused r =>
    have h' : Sys2Proof.core.step s = .refused r := hs
    rw [h'] at hr
    cases hr.symm.trans h

end Sys2Proof.Laws
end

