-- ==== Sys2Proof/Laws/Agree.lean ====
section
/-!
SUPPORT. Two DECOMPRESS jobs on the same stream run in lockstep, whatever else their states hold (the
argument of rule R146).
-/

namespace Sys2Proof.Laws

open Sys2Proof.Machine

/-- Two running DECOMPRESS jobs, with the host absent, that agree on the stream, the registers of the
decoder, and `OUT` below the output cursor; their widths may differ. -/
structure SameDecoder (s t : State) : Prop where
  active : s.active = .decoder
  active' : t.active = .decoder
  inputs : s.inputs = []
  inputs' : t.inputs = []
  wf : s.outMem.wf = true
  wf' : t.outMem.wf = true
  ip : t.ip = s.ip
  op : t.op = s.op
  st : t.st = s.st
  inLen : t.inLen.toNat = s.inLen.toNat
  outCap : t.outCap.toNat = s.outCap.toNat
  ipLe : s.ip ≤ s.inLen.toNat
  opLe : s.op ≤ s.outCap.toNat
  stream : ∀ a, a < s.inLen.toNat → t.inMem.read a = s.inMem.read a
  out : ∀ a, a < s.op → t.outMem.read a = s.outMem.read a

/-- Two jobs that have ended with the same result, and with the same output where they ended Ok. -/
structure SameResult (s t : State) : Prop where
  active : s.active = .idle
  active' : t.active = .idle
  inputs : s.inputs = []
  inputs' : t.inputs = []
  code : t.code = s.code
  outLen : t.outLen.toNat = s.outLen.toNat
  faultIp : t.faultIp.toNat = s.faultIp.toNat
  faultOp : t.faultOp.toNat = s.faultOp.toNat
  out : s.code = .ok → ∀ a, a < s.outCap.toNat → t.outMem.read a = s.outMem.read a

theorem sameResult_raise {s t : State} {k : Kind} (hk : k ≠ .ok) (h1 : s.active = .decoder) (h2 : t.active = .decoder)
    (i1 : s.inputs = []) (i2 : t.inputs = []) (hp : t.ipc = s.ipc) (ho : t.opc = s.opc)
    (b1 : s.ipc < 2 ^ s.posBits ∧ t.ipc < 2 ^ t.posBits) (b2 : s.opc < 2 ^ s.posBits ∧ t.opc < 2 ^ t.posBits) :
    SameResult (s.raise k) (t.raise k) where
  active := rfl
  active' := rfl
  inputs := i1
  inputs' := i2
  code := rfl
  outLen := by
    show (BitVec.ofNat _ 0).toNat = (BitVec.ofNat _ 0).toNat
    simp
  faultIp := by
    show (BitVec.ofNat t.posBits t.faultCursors.1).toNat = (BitVec.ofNat s.posBits s.faultCursors.1).toNat
    rw [faultCursors_decoder t h2, faultCursors_decoder s h1, word_toNat b1.1, word_toNat b1.2, hp]
  faultOp := by
    show (BitVec.ofNat t.posBits t.faultCursors.2).toNat = (BitVec.ofNat s.posBits s.faultCursors.2).toNat
    rw [faultCursors_decoder t h2, faultCursors_decoder s h1, word_toNat b2.1, word_toNat b2.2, ho]
  out := fun h => absurd h hk

/-- One step keeps two jobs in lockstep, or ends both with the same result. -/
theorem step_sameDecoder {s t : State} (h : SameDecoder s t) :
    ∃ s' t', step s = .next s' ∧ step t = .next t' ∧ s'.outCap.toNat = s.outCap.toNat ∧ (SameDecoder s' t' ∨ SameResult s' t') := by
  obtain ⟨a1, a2, i1, i2, wf1, wf2, hip, hop, hst, hil, hoc, hipl, hopl, hin, hout⟩ := h
  rw [step_engine i1, step_engine i2, engineStep_decoder a1, engineStep_decoder a2]
  have hun : t.unread = s.unread := by
    unfold State.unread
    rw [hip, hil]
    exact Memory.slice_congr fun i hi => hin _ (by omega)
  have hw1 := s.inLen.isLt
  have hw2 := t.inLen.isLt
  have hw3 := s.outCap.isLt
  have hw4 := t.outCap.isLt
  have hunl : s.unread.length = s.inLen.toNat - s.ip := by simp [State.unread]
  have hraise : ∀ (s1 t1 : State) (k : Kind), k ≠ .ok → s1.active = .decoder → t1.active = .decoder → s1.inputs = [] →
      t1.inputs = [] → s1.ipc = s.ip → t1.ipc = t.ip → s1.opc = s.op → t1.opc = t.op → s1.posBits = s.posBits →
      t1.posBits = t.posBits → s1.outCap.toNat = s.outCap.toNat →
      ∃ s' t', (Host.Outcome.next (s1.raise k) : Host.Outcome State Fault Refusal) = .next s' ∧
        (Host.Outcome.next (t1.raise k) : Host.Outcome State Fault Refusal) = .next t' ∧ s'.outCap.toNat = s.outCap.toNat ∧
        (SameDecoder s' t' ∨ SameResult s' t') :=
    fun s1 t1 k hk b1 b2 j1 j2 p1 p2 o1 o2 w1 w2 hc => ⟨_, _, rfl, rfl, hc, .inr (sameResult_raise hk b1 b2 j1 j2
      (by rw [p1, p2, hip]) (by rw [o1, o2, hop]) (by rw [p1, p2, w1, w2]; omega) (by rw [o1, o2, w1, w2]; omega))⟩
  unfold decoderStep
  rw [hun, hst]
  cases hd : decode s.st s.unread with
  | error e =>
    cases e with
    | noTag => exact hraise s.latched t.latched .eofNotFound (by simp) a1 a2 i1 i2 rfl rfl rfl rfl rfl rfl rfl
    | truncated =>
      exact hraise { s.latched with ip := s.inLen.toNat } { t.latched with ip := t.inLen.toNat } .inputOverrun (by simp)
        a1 a2 i1 i2 rfl rfl rfl rfl rfl rfl rfl
  | ok r =>
    obtain ⟨i, rest⟩ := r
    obtain ⟨hlt, hbody⟩ := decode_ok hd
    simp only
    set n := s.unread.length - rest.length with hn
    set s1 : State := { s.latched with ip := s.ip + n } with hs1
    set t1 : State := { t.latched with ip := t.ip + n } with ht1
    have e1 : t1.ip = s1.ip := by show t.ip + n = s.ip + n; rw [hip]
    have e2 : t1.op = s1.op := hop
    have e3 : t1.inLen.toNat = s1.inLen.toNat := hil
    have e4 : t1.outCap.toNat = s1.outCap.toNat := hoc
    have hbnd : s1.ip ≤ s1.inLen.toNat := by show s.ip + n ≤ s.inLen.toNat; omega
    rcases hbody with ⟨tt, after, he⟩ | ⟨dist, len, sc, h1, he⟩ | he
    · rw [he s1 a1, he t1 a2]
      rcases literalRun_cases tt after s1 wf1 with ⟨g, e⟩ | ⟨g, g', e⟩ | ⟨g, g', m, e, hm, hread⟩ <;>
      rcases literalRun_cases tt after t1 wf2 with ⟨k, f⟩ | ⟨k, k', f⟩ | ⟨k, k', m2, f, hm2, hread2⟩ <;>
      rw [e1, e3] at k <;> (try rw [e2, e4] at k') <;> (try omega) <;> rw [e, f]
      · exact hraise s1 t1 _ (by simp) a1 a2 i1 i2 rfl rfl rfl rfl rfl rfl rfl
      · exact hraise s1 t1 _ (by simp) a1 a2 i1 i2 rfl rfl rfl rfl rfl rfl rfl
      · refine ⟨_, _, rfl, rfl, rfl, .inl ⟨a1, a2, i1, i2, hm, hm2, ?_, ?_, rfl, hil, hoc, ?_, ?_, hin, fun a ha => ?_⟩⟩
        · show t1.ip + tt = s1.ip + tt
          rw [e1]
        · show t1.op + tt = s1.op + tt
          rw [e2]
        · show s1.ip + tt ≤ s1.inLen.toNat
          omega
        · have : s1.op ≤ s1.outCap.toNat := hopl
          show s1.op + tt ≤ s1.outCap.toNat
          omega
        · show m2.read a = m.read a
          change a < s1.op + tt at ha
          rw [hread, hread2, e2, e1]
          split
          · exact hin _ (by change _ < s1.inLen.toNat; omega)
          · exact hout _ (by change _ < s1.op; omega)
    · rw [he s1 a1, he t1 a2]
      rcases matchThenLiterals_cases dist len sc s1 h1 wf1 with ⟨g, e⟩ | ⟨g, g', e⟩ | ⟨g, g', m, hm, hfr, heq, hc⟩ <;>
      rcases matchThenLiterals_cases dist len sc t1 h1 wf2 with ⟨k, f⟩ | ⟨k, k', f⟩ | ⟨k, k', m2, hm2, hfr2, heq2, hc2⟩ <;>
      rw [e2] at k <;> (try rw [e2, e4] at k') <;> (try omega)
      · rw [e, f]
        exact hraise s1 t1 _ (by simp) a1 a2 i1 i2 rfl rfl rfl rfl rfl rfl rfl
      · rw [e, f]
        exact hraise s1 t1 _ (by simp) a1 a2 i1 i2 rfl rfl rfl rfl rfl rfl rfl
      · rw [e2] at hfr2 heq2
        have hmm : ∀ a, a < s1.op + len → m2.read a = m.read a := by
          intro a ha
          by_cases hlo : a < s1.op
          · rw [hfr a (.inl hlo), hfr2 a (.inl hlo)]
            exact hout a hlo
          · have p1 := periodic_of_step h1 g (fun a ha => hfr a (.inl ha)) heq (a - s1.op) (by omega)
            have p2 := periodic_of_step h1 g (fun a ha => hfr2 a (.inl ha)) heq2 (a - s1.op) (by omega)
            have hmod := Nat.mod_lt (a - s1.op) (show 0 < dist by omega)
            rw [show s1.op + (a - s1.op) = a by omega] at p1 p2
            rw [p1, p2]
            exact hout _ (by change _ < s1.op; omega)
        rcases hc with ⟨g1, e⟩ | ⟨g1, g1', e⟩ | ⟨g1, g1', m', hm', e, hread⟩ <;>
        rcases hc2 with ⟨k1, f⟩ | ⟨k1, k1', f⟩ | ⟨k1, k1', m2', hm2', f, hread2⟩ <;>
        rw [e1, e3] at k1 <;> (try rw [e2, e4] at k1') <;> (try omega) <;> rw [e, f]
        · exact hraise { s1 with outMem := m, op := s1.op + len } { t1 with outMem := m2, op := t1.op + len } _ (by simp)
            a1 a2 i1 i2 rfl rfl rfl rfl rfl rfl rfl
        · exact hraise { s1 with outMem := m, op := s1.op + len } { t1 with outMem := m2, op := t1.op + len } _ (by simp)
            a1 a2 i1 i2 rfl rfl rfl rfl rfl rfl rfl
        · refine ⟨_, _, rfl, rfl, rfl, .inl ⟨a1, a2, i1, i2, hm', hm2', ?_, ?_, rfl, hil, hoc, ?_, ?_, hin, fun a ha => ?_⟩⟩
          · show t1.ip + sc = s1.ip + sc
            rw [e1]
          · show t1.op + len + sc = s1.op + len + sc
            rw [e2]
          · show s1.ip + sc ≤ s1.inLen.toNat
            omega
          · have : s1.op ≤ s1.outCap.toNat := hopl
            show s1.op + len + sc ≤ s1.outCap.toNat
            omega
          · show m2'.read a = m'.read a
            change a < s1.op + len + sc at ha
            rw [hread, hread2, e2, e1]
            split
            · exact hin _ (by change _ < s1.inLen.toNat; omega)
            · exact hmm _ (by omega)
    · rw [he s1 a1, he t1 a2]
      rcases endOfStream_cases s1 with ⟨g, e⟩ | ⟨g, g', e⟩ | ⟨g, g', e⟩ <;>
      rcases endOfStream_cases t1 with ⟨k, f⟩ | ⟨k, k', f⟩ | ⟨k, k', f⟩ <;>
      rw [e2, e4] at k <;> (try rw [e1, e3] at k') <;> (try omega) <;> rw [e, f]
      · exact hraise s1 t1 _ (by simp) a1 a2 i1 i2 rfl rfl rfl rfl rfl rfl rfl
      · exact hraise s1 t1 _ (by simp) a1 a2 i1 i2 rfl rfl rfl rfl rfl rfl rfl
      · refine ⟨_, _, rfl, rfl, rfl, .inr ⟨rfl, rfl, i1, i2, rfl, ?_, by simp, by simp, fun _ a ha => ?_⟩⟩
        · show (BitVec.ofNat t.posBits t1.op).toNat = (BitVec.ofNat s.posBits s1.op).toNat
          have b1 : s1.op < 2 ^ s.posBits := by show s.op < 2 ^ s.posBits; omega
          have b2 : t1.op < 2 ^ t.posBits := by show t.op < 2 ^ t.posBits; omega
          rw [word_toNat b2, word_toNat b1, e2]
        · exact hout a (by change a < s1.outCap.toNat at ha; change a < s1.op; omega)

end Sys2Proof.Laws
end

