-- ==== Sys2Proof/Laws/PerInstr.lean ====
section
/-!
SUPPORT. Statements about every instruction, one lemma per constructor. Family `EncodedSize`: the
number of encoding bytes of a well-formed instruction, without its literal bytes, is the total length
its format gives (rules R72 to R75, 30_encoding.md), less the literals.
-/

namespace Sys2Proof.Laws.EncodedSize

/-- The encoding bytes of an instruction by its format: a tag, the extension bytes of a length above
the inline range, and the extra distance bytes. A host command has none. -/
def bytesOfFormat : Instr → Nat
  | .litf _ => 1
  | .litr t => 1 + (if t ≤ 18 then 0 else (t - 18 - 1) / 255 + 1)
  | .m1n _ _ | .m1f _ _ | .m2s _ _ _ | .m2l _ _ _ => 2
  | .m3 _ len _ => 3 + (if len ≤ 33 then 0 else (len - 33 - 1) / 255 + 1)
  | .m4 _ len _ => 3 + (if len ≤ 9 then 0 else (len - 9 - 1) / 255 + 1)
  | .eos => 3
  | .nop | .init | .compress | .decompress => 0

/-- The encoding of `i` has the length its format gives. -/
def Statement (i : Instr) : Prop := (encodeWire i).length = bytesOfFormat i

theorem litf (t : Nat) : Statement (.litf t) := rfl

theorem m2l (dist len s : Nat) : Statement (.m2l dist len s) := rfl

theorem m2s (dist len s : Nat) : Statement (.m2s dist len s) := rfl

theorem m3 (dist len s : Nat) : Statement (.m3 dist len s) := by
  simp only [Statement, encodeWire, bytesOfFormat, List.length_append, length_lengthBytes, List.length_cons,
    List.length_nil]
  split <;> omega

theorem m4 (dist len s : Nat) : Statement (.m4 dist len s) := by
  simp only [Statement, encodeWire, bytesOfFormat, List.length_append, length_lengthBytes, List.length_cons,
    List.length_nil]
  split <;> omega

theorem eos : Statement .eos := rfl

theorem litr (t : Nat) : Statement (.litr t) := by
  simp only [Statement, encodeWire, bytesOfFormat, length_lengthBytes]
  split <;> omega

theorem m1f (dist s : Nat) : Statement (.m1f dist s) := rfl

theorem m1n (dist s : Nat) : Statement (.m1n dist s) := rfl

theorem nop : Statement .nop := rfl

theorem init : Statement .init := rfl

theorem compress : Statement .compress := rfl

theorem decompress : Statement .decompress := rfl

end Sys2Proof.Laws.EncodedSize
end

