-- ==== Sys2Proof/Laws/Stream.lean ====
section
/-!
SUPPORT. The instruction stream as the two engines see it: when the decoder plays a list of bytes (rules
R101, R110, R140), the bytes of a match with a literal count in its `S` field (rules R186, R191), and the
stream an encoder job has written so far, which the decoder plays back to the scanned input (the argument
of rule R192).
-/

namespace Sys2Proof.Laws

open Sys2Proof.Machine

/-! ## Runs of two parts -/

/-- A run goes on from where its first part leads. -/
theorem run_add {s t : State} {j : Nat} (k : Nat) (h : Sys2Proof.core.run j s = .next t) :
    Sys2Proof.core.run (j + k) s = Sys2Proof.core.run k t := by
  induction j generalizing s with
  | zero =>
    have e : s = t := Host.Outcome.next.inj h
    rw [e, Nat.zero_add]
  | succ j ih =>
    obtain ⟨u, hu, hr⟩ := run_succ_next h
    rw [Nat.succ_add, run_next _ hu]
    exact ih hr

/-- One step is a run of one step. -/
theorem run_one {s t : State} (h : step s = .next t) : Sys2Proof.core.run 1 s = .next t :=
  (run_next 0 h).trans rfl

/-- An idle CORE whose host has no pending move keeps its state (log 21). -/
theorem step_idle {s : State} (h : s.active = .idle) (hi : s.inputs = []) : step s = .next s := by
  rw [step_engine hi]
  simp [engineStep, h]

theorem run_idle {s : State} (h : s.active = .idle) (hi : s.inputs = []) (k : Nat) :
    Sys2Proof.core.run k s = .next s := by
  induction k with
  | zero => rfl
  | succ k ih => rw [run_next k (step_idle h hi), ih]

/-! ## Playing a stream -/

/-- A DECOMPRESS job at an instruction boundary, with the host absent: the bytes `z` are unread, and `OUT`
below the output cursor `p` holds the first `p` bytes of `m`. -/
structure AtBoundary (m : Memory) (z : List Byte) (a : St) (p : Nat) (d : State) : Prop where
  active : d.active = .decoder
  inputs : d.inputs = []
  wf : d.outMem.wf = true
  st : d.st = a
  op : d.op = p
  ipLe : d.ip ≤ d.inLen.toNat
  unread : d.unread = z
  out : ∀ i, i < p → d.outMem.read i = m.read i

/-- In state `a` at output cursor `p` the decoder plays the bytes `z`: whatever follows them, it reaches the
boundary after them in state `b` with output cursor `q`, and `OUT` then holds the first `q` bytes of `m`. -/
def Plays (m : Memory) (cap : Nat) (z : List Byte) (a : St) (p : Nat) (b : St) (q : Nat) : Prop :=
  ∀ d rest, AtBoundary m (z ++ rest) a p d → d.outCap.toNat = cap → q ≤ cap →
    ∃ k e, Sys2Proof.core.run k d = .next e ∧ AtBoundary m rest b q e ∧ e.outCap.toNat = d.outCap.toNat

theorem plays_nil (m : Memory) (cap : Nat) (a : St) (p : Nat) : Plays m cap [] a p a p :=
  fun d _ h _ _ => ⟨0, d, rfl, h, rfl⟩

theorem plays_append {m : Memory} {cap : Nat} {z w : List Byte} {a b c : St} {p q r : Nat} (hz : Plays m cap z a p b q)
    (hw : Plays m cap w b q c r) (hqr : q ≤ r) : Plays m cap (z ++ w) a p c r := by
  intro d rest hd hcap hr
  rw [List.append_assoc] at hd
  obtain ⟨j, e, hj, he, hce⟩ := hz d (w ++ rest) hd hcap (hqr.trans hr)
  obtain ⟨k, f, hk, hf, hcf⟩ := hw e rest he (by rw [hce, hcap]) hr
  exact ⟨j + k, f, (run_add k hj).trans hk, hf, hcf.trans hce⟩

/-- The unread bytes after `n` of them are fetched. -/
theorem unread_drop {d : State} {z w : List Byte} (h : d.unread = z ++ w) (d' : State) (hm : d'.inMem = d.inMem)
    (hl : d'.inLen.toNat = d.inLen.toNat) (hip : d'.ip = d.ip + z.length) : d'.unread = w := by
  have hlen : d.inLen.toNat - d.ip = z.length + w.length := by
    have := congrArg List.length h
    simpa [State.unread] using this
  unfold State.unread at h ⊢
  rw [hlen, Memory.slice_add] at h
  have h2 := (List.append_inj h (by simp)).2
  rw [hm, hl, hip, show d.inLen.toNat - (d.ip + z.length) = w.length by omega]
  exact h2

/-- What the unread bytes say of `IN`. -/
theorem unread_read {d : State} {z w : List Byte} (h : d.unread = z ++ w) :
    d.ip + z.length + w.length = d.ip + (d.inLen.toNat - d.ip) ∧
      ∀ (i : Nat) (hi : i < z.length), d.inMem.read (d.ip + i) = z[i] := by
  have hlen : d.inLen.toNat - d.ip = z.length + w.length := by
    have := congrArg List.length h
    simpa [State.unread] using this
  refine ⟨by omega, fun i hi => ?_⟩
  unfold State.unread at h
  have hi' : i < (d.inMem.slice d.ip (d.inLen.toNat - d.ip)).length := by simp; omega
  have e := Memory.getElem_slice d.inMem hi'
  rw [← e]
  simp only [h]
  exact List.getElem_append_left hi

/-- The step at a boundary whose next bytes decode to `i`: `i` executes with its bytes `z` fetched. -/
theorem step_atBoundary {m : Memory} {z rest : List Byte} {a : St} {p : Nat} {d : State} {i : Instr}
    (hd : AtBoundary m (z ++ rest) a p d) (hdec : decode a (z ++ rest) = .ok (i, rest)) :
    step d = exec i { d with ipc := d.ip, opc := d.op, ip := d.ip + z.length } := by
  have hdec' : decode d.st d.unread = .ok (i, rest) := by rw [hd.unread, hd.st, hdec]
  have hn : d.unread.length - rest.length = z.length := by
    rw [hd.unread, List.length_append]
    omega
  rw [step_engine hd.inputs, engineStep_decoder hd.active]
  unfold decoderStep
  rw [hdec']
  simp only [hn]
  rfl

/-- The decoder plays a literal instruction and its literals (rules R101 to R103). -/
theorem plays_literals {m : Memory} {cap : Nat} {z : List Byte} {a after : St} {i : Instr} {p t : Nat}
    (hdec : ∀ rest, decode a (z ++ rest) = .ok (i, rest))
    (hbody : ∀ s : State, s.active = .decoder → exec i s = (literalRun t after s).outcome) :
    Plays m cap (z ++ m.slice p t) a p after (p + t) := by
  intro d rest hd hcap hq
  rw [List.append_assoc] at hd
  have hstep := step_atBoundary hd (hdec _)
  set s1 : State := { d with ipc := d.ip, opc := d.op, ip := d.ip + z.length } with hs1
  have hun : s1.unread = m.slice p t ++ rest := unread_drop hd.unread s1 rfl rfl rfl
  obtain ⟨hlen, hread⟩ := unread_read hun
  rw [Memory.length_slice] at hlen
  rw [hbody s1 hd.active] at hstep
  have hop : s1.op = p := hd.op
  have hoc : s1.outCap.toNat = cap := hcap
  rcases literalRun_cases t after s1 hd.wf with ⟨g, -⟩ | ⟨-, g, -⟩ | ⟨g, g', m1, e, hm1, hm1r⟩
  · omega
  · omega
  · rw [e, outcome_go] at hstep
    refine ⟨1, _, run_one hstep,
      ⟨hd.active, hd.inputs, hm1, rfl, by show s1.op + t = p + t; rw [hop], ?_, ?_, fun j hj => ?_⟩, rfl⟩
    · have hb : d.ip + (z ++ (m.slice p t ++ rest)).length = d.inLen.toNat := by
        have h0 := hd.ipLe
        rw [← hd.unread]
        simp only [State.unread, Memory.length_slice]
        omega
      simp only [List.length_append, Memory.length_slice] at hb
      show d.ip + z.length + t ≤ d.inLen.toNat
      omega
    · exact unread_drop hun _ rfl rfl (by rw [Memory.length_slice])
    · show m1.read j = m.read j
      rw [hm1r, hop]
      by_cases hj' : p ≤ j
      · rw [if_pos ⟨hj', hj⟩]
        have := hread (j - p) (by rw [Memory.length_slice]; omega)
        rw [this, Memory.getElem_slice]
        congr 1
        omega
      · rw [if_neg (by omega)]
        exact hd.out j (by omega)

/-- The decoder plays a match whose source repeats in `m`, and its trailing literals (rules R110, R111). -/
theorem plays_match {m : Memory} {cap : Nat} {z : List Byte} {a : St} {i : Instr} {p dist len sc : Nat}
    (hdec : ∀ rest, decode a (z ++ rest) = .ok (i, rest))
    (hbody : ∀ s : State, s.active = .decoder → exec i s = (matchThenLiterals dist len sc s).outcome)
    (h1 : 1 ≤ dist) (h2 : dist ≤ p) (hrep : ∀ j, j < len → m.read (p + j) = m.read (p + j - dist)) :
    Plays m cap (z ++ m.slice (p + len) sc) a p (stAfter sc) (p + len + sc) := by
  intro d rest hd hcap hq
  rw [List.append_assoc] at hd
  have hstep := step_atBoundary hd (hdec _)
  set s1 : State := { d with ipc := d.ip, opc := d.op, ip := d.ip + z.length } with hs1
  have hun : s1.unread = m.slice (p + len) sc ++ rest := unread_drop hd.unread s1 rfl rfl rfl
  obtain ⟨hlen, hread⟩ := unread_read hun
  rw [Memory.length_slice] at hlen
  rw [hbody s1 hd.active] at hstep
  have hop : s1.op = p := hd.op
  have hoc : s1.outCap.toNat = cap := hcap
  rcases matchThenLiterals_cases dist len sc s1 h1 hd.wf with ⟨g, -⟩ | ⟨-, g, -⟩ | ⟨g, g', m1, hm1, hfr, heq, hc⟩
  · omega
  · omega
  · have hcopy : ∀ j, j < p + len → m1.read j = m.read j := by
      intro j
      induction j using Nat.strong_induction_on with
      | _ j ih =>
        intro hj
        by_cases hlo : j < p
        · rw [hfr j (.inl (by omega))]
          exact hd.out j hlo
        · have e1 := heq (j - p) (by omega)
          have e2 := hrep (j - p) (by omega)
          rw [hop, show p + (j - p) = j by omega] at e1
          rw [show p + (j - p) = j by omega] at e2
          rw [e1, e2]
          exact ih (j - dist) (by omega) (by omega)
    rcases hc with ⟨k, -⟩ | ⟨-, k, -⟩ | ⟨k, k', m2, hm2, e, hm2r⟩
    · omega
    · omega
    · rw [e, outcome_go] at hstep
      refine ⟨1, _, run_one hstep,
        ⟨hd.active, hd.inputs, hm2, rfl, by show s1.op + len + sc = p + len + sc; rw [hop], ?_, ?_,
          fun j hj => ?_⟩, rfl⟩
      · have hb : d.ip + (z ++ (m.slice (p + len) sc ++ rest)).length = d.inLen.toNat := by
          have h0 := hd.ipLe
          rw [← hd.unread]
          simp only [State.unread, Memory.length_slice]
          omega
        simp only [List.length_append, Memory.length_slice] at hb
        show d.ip + z.length + sc ≤ d.inLen.toNat
        omega
      · exact unread_drop hun _ rfl rfl (by rw [Memory.length_slice])
      · show m2.read j = m.read j
        rw [hm2r, hop]
        by_cases hj' : p + len ≤ j
        · rw [if_pos ⟨hj', hj⟩]
          have := hread (j - (p + len)) (by rw [Memory.length_slice]; omega)
          rw [this, Memory.getElem_slice]
          congr 1
          omega
        · rw [if_neg (by omega)]
          exact hcopy j (by omega)

/-! ## The bytes of a match -/

/-- The match instruction the encoder chooses (rule R181), with `sc` trailing literals. -/
def matchInstr (dist len sc : Nat) : Instr :=
  if dist ≤ Config.m2MaxDist ∧ len ≤ Config.m2MaxLen then
    (if len ≤ 4 then .m2s dist len sc else .m2l dist len sc)
  else if dist ≤ Config.m3MaxDist then .m3 dist len sc
  else .m4 dist len sc

/-- A count of at most 3 fills the two low bits that a byte has left free. -/
theorem byteOf_or {n t : Nat} (h : n % 4 = 0) (hn : n < 256) (ht : t ≤ 3) : byteOf n ||| byteOf t = byteOf (n + t) := by
  obtain ⟨k, rfl⟩ : ∃ k, n = 4 * k := ⟨n / 4, by omega⟩
  refine BitVec.eq_of_toNat_eq ?_
  have h4 : 2 ^ 2 * k + t = 2 ^ 2 * k ||| t := Nat.two_pow_add_eq_or_of_lt (i := 2) (by omega) k
  rw [BitVec.toNat_or, byteOf_toNat hn, byteOf_toNat (by omega), byteOf_toNat (by omega)]
  exact h4.symm

/-- The bytes `EmitMatch` writes are those of the chosen instruction with its `S` field 0, and a count put
in the byte two positions from the end (rule R186) makes them those of the instruction with that count. -/
theorem emitMatch_eq (dist len : Nat) (h1 : 1 ≤ dist) (h2 : dist ≤ 49151) (h3 : 3 ≤ len) :
    ∃ x b c, emitMatch dist len = x ++ [b, c] ∧
      ∀ t, t ≤ 3 → encodeWire (matchInstr dist len t) = x ++ [b ||| byteOf t, c] := by
  unfold emitMatch matchInstr
  simp only [Config.m2MaxDist, Config.m2MaxLen, Config.m3MaxDist]
  by_cases hm2 : dist ≤ 2048 ∧ len ≤ 8
  · refine ⟨[], byteOf ((len - 1) * 32 + (dist - 1) % 8 * 4), byteOf ((dist - 1) / 8), by rw [if_pos hm2]; rfl, fun t ht => ?_⟩
    rw [byteOf_or (by omega) (by omega) ht, if_pos hm2]
    split <;> rfl
  · by_cases hm3 : dist ≤ 16384
    · refine ⟨lengthBytes 0x20 2 33 len, byteOf ((dist - 1) % 64 * 4), byteOf ((dist - 1) / 64), ?_, fun t ht => ?_⟩
      · rw [if_neg hm2, if_pos hm3, emitM3, lengthBytes, Config.m3InlineMaxLen]
        congr 1
        by_cases hl : len ≤ 33
        · rw [if_pos hl, if_pos hl]
          rfl
        · rw [if_neg hl, if_neg hl, emitExt_eq _ (by omega)]
          rfl
      · rw [byteOf_or (by omega) (by omega) ht, if_neg hm2, if_pos hm3]
        rfl
    · refine ⟨lengthBytes (0x10 + (dist - 16384) / 16384 * 8) 2 9 len, byteOf ((dist - 16384) % 64 * 4),
        byteOf ((dist - 16384) / 64 % 256), ?_, fun t ht => ?_⟩
      · have hb : (dist - 16384) / 16384 % 2 = (dist - 16384) / 16384 := by omega
        rw [if_neg hm2, if_neg hm3, emitM4, lengthBytes, Config.m4InlineMaxLen]
        simp only [hb]
        congr 1
        by_cases hl : len ≤ 9
        · rw [if_pos hl, if_pos hl]
          rfl
        · rw [if_neg hl, if_neg hl, emitExt_eq _ (by omega)]
          rfl
      · rw [byteOf_or (by omega) (by omega) ht, if_neg hm2, if_neg hm3]
        rfl

/-- The chosen match instruction is well-formed, can stand in any state but `START`, and executes as a
match of that distance, length and count (rule R181). -/
theorem matchInstr_spec (dist len sc : Nat) (h1 : 1 ≤ dist) (h2 : dist ≤ 49151) (h3 : 3 ≤ len) (hsc : sc ≤ 3) :
    (matchInstr dist len sc).isWire = true ∧ (matchInstr dist len sc).wf = true ∧
      (∀ a, a ≠ .start → (matchInstr dist len sc).selectableIn a = true) ∧
      ∀ s : State, s.active = .decoder → exec (matchInstr dist len sc) s = (matchThenLiterals dist len sc s).outcome := by
  unfold matchInstr
  simp only [Config.m2MaxDist, Config.m2MaxLen, Config.m3MaxDist]
  have hsel : ∀ a : St, a ≠ .start → (a != .start) = true := fun a ha => by simpa using ha
  split
  · split
    · refine ⟨rfl, ?_, hsel, fun s hs => inDecompressJob_decoder s _ hs⟩
      simp [Instr.wf, inRange, Config.m2MaxDist, Config.sMax]
      omega
    · refine ⟨rfl, ?_, hsel, fun s hs => inDecompressJob_decoder s _ hs⟩
      simp [Instr.wf, inRange, Config.m2MaxDist, Config.m2MaxLen, Config.sMax]
      omega
  · split
    · refine ⟨rfl, ?_, hsel, fun s hs => inDecompressJob_decoder s _ hs⟩
      simp [Instr.wf, inRange, Config.m3MaxDist, Config.sMax]
      omega
    · refine ⟨rfl, ?_, fun a ha => by simp [Instr.selectableIn, ha], fun s hs => inDecompressJob_decoder s _ hs⟩
      simp [Instr.wf, inRange, Config.m3MaxDist, Config.maxDist, Config.sMax]
      omega

/-! ## The stream a COMPRESS job has written -/

/-- Decoding reads back what `encodeWire` writes; the laws below take it as a hypothesis. -/
def ReadsBack : Prop :=
  ∀ (a : St) (i : Instr) (rest : List Byte), i.isWire = true → i.wf = true → i.selectableIn a = true →
    decode a (encodeWire i ++ rest) = .ok (i, rest)

/-- The stream `z` that an encoder job has written for the first `p` bytes of `m`: nothing, or a part that
the decoder plays, followed by the bytes of a match that ends at `p`, its `S` field still 0. -/
def Written (m : Memory) (cap : Nat) (z : List Byte) (p : Nat) : Prop :=
  (z = [] ∧ p = 0) ∨
  ∃ w a q dist len, z = w ++ emitMatch dist len ∧ p = q + len ∧ a ≠ .start ∧ Plays m cap w .start 0 a q ∧
    1 ≤ dist ∧ dist ≤ q ∧ dist ≤ 49151 ∧ 3 ≤ len ∧ ∀ j, j < len → m.read (q + j) = m.read (q + j - dist)

/-- The stream `z` with a count of `t` put in the `S` field of its last match (rule R186). -/
def patched (z : List Byte) (t : Nat) : List Byte :=
  (z.zipIdx).map fun (b, i) => patchedByte z.length t i b

theorem patched_none {z : List Byte} {t : Nat} (h : t = 0 ∨ 4 ≤ t) : patched z t = z := by
  refine List.ext_getElem (by simp [patched]) fun i h1 h2 => ?_
  simp only [patched, List.getElem_map, List.getElem_zipIdx, Nat.zero_add]
  rw [patchedByte, if_neg (by omega)]

theorem patched_match {x : List Byte} {b c : Byte} {t : Nat} (h : 1 ≤ t ∧ t ≤ 3) :
    patched (x ++ [b, c]) t = x ++ [b ||| byteOf t, c] := by
  refine List.ext_getElem (by simp [patched]) fun i h1 h2 => ?_
  simp only [patched, List.getElem_map, List.getElem_zipIdx, Nat.zero_add]
  simp only [patched, List.length_map, List.length_zipIdx, List.length_append, List.length_cons,
    List.length_nil] at h1 ⊢
  rcases Nat.lt_trichotomy i x.length with hlt | heq | hgt
  · rw [List.getElem_append_left hlt, List.getElem_append_left hlt, patchedByte, if_neg (by omega)]
  · subst heq
    rw [patchedByte, if_pos (by omega)]
    simp
  · obtain rfl : i = x.length + 1 := by omega
    rw [patchedByte, if_neg (by omega)]
    simp

/-- The stream in a buffer after the bytes before `n` were patched. -/
theorem slice_patched {m m' : Memory} {n t : Nat} (h : ∀ a, a < n → m'.read a = patchedByte n t a (m.read a)) :
    m'.slice 0 n = patched (m.slice 0 n) t := by
  refine List.ext_getElem (by simp [patched]) fun i h1 h2 => ?_
  rw [Memory.length_slice] at h1
  simp only [patched, List.getElem_map, List.getElem_zipIdx, Nat.zero_add, Memory.getElem_slice, Memory.length_slice]
  exact h i h1

/-- Flushing `t` literals closes what is written: the decoder plays the whole stream, with the count in the
last match or a header of its own, and is then at `START` only if nothing was flushed at the beginning
(rules R185, R186, R191). -/
theorem plays_flushed (hb : ReadsBack) {m : Memory} {cap : Nat} {z : List Byte} {p : Nat} (hz : Written m cap z p) (t : Nat) :
    ∃ b, Plays m cap (patched z t ++ (runHeader (z.length == 0) t ++ m.slice p t)) .start 0 b (p + t) ∧
      (b = .start → p + t = 0) := by
  have hlitr : ∀ (a : St) (q : Nat), a = .start ∨ a = .s0 → 4 ≤ t →
      Plays m cap (encodeWire (.litr t) ++ m.slice q t) a q .s4 (q + t) := by
    intro a q ha ht
    refine plays_literals (fun rest => hb a (.litr t) rest rfl (by simpa [Instr.wf] using ht)
      (by rcases ha with rfl | rfl <;> rfl)) fun s hs => inDecompressJob_decoder s _ hs
  have hlitrBytes : 18 < t → encodeWire (.litr t) = 0#8 :: extBytes (t - 18) := by
    intro ht
    rw [encodeWire, lengthBytes, if_neg (by omega)]
    rfl
  rcases hz with ⟨rfl, rfl⟩ | ⟨w, a, q, dist, len, rfl, rfl, ha, hw, h1, h2, h2', h3, hrep⟩
  · -- the stream is empty
    simp only [patched, List.zipIdx_nil, List.map_nil, List.nil_append, List.length_nil, BEq.rfl]
    rcases Nat.eq_zero_or_pos t with rfl | ht
    · exact ⟨.start, by simpa [runHeader, Memory.slice] using plays_nil m cap .start 0, fun _ => rfl⟩
    · by_cases h238 : t ≤ 238
      · refine ⟨stAfter t, ?_, fun h => ?_⟩
        · rw [runHeader, if_neg (by omega), if_pos rfl, if_pos h238]
          refine plays_literals (z := encodeWire (.litf t)) (fun rest => hb .start (.litf t) rest rfl ?_ rfl)
            fun s hs => inDecompressJob_decoder s _ hs
          simp only [Instr.wf, inRange, Config.litfMax, Bool.and_eq_true, decide_eq_true_eq]
          omega
        · unfold stAfter at h
          split at h <;> cases h
      · refine ⟨.s4, ?_, fun h => by cases h⟩
        rw [runHeader, if_neg (by omega), if_pos rfl, if_neg h238, ← hlitrBytes (by omega)]
        exact hlitr .start 0 (.inl rfl) (by omega)
  · -- the stream ends with a match
    obtain ⟨x, b, c, hx, henc⟩ := emitMatch_eq dist len h1 h2' h3
    have hne : ((w ++ emitMatch dist len).length == 0) = false := by simp [hx]
    have hplay : ∀ sc, sc ≤ 3 → Plays m cap ((w ++ x ++ [b ||| byteOf sc, c]) ++ m.slice (q + len) sc) .start 0
        (stAfter sc) (q + len + sc) := by
      intro sc hsc
      obtain ⟨g1, g2, g3, g4⟩ := matchInstr_spec dist len sc h1 h2' h3 hsc
      have := plays_append hw (plays_match (m := m) (cap := cap) (z := encodeWire (matchInstr dist len sc))
        (fun rest => hb a _ rest g1 g2 (g3 a ha)) g4 h1 h2 hrep) (by omega)
      rw [henc sc hsc] at this
      simpa [List.append_assoc] using this
    have hst : ∀ n, stAfter n ≠ .start := by
      intro n h
      unfold stAfter at h
      split at h <;> cases h
    rw [hne]
    by_cases ht : 1 ≤ t ∧ t ≤ 3
    · refine ⟨stAfter t, ?_, fun h => absurd h (hst t)⟩
      have hh : runHeader false t = [] := by simp [runHeader, ht.2]
      rw [hh, List.nil_append, hx, ← List.append_assoc w, patched_match ht]
      exact hplay t ht.2
    · rw [patched_none (by omega)]
      have h0 := hplay 0 (by omega)
      simp only [Memory.slice, List.append_nil, Nat.add_zero, show byteOf 0 = 0#8 from rfl, BitVec.or_zero] at h0
      rw [List.append_assoc, ← hx] at h0
      rcases Nat.eq_zero_or_pos t with rfl | hpos
      · exact ⟨stAfter 0, by simpa [runHeader, Memory.slice] using h0, fun h => absurd h (hst 0)⟩
      · refine ⟨.s4, ?_, fun h => by cases h⟩
        have hl := plays_append h0 (hlitr .s0 (q + len) (.inr rfl) (by omega)) (by omega)
        have hh : runHeader false t = encodeWire (.litr t) := by
          by_cases h18 : t ≤ 18
          · rw [encodeWire, lengthBytes, if_pos h18]
            simp [runHeader, show ¬ t = 0 by omega, show ¬ t ≤ 3 by omega, h18]
          · rw [hlitrBytes (by omega)]
            simp [runHeader, show ¬ t = 0 by omega, show ¬ t ≤ 3 by omega, h18]
        rw [hh]
        exact hl

/-- A COMPRESS job that has ended in `t` has written a stream of `n` bytes: the host reads `n` in `OUT_LEN`
where the job ended Ok, in `FAULT_OP` where it ended `NotCompressible` (rules R189, R219). -/
def streamLength (t : State) (n : Nat) : Prop :=
  (t.code = .ok ∧ t.outLen.toNat = n) ∨ (t.code = .notCompressible ∧ t.faultOp.toNat = n)

/-- One step of the encoder keeps the stream written; the step that ends the job leaves a stream that the
decoder plays up to its EOS (rules R166, R167, R187, R191). -/
theorem encoderStep_written (hb : ReadsBack) (cap : Nat) (s : State) (hact : s.active = .encoder) (henc : s.EncoderOk)
    (hwf : s.outMem.wf = true) (hz : Written s.inMem cap (s.outMem.slice 0 s.eop) s.eii) :
    ∃ t, encoderStep s = .next t ∧
      ((t.active = .encoder ∧ Written s.inMem cap (t.outMem.slice 0 t.eop) t.eii) ∨
       (t.active = .idle ∧ ∃ n y b, streamLength t n ∧ t.outMem.slice 0 n = y ++ eosBytes ∧
         Plays s.inMem cap y .start 0 b s.inLen.toNat)) := by
  obtain ⟨horder, hbound, hcap, hemit, htab⟩ := henc
  have hop : s.eop = 0 ∨ 2 ≤ s.eop := by omega
  have heop : s.eop ≤ s.eii + s.eii / 16 := by omega
  unfold worstCase at hcap
  have hzl : (s.outMem.slice 0 s.eop).length = s.eop := Memory.length_slice _ _ _
  by_cases hw : s.eip + 4 ≤ s.inLen.toNat
  · have hstep : encoderStep s = (scanStep s).outcome := by simp [encoderStep, hw]
    obtain ⟨h, -, hlt, hcase⟩ := scanStep_cases s hw htab
    rcases hcase with ⟨-, e⟩ | ⟨m, len, hget, hm, hd, -, hlen, hag, ⟨-, e⟩ | ⟨hacc, e⟩⟩
    · rw [e, passByte, outcome_go] at hstep
      exact ⟨_, hstep, .inl ⟨hact, hz⟩⟩
    · rw [e, passByte, outcome_go] at hstep
      exact ⟨_, hstep, .inl ⟨hact, hz⟩⟩
    · obtain ⟨hl3, hcost⟩ := accepts_iff _ _ hacc
      obtain ⟨hml, -⟩ := length_emitMatch (s.eip - m) len
      obtain ⟨hrh, -, -⟩ := length_runHeader (s.eop == 0) (s.eip - s.eii)
      have hfirst : s.eop = 0 → s.eii = 0 := by omega
      obtain ⟨m1, t, hgo, -, hsl, hpatch, -, -, -⟩ := acceptMatch_spec (s.eip - m) len { s with ht := s.ht.put h s.eip }
        (by show s.eip + len ≤ s.inLen.toNat; omega) horder hop
        (by
          show s.eop + (runHeader (s.eop == 0) (s.eip - s.eii)).length + (s.eip - s.eii) + _ ≤ s.outCap.toNat
          omega) hwf
      rw [e, hgo, outcome_go] at hstep
      refine ⟨_, hstep, .inl ⟨hact, ?_⟩⟩
      obtain ⟨b, hpl, hb0⟩ := plays_flushed hb hz (s.eip - s.eii)
      rw [hzl, show s.eii + (s.eip - s.eii) = s.eip by omega] at hpl
      rw [show s.eii + (s.eip - s.eii) = s.eip by omega] at hb0
      refine .inr ⟨_, b, s.eip, s.eip - m, len, ?_, rfl, fun hb' => ?_, hpl, by omega, by omega, hd, hl3, fun j hj => ?_⟩
      · show m1.slice 0 (s.eop + _ + _ + _) = _
        rw [show ∀ x y z : Nat, s.eop + x + y + z = s.eop + (x + y + z) by intros; omega, Memory.slice_add, Nat.zero_add,
          hsl, slice_patched hpatch]
        simp only [List.append_assoc]
      · have := hb0 hb'
        omega
      · rw [show s.eip + j - (s.eip - m) = m + j by omega]
        exact (hag j hj).symm
  · have hstep : encoderStep s = (tailStep s).outcome := by simp [encoderStep, hw]
    obtain ⟨hrh, -, -⟩ := length_runHeader (s.eop == 0) (s.inLen.toNat - s.eii)
    obtain ⟨m, hfin, -, hsl, hpatch, -⟩ := tailStep_spec s (by omega) hop (by omega) hwf
    obtain ⟨b, hpl, -⟩ := plays_flushed hb hz (s.inLen.toNat - s.eii)
    rw [hzl, show s.eii + (s.inLen.toNat - s.eii) = s.inLen.toNat by omega] at hpl
    have hout : m.slice 0 (s.eop + (runHeader (s.eop == 0) (s.inLen.toNat - s.eii)).length + (s.inLen.toNat - s.eii) + 3) =
        (patched (s.outMem.slice 0 s.eop) (s.inLen.toNat - s.eii) ++
          (runHeader (s.eop == 0) (s.inLen.toNat - s.eii) ++ s.inMem.slice s.eii (s.inLen.toNat - s.eii))) ++ eosBytes := by
      rw [show ∀ x y : Nat, s.eop + x + y + 3 = s.eop + (x + y + 3) by intros; omega, Memory.slice_add, Nat.zero_add,
        hsl, slice_patched hpatch]
      simp only [List.append_assoc]
    rw [hfin] at hstep
    unfold finishCompress at hstep
    have hcw := s.outCap.isLt
    split at hstep <;> rw [outcome_ended] at hstep
    · refine ⟨_, hstep, .inr ⟨rfl, _, _, b, .inr ⟨rfl, ?_⟩, hout, hpl⟩⟩
      show (BitVec.ofNat s.posBits (State.faultCursors _).2).toNat = _
      rw [faultCursors_encoder _ (by exact hact)]
      exact word_toNat (by show s.eop + _ + _ + 3 < _; omega)
    · refine ⟨_, hstep, .inr ⟨rfl, _, _, b, .inl ⟨rfl, ?_⟩, hout, hpl⟩⟩
      show (BitVec.ofNat s.posBits (s.eop + _ + _ + 3)).toNat = _
      exact word_toNat (by omega)

/-- An encoder job runs to its end, and leaves a stream that the decoder plays back to the whole input, up
to its EOS (rules R171 (e), R191). -/
theorem encoder_writes_stream (hb : ReadsBack) (cap : Nat) (s : State) (hact : s.active = .encoder) (hin : s.inputs = [])
    (henc : s.EncoderOk) (hwf : s.outMem.wf = true) (hht : s.ht.wf = true)
    (hz : Written s.inMem cap (s.outMem.slice 0 s.eop) s.eii) :
    ∃ k t, Sys2Proof.core.run k s = .next t ∧ t.active = .idle ∧ t.inputs = [] ∧
      ∃ n y b, streamLength t n ∧ t.outMem.slice 0 n = y ++ eosBytes ∧ Plays s.inMem cap y .start 0 b s.inLen.toNat := by
  obtain ⟨n, hn⟩ : ∃ n, s.inLen.toNat - s.eip = n := ⟨_, rfl⟩
  induction n using Nat.strong_induction_on generalizing s with
  | _ n ih =>
    have hse : step s = encoderStep s := by rw [step_engine hin, engineStep_encoder hact]
    obtain ⟨t, ht, hc⟩ := encoderStep_written hb cap s hact henc hwf hz
    have hst : step s = .next t := by rw [hse, ht]
    have hsame := engineStep_same (show engineStep s = .next t by rw [engineStep_encoder hact, ht])
    rcases hc with ⟨hta, htz⟩ | ⟨hta, hy⟩
    · rcases encoderStep_cases s henc hwf hht with ⟨m, tb, ip, ii, op, e, hm, htb, hlt, hok⟩ | ⟨m, k, -, -, -, ⟨-, e⟩ | ⟨-, e⟩⟩
      · obtain rfl : t = _ := Host.Outcome.next.inj (ht.symm.trans e)
        have hlt' : s.inLen.toNat - ip < n := by
          have := hok.bound
          simp only at this
          omega
        obtain ⟨k, u, hk, hu⟩ := ih _ hlt' _ hta hin hok hm.wf htb htz rfl
        exact ⟨k + 1, u, by rw [run_next k hst]; exact hk, hu⟩
      · obtain rfl : t = _ := Host.Outcome.next.inj (ht.symm.trans e)
        cases hta
      · obtain rfl : t = _ := Host.Outcome.next.inj (ht.symm.trans e)
        cases hta
    · exact ⟨1, t, run_one hst, hta, hsame.noInput hin, hy⟩

/-- A job that plays a stream up to an EOS at the end of the input, and then has the whole output, ends Ok
(rule R130). -/
theorem decoder_ends_stream {m : Memory} {cap : Nat} {y : List Byte} {b : St} {d : State}
    (hp : Plays m cap y .start 0 b cap) (hd : AtBoundary m (y ++ eosBytes) .start 0 d) (hc : d.outCap.toNat = cap) :
    ∃ k e, Sys2Proof.core.run k d = .next e ∧ e.active = .idle ∧ e.inputs = [] ∧ e.code = .ok ∧ e.outLen.toNat = cap ∧
      ∀ a, a < cap → e.outMem.read a = m.read a := by
  obtain ⟨k, e, hk, he, hec⟩ := hp d eosBytes hd hc le_rfl
  have hdec : decode b (eosBytes ++ []) = .ok (.eos, []) := by cases b <;> rfl
  have hstep := step_atBoundary (rest := []) (z := eosBytes) (by rw [List.append_nil]; exact he) hdec
  set s1 : State := { e with ipc := e.ip, opc := e.op, ip := e.ip + eosBytes.length } with hs1
  have hx : exec .eos s1 = (endOfStream s1).outcome := inDecompressJob_decoder s1 _ he.active
  have hop : s1.op = s1.outCap.toNat := by
    show e.op = e.outCap.toNat
    rw [he.op, hec, hc]
  have hlen : e.inLen.toNat - e.ip = 3 := by
    have := congrArg List.length he.unread
    simpa [State.unread, eosBytes] using this
  have hip : s1.ip = s1.inLen.toNat := by
    show e.ip + 3 = e.inLen.toNat
    omega
  rw [hx] at hstep
  rcases endOfStream_cases s1 with ⟨g, -⟩ | ⟨-, g, -⟩ | ⟨-, -, g⟩
  · exact absurd hop g
  · exact absurd hip g
  · rw [g, outcome_ended] at hstep
    refine ⟨k + 1, _, (run_add 1 hk).trans (run_one hstep), rfl, he.inputs, rfl, ?_, fun a ha => he.out a ha⟩
    have hcw := e.outCap.isLt
    have hop' : s1.op = cap := he.op
    show (BitVec.ofNat e.posBits s1.op).toNat = cap
    rw [hop']
    exact word_toNat (by omega)

end Sys2Proof.Laws
end

