-- ==== Sys2Proof/Tests/Slice0.lean ====
section
/-!
SUPPORT. Tests. Expected values are those of the spec's rules and of 95_test_vectors.md (named D<n>, F<n>,
E<n>, H<n> in the comments); then, for every statement with hypotheses, a concrete case that meets them.
-/

-- The tests are many and short: one after another they need few threads.
set_option Elab.async false

namespace Sys2Proof.Tests

open Sys2Proof.Machine

/-! ## WellFormed: each check refuses an ill-formed term -/

theorem test_wf_litf : Instr.wf (.litf 0) = false ∧ Instr.wf (.litf 239) = false ∧ Instr.wf (.litf 238) = true := by decide

theorem test_wf_litr : Instr.wf (.litr 3) = false ∧ Instr.wf (.litr 4) = true := by decide

theorem test_wf_m1n : Instr.wf (.m1n 0 0) = false ∧ Instr.wf (.m1n 1025 0) = false ∧ Instr.wf (.m1n 1 4) = false ∧
    Instr.wf (.m1n 1024 3) = true := by decide

theorem test_wf_m1f : Instr.wf (.m1f 2048 0) = false ∧ Instr.wf (.m1f 3073 0) = false ∧ Instr.wf (.m1f 2049 4) = false ∧
    Instr.wf (.m1f 3072 3) = true := by decide

theorem test_wf_m2s : Instr.wf (.m2s 0 3 0) = false ∧ Instr.wf (.m2s 2049 3 0) = false ∧ Instr.wf (.m2s 1 2 0) = false ∧
    Instr.wf (.m2s 1 5 0) = false ∧ Instr.wf (.m2s 1 3 4) = false ∧ Instr.wf (.m2s 2048 4 3) = true := by decide

theorem test_wf_m2l : Instr.wf (.m2l 0 5 0) = false ∧ Instr.wf (.m2l 2049 5 0) = false ∧ Instr.wf (.m2l 1 4 0) = false ∧
    Instr.wf (.m2l 1 9 0) = false ∧ Instr.wf (.m2l 1 5 4) = false ∧ Instr.wf (.m2l 2048 8 3) = true := by decide

theorem test_wf_m3 : Instr.wf (.m3 0 3 0) = false ∧ Instr.wf (.m3 16385 3 0) = false ∧ Instr.wf (.m3 1 2 0) = false ∧
    Instr.wf (.m3 1 3 4) = false ∧ Instr.wf (.m3 16384 1000 3) = true := by decide

theorem test_wf_m4 : Instr.wf (.m4 16384 3 0) = false ∧ Instr.wf (.m4 49152 3 0) = false ∧
    Instr.wf (.m4 16385 2 0) = false ∧ Instr.wf (.m4 16385 3 4) = false ∧ Instr.wf (.m4 49151 1000 3) = true := by decide

/-- The `state` column of the opcode map (rule R80). -/
theorem test_selectable : Instr.selectableIn .s0 (.litf 1) = false ∧ Instr.selectableIn .start (.m3 1 3 0) = false ∧
    Instr.selectableIn .s4 (.litr 4) = false ∧ Instr.selectableIn .s0 (.m1n 1 0) = false ∧
    Instr.selectableIn .s3 (.m1f 2049 0) = false ∧ Instr.selectableIn .start (.m4 32768 3 0) = false ∧
    Instr.selectableIn .start (.m4 16385 4 0) = false ∧ Instr.selectableIn .start (.m4 16385 10 0) = true ∧
    Instr.selectableIn .start .nop = false := by decide

/-! ## Decoding: words written out bit by bit from the formats (rules R72 to R81) -/

/-- LITF, `T = 17 + t` (D2, D9). -/
theorem test_decode_litf : decode .start [0b00010100#8, 0x66#8] = .ok (.litf 3, [0x66#8]) ∧
    decode .start [0b11111111#8] = .ok (.litf 238, []) := ⟨rfl, rfl⟩

/-- LITR, `0000LLLL` (D3, D6, D8). -/
theorem test_decode_litr : decode .s0 [0b00000011#8] = .ok (.litr 6, []) ∧
    decode .start [0b00000000#8, 0b00000001#8] = .ok (.litr 19, []) ∧
    decode .s0 [0#8, 0#8, 0b00000001#8] = .ok (.litr 274, []) := ⟨rfl, rfl, rfl⟩

/-- M1N, `0000DDSS HHHHHHHH` in states 1 to 3 (D10, D11, F9). -/
theorem test_decode_m1n : decode .s1 [0b00000000#8, 0#8] = .ok (.m1n 1 0, []) ∧
    decode .s2 [0b00000101#8, 0b00000001#8] = .ok (.m1n 6 1, []) ∧
    decode .s3 [0b00001111#8, 0b11111111#8] = .ok (.m1n 1024 3, []) := ⟨rfl, rfl, rfl⟩

/-- M1F, the same words in state 4 (D15). -/
theorem test_decode_m1f : decode .s4 [0b00000000#8, 0#8] = .ok (.m1f 2049 0, []) ∧
    decode .s4 [0b00001111#8, 0b11111111#8] = .ok (.m1f 3072 3, []) := ⟨rfl, rfl⟩

/-- M2S, `01LDDDSS HHHHHHHH` (D11, F7). -/
theorem test_decode_m2s : decode .s1 [0b01000011#8, 0#8] = .ok (.m2s 1 3 3, []) ∧
    decode .s1 [0b01000000#8, 0b00000001#8] = .ok (.m2s 9 3 0, []) ∧
    decode .s0 [0b01111100#8, 0b11111111#8] = .ok (.m2s 2048 4 0, []) := ⟨rfl, rfl, rfl⟩

/-- M2L, `1LLDDDSS HHHHHHHH` (D12, D14). -/
theorem test_decode_m2l : decode .s2 [0b11000100#8, 0#8] = .ok (.m2l 2 7 0, []) ∧
    decode .s4 [0b11111110#8, 0#8] = .ok (.m2l 8 8 2, []) ∧
    decode .s0 [0b10000000#8, 0#8] = .ok (.m2l 1 5 0, []) := ⟨rfl, rfl, rfl⟩

/-- M3, `001LLLLL [ext] DDDDDDSS DDDDDDDD` (D5, D16b, D17). -/
theorem test_decode_m3 : decode .s1 [0b00110001#8, 0#8, 0#8] = .ok (.m3 1 19 0, []) ∧
    decode .s1 [0b00100000#8, 0x01#8, 0#8, 0#8] = .ok (.m3 1 34 0, []) ∧
    decode .s0 [0b00100001#8, 0b11111100#8, 0b11111111#8] = .ok (.m3 16384 3 0, []) := ⟨rfl, rfl, rfl⟩

/-- M4, `0001HLLL [ext] DDDDDDSS DDDDDDDD` (D18, D19, F20). -/
theorem test_decode_m4 : decode .s0 [0b00010011#8, 0b00000100#8, 0#8] = .ok (.m4 16385 5 0, []) ∧
    decode .s0 [0b00011000#8, 0x01#8, 0b00001001#8, 0#8] = .ok (.m4 32770 10 1, []) ∧
    decode .s0 [0b00011001#8, 0b11111100#8, 0b11111111#8] = .ok (.m4 49151 3 0, []) ∧
    decode .s1 [0b00011100#8, 0#8, 0#8] = .ok (.m4 32768 6 0, []) := ⟨rfl, rfl, rfl, rfl⟩

/-- EOS: `D14 = 0` and `H1 = 0`, its length field and `S` ignored (D1, D20a, D20b, D20c). -/
theorem test_decode_eos : decode .start [0b00010001#8, 0#8, 0#8] = .ok (.eos, []) ∧
    decode .start [0b00010000#8, 0x01#8, 0#8, 0#8] = .ok (.eos, []) ∧
    decode .start [0b00010001#8, 0b00000001#8, 0#8] = .ok (.eos, []) ∧
    decode .s4 [0b00010111#8, 0#8, 0#8] = .ok (.eos, []) := ⟨rfl, rfl, rfl, rfl⟩

/-- The commands by `CMD[1:0]`, and a reserved bit (rules R201 to R205). -/
theorem test_decode_command : decodeCommand 0b00#32 = some .nop ∧ decodeCommand 0b01#32 = some .init ∧
    decodeCommand 0b10#32 = some .compress ∧ decodeCommand 0b11#32 = some .decompress ∧
    decodeCommand 0b111#32 = none := ⟨rfl, rfl, rfl, rfl, rfl⟩

/-- An instruction the input ends inside is rejected by name (F12, F17, F18). -/
theorem test_decode_rejects : decode .start [] = .error .noTag ∧ decode .start [0x10#8, 0#8, 0#8] = .error .truncated ∧
    decode .s1 [0x31#8, 0#8] = .error .truncated ∧ decode .s1 [0x40#8] = .error .truncated := ⟨rfl, rfl, rfl, rfl⟩

/-- Encodings of rule R84 against the vectors D14, D18, and the words of a command. -/
theorem test_encode : encode (.m2l 8 8 2) = .stream [0xFE#8, 0x00#8] ∧
    encode (.m4 32770 10 1) = .stream [0x18#8, 0x01#8, 0x09#8, 0x00#8] ∧
    encode (.litr 274) = .stream [0x00#8, 0x00#8, 0x01#8] ∧ encode .decompress = .command 3 := ⟨rfl, rfl, rfl, rfl⟩

/-! ## Single steps -/

/-- A DECOMPRESS job on `stream`, about to execute its first byte in state `st`, with `out` written. -/
def decoding (st : St) (stream out : List Byte) (cap : Nat) : State :=
  { State.reset with
    active := .decoder
    initOk := true
    st := st
    inMem := Memory.writeBytes [] 0 stream
    inLen := BitVec.ofNat 32 stream.length
    outMem := Memory.writeBytes [] 0 out
    op := out.length
    outCap := BitVec.ofNat 32 cap }

/-- A COMPRESS job on `input` at scan position `p` with `ii` at `q`, table `t`, stream `out`. -/
def encoding (input out : List Byte) (p q : Nat) (t : HashTable) : State :=
  { State.reset with
    active := .encoder
    initOk := true
    inMem := Memory.writeBytes [] 0 input
    inLen := BitVec.ofNat 32 input.length
    outMem := Memory.writeBytes [] 0 out
    outCap := BitVec.ofNat 32 (worstCase input.length)
    eip := p
    eii := q
    eop := out.length
    ht := t }

/-- An idle CORE of width `w` after INIT with `stream` in `IN`, whose host is about to write `v` to `CMD`. -/
def readyAt (w v : Nat) (stream : List Byte) (cap : Nat) : State :=
  { State.resetOf w with
    initOk := true
    inMem := Memory.writeBytes [] 0 stream
    inLen := BitVec.ofNat w stream.length
    outCap := BitVec.ofNat w cap
    inputs := [.writeReg 0 (BitVec.ofNat w v)] }

/-- The same at the default width. -/
def ready (v : Nat) (stream : List Byte) (cap : Nat) : State := readyAt 32 v stream cap

/-- What a decoder step leaves: the cursors, `st`, and the output written so far. -/
def boundary : Host.Outcome State Fault Refusal → Option (Nat × Nat × St × List Byte)
  | .next t => if t.active = .decoder then some (t.ip, t.op, t.st, t.outMem.slice 0 t.op) else none
  | _ => none

/-- What the host reads after the job's last step: `STATUS`, `OUT_LEN`, `FAULT_IP`, `FAULT_OP`. -/
def result : Host.Outcome State Fault Refusal → Option (Nat × Nat × Nat × Nat)
  | .next t => some ((t.readReg 1).toNat, (t.readReg 4).toNat, (t.readReg 5).toNat, (t.readReg 6).toNat)
  | _ => none

/-- D2: LITF 3 "foo" leaves (4, 3, 3). -/
theorem test_litf : boundary (step (decoding .start [0x14#8, 0x66#8, 0x6F#8, 0x6F#8, 0x11#8, 0#8, 0#8] [] 3)) =
    some (4, 3, .s3, [0x66#8, 0x6F#8, 0x6F#8]) := by decide +kernel

/-- F14b: both checks of the literal copy fail, the input check is first. -/
theorem test_litf_inputOverrun : result (step (decoding .start [0x16#8, 0x61#8] [] 0)) = some (0x406, 0, 0, 0) := by
  decide +kernel

/-- D4: LITR 4 "abcd" leaves state 4. -/
theorem test_litr : boundary (step (decoding .start [0x01#8, 0x61#8, 0x62#8, 0x63#8, 0x64#8] [] 4)) =
    some (5, 4, .s4, [0x61#8, 0x62#8, 0x63#8, 0x64#8]) := by decide +kernel

/-- D11: M1N 2 copies "yz" in state 3. -/
theorem test_m1n : boundary (step (decoding .s3 [0x04#8, 0x00#8] [0x78#8, 0x79#8, 0x7A#8] 5)) =
    some (2, 5, .s0, [0x78#8, 0x79#8, 0x7A#8, 0x79#8, 0x7A#8]) := by decide +kernel

/-- F10: tag `01` in state 4 is M1F at distance 2049, farther back than the output. -/
theorem test_m1f_lookbehind : result (step (decoding .s4 [0x01#8, 0x00#8] [0x61#8] 10)) = some (0x606, 0, 0, 1) := by
  decide +kernel

/-- D11: M2S 1, 3, 3 copies one byte three times and takes three literals. -/
theorem test_m2s : boundary (step (decoding .s1 [0x43#8, 0x00#8, 0x78#8, 0x79#8, 0x7A#8] [0x61#8] 7)) =
    some (5, 7, .s3, [0x61#8, 0x61#8, 0x61#8, 0x61#8, 0x78#8, 0x79#8, 0x7A#8]) := by decide +kernel

/-- F8: both checks of the match copy fail, the lookbehind check is first. -/
theorem test_m2s_lookbehind : result (step (decoding .s1 [0x40#8, 0x01#8] [0x61#8] 1)) = some (0x606, 0, 0, 1) := by
  decide +kernel

/-- D12: M2L 2, 7, 0 repeats the two bytes before it. -/
theorem test_m2l : boundary (step (decoding .s2 [0xC4#8, 0x00#8] [0x61#8, 0x62#8] 9)) =
    some (2, 9, .s0, [0x61#8, 0x62#8, 0x61#8, 0x62#8, 0x61#8, 0x62#8, 0x61#8, 0x62#8, 0x61#8]) := by decide +kernel

/-- F15: the match of an M3 is copied, then its trailing literal is missing; `FAULT_OP` is the cursor at
the start of the instruction. -/
theorem test_m3_inputOverrun : result (step (decoding .s1 [0x21#8, 0x01#8, 0x00#8] [0x61#8] 10)) =
    some (0x406, 0, 0, 1) := by decide +kernel

/-- F6: a match that does not fit is refused whole. -/
theorem test_m3_outputOverrun : result (step (decoding .s1 [0x31#8, 0x00#8, 0x00#8] [0x61#8] 19)) =
    some (0x506, 0, 0, 1) := by decide +kernel

/-- F20: tag `1C` is M4 at distance 32768 although its distance bytes are zero. -/
theorem test_m4_lookbehind : result (step (decoding .s1 [0x1C#8, 0x00#8, 0x00#8] [0x61#8] 5)) =
    some (0x606, 0, 0, 1) := by decide +kernel

/-- M4 from distance 16385 in a buffer that holds only its first byte: the zero bytes between are unlisted. -/
theorem test_m4 : (match execM4 16385 3 0 { decoding .s0 [] [0x61#8] 20000 with op := 16385 } with
    | .next t => some (t.op, t.st, t.outMem.read 16385, t.outMem.read 16386)
    | _ => none) = some (16388, .s0, 0x61#8, 0#8) := by decide +kernel

/-- D1: EOS ends the job of the empty stream with Ok. -/
theorem test_eos : result (step (decoding .start [0x11#8, 0#8, 0#8] [] 0)) = some (6, 0, 0, 0) := by decide +kernel

/-- F5: both checks of EOS fail, the output check is first. -/
theorem test_eos_outputNotConsumed : result (step (decoding .start [0x11#8, 0#8, 0#8, 0#8] [] 1)) =
    some (0xC06, 0, 0, 0) := by decide +kernel

/-- F18: nothing left where a tag is due. -/
theorem test_eofNotFound : result (step (decoding .start [] [] 20)) = some (0x706, 0, 0, 0) := by decide +kernel

/-- NOP after reset: `STATUS` still reads 0 (rule R201). -/
theorem test_nop : result (step { State.reset with inputs := [.writeReg 0 0] }) = some (0, 0, 0, 0) := by decide +kernel

/-- INIT after reset: `STATUS` reads `INIT_OK` and `DONE` (rule R202, H1). -/
theorem test_init : result (step { State.reset with inputs := [.writeReg 0 1] }) = some (6, 0, 0, 0) := by decide +kernel

/-- COMPRESS before INIT: `Error` with `INIT_OK = 0` (rule R217). -/
theorem test_compress_beforeInit : result (step { State.reset with inputs := [.writeReg 0 2] }) =
    some (0x102, 0, 0, 0) := by decide +kernel

/-- COMPRESS of 20 bytes needs a capacity of 20 + 1 + 67 = 88 (rule R218). -/
theorem test_compress_capacity : result (step (ready 2 (List.replicate 20 0x61#8) 87)) = some (0x206, 0, 0, 0) ∧
    result (step (ready 2 (List.replicate 20 0x61#8) 88)) = some (5, 0, 0, 0) := by decide +kernel

/-- DECOMPRESS after INIT: `STATUS` reads `INIT_OK` and `BUSY` (rules R40, R204). -/
theorem test_decompress : result (step (ready 3 [0x11#8, 0#8, 0#8] 0)) = some (5, 0, 0, 0) := by decide +kernel

/-- A reserved bit set: `InvalidArgument` although `OP = 3` (rule R205). -/
theorem test_reservedBits : result (step (ready 0x80000003 [] 0)) = some (0xA06, 0, 0, 0) := by decide +kernel

/-- Two other widths (rule R8): `CFG` reads `0x0E40` and `0x0E10`; an end of the stream and a capacity
check at 16 and at 64 bits. -/
theorem test_width : ((State.resetOf 64).readReg 7).toNat = 0x0E40 ∧ ((State.resetOf 16).readReg 7).toNat = 0x0E10 ∧
    result (step (readyAt 64 2 (List.replicate 20 0x61#8) 87)) = some (0x206, 0, 0, 0) ∧
    result (step (readyAt 16 0x8003 [] 0)) = some (0xA06, 0, 0, 0) := by decide +kernel

/-- E3: the hash of four bytes `61`. -/
theorem test_hash : hashWindow 0x61#8 0x61#8 0x61#8 0x61#8 = 10077 ∧ hashWindow 0x61#8 0x62#8 0x63#8 0x61#8 = 4541 ∧
    hashWindow 0#8 1#8 2#8 3#8 = 8223 := by decide +kernel

/-- E3: the step at position 1 emits the literal and M3 1, 19, 0. -/
theorem test_scan_match : (match step (encoding (List.replicate 20 0x61#8) [] 1 0 [(10077, 0)]) with
    | .next t => some (t.eip, t.eii, t.eop, t.outMem.slice 0 5, t.ht.get 10077)
    | _ => none) = some (20, 20, 5, [0x12#8, 0x61#8, 0x31#8, 0#8, 0#8], some 16) := by decide +kernel

/-- E11 with k = 1: the tail's literal rides in the match (`C0` becomes `C1`), Ok with 8 bytes. -/
theorem test_tail_backPatch :
    (match step (encoding (List.replicate 8 0x61#8 ++ [0x30#8]) [0x12#8, 0x61#8, 0xC0#8, 0#8] 8 8 []) with
    | .next t => some ((t.readReg 1).toNat, (t.readReg 4).toNat, t.outMem.slice 0 8)
    | _ => none) = some (6, 8, [0x12#8, 0x61#8, 0xC1#8, 0#8, 0x30#8, 0x11#8, 0#8, 0#8]) := by decide +kernel

/-- E2: "foo" ends `NotCompressible` with a stream of 7 bytes. -/
theorem test_tail_notCompressible : result (step (encoding [0x66#8, 0x6F#8, 0x6F#8] [] 0 0 [])) =
    some (0x306, 0, 0, 7) := by decide +kernel

/-- E9: `EmitExt(131038)` is 513 zero bytes and `DF`; E12: `EmitExt(221)` and `EmitExt(282)`. -/
theorem test_emitExt : emitExt 221 = [0xDD#8] ∧ emitExt 282 = [0#8, 0x1B#8] ∧ (extBytes 131038).length = 514 := by
  decide +kernel

/-- The opcode table's words: a tag row's lowest word and a command's value. -/
theorem test_tableWords : decodeTableWord 8 0x80 = some (.m2l 1 5 0) ∧ decodeTableWord 8 0x40 = some (.m2s 1 3 0) ∧
    decodeTableWord 8 0x20 = some (.m3 1 34 0) ∧ decodeTableWord 8 0x18 = some (.m4 32768 10 0) ∧
    decodeTableWord 8 0x11 = some .eos ∧ decodeTableWord 8 0x00 = some (.litr 19) ∧
    decodeTableWord 32 2 = some .compress := by decide +kernel

/-- `withFetchWord` gives the next step the word's instruction: a command, a lookbehind fault. -/
theorem test_withFetchWord : result (step (State.reset.withFetchWord 32 1)) = some (6, 0, 0, 0) ∧
    result (step (State.reset.withFetchWord 8 0x80)) = some (0x606, 0, 0, 0) := by decide +kernel

/-! ## Witnesses: for every statement with hypotheses, a case that meets them all -/

/-- DecodeReadsBackEncode: one instruction of each format, at the ends of its operand ranges. -/
theorem witness_decodeReadsBackEncode :
    (∀ p ∈ [(St.start, Instr.litf 1), (.start, .litf 238), (.s0, .litr 4), (.start, .litr 274), (.s1, .m1n 1 0),
      (.s3, .m1n 1024 3), (.s4, .m1f 2049 0), (.s4, .m1f 3072 3), (.s0, .m2s 1 3 0), (.s4, .m2s 2048 4 3),
      (.s2, .m2l 1 5 0), (.s2, .m2l 2048 8 3), (.s0, .m3 1 3 0), (.s0, .m3 16384 34 3), (.start, .m4 16385 3 0),
      (.s0, .m4 49151 10 3), (.start, .eos)],
      p.2.isWire = true ∧ p.2.wf = true ∧ p.2.selectableIn p.1 = true) := by decide

/-- DecodedBytesAreTheEncoding and DecodedInstructionIsWellFormed. -/
theorem witness_decoded : decode .s0 [0x18#8, 0x01#8, 0x09#8, 0x00#8, 0x5A#8] = .ok (.m4 32770 10 1, [0x5A#8]) ∧
    Instr.m4 32770 10 1 ≠ .eos := ⟨rfl, by decide⟩

/-- OnlyMissingBytesAreRejected: bytes that end inside an instruction. -/
theorem witness_truncated : decode .s0 [0x18#8, 0x01#8, 0x09#8] = .error .truncated := rfl

/-- ExtensionReadsBack: a closing byte, and a value written by `EmitExt`. -/
theorem witness_extension : (0x01#8 : Byte) ≠ 0#8 ∧ (0xFF#8 : Byte) ≠ 0#8 ∧ 1 ≤ 255 := by decide

/-- StepRunsTheDecodedInstruction: with the host absent, polling, yielding a turn, and writing a command. -/
theorem witness_stepRuns :
    (let s := decoding .s1 [0x43#8, 0#8, 0x78#8, 0x79#8, 0x7A#8] [0x61#8] 7;
      s.active = .decoder ∧ s.inputs = [] ∧
        decode s.st s.unread = .ok (.m2s 1 3 3, [0x78#8, 0x79#8, 0x7A#8])) ∧
    (let s := { decoding .s1 [0x43#8, 0#8] [0x61#8] 7 with inputs := [.awaitDone] };
      s.active = .decoder ∧ s.inputs = .awaitDone :: [] ∧ decode s.st s.unread = .ok (.m2s 1 3 3, [])) ∧
    (let s := { decoding .s1 [0x43#8, 0#8] [0x61#8] 7 with inputs := [.engineTurn, .hardReset] };
      s.active = .decoder ∧ s.inputs = .engineTurn :: [.hardReset] ∧
        decode s.st s.unread = .ok (.m2s 1 3 3, [])) ∧
    (let s := ready 2 [] 100;
      s.active = .idle ∧ s.inputs = .writeReg 0 2#32 :: [] ∧ decodeCommand 2#32 = some .compress) :=
  ⟨⟨rfl, rfl, rfl⟩, ⟨rfl, rfl, rfl⟩, ⟨rfl, rfl, rfl⟩, ⟨rfl, rfl, rfl⟩⟩

/-- HostWaitsForTheEngine: an idle CORE polled, with no pending move, and given a turn; a running one
polled. -/
theorem witness_hostWaits :
    (let s := { State.reset with inputs := [.awaitDone] }; s.active = .idle ∧ s.inputs = .awaitDone :: []) ∧
    (State.reset.active = .idle ∧ State.reset.inputs = []) ∧
    (let s := { State.reset with inputs := [.engineTurn] }; s.active = .idle ∧ s.inputs = .engineTurn :: []) ∧
    (let s := { decoding .s1 [0x31#8, 0x00#8, 0x00#8] [0x61#8] 20 with inputs := [.awaitDone] };
      s.active ≠ .idle ∧ s.inputs = .awaitDone :: [] ∧ ∃ t, step s = .next t) :=
  ⟨⟨rfl, rfl⟩, ⟨rfl, rfl⟩, ⟨rfl, rfl⟩, ⟨by decide, rfl, ⟨_, rfl⟩⟩⟩

/-- MissingEndMarkerIsReported. -/
theorem witness_missingEndMarker : (decoding .s4 [] [0x61#8] 1).active = .decoder ∧
    (decoding .s4 [] [0x61#8] 1).inputs = [] ∧
    (decoding .s4 [] [0x61#8] 1).ip = (decoding .s4 [] [0x61#8] 1).inLen.toNat := ⟨rfl, rfl, rfl⟩

/-- A decoding state stands at an instruction boundary of its stream. -/
theorem witness_atInstruction :
    atInstruction (decoding .start [0x12#8, 0x61#8] [] 1) [0x12#8, 0x61#8] ∧
    atInstruction (decoding .s1 [0x21#8, 0#8, 0#8] [0x61#8] 4) [0x21#8, 0#8, 0#8] := ⟨⟨rfl, rfl, rfl, rfl⟩, ⟨rfl, rfl, rfl, rfl⟩⟩

/-- LitfExecutes: the smallest and the largest tag. -/
theorem witness_litf :
    (atInstruction (decoding .start [0x12#8, 0x61#8] [] 1) (0x12#8 :: [0x61#8]) ∧
      (decoding .start [0x12#8, 0x61#8] [] 1).st = .start ∧ 18 ≤ (0x12#8 : Byte).toNat) ∧
    (atInstruction (decoding .start [0xFF#8] [] 0) (0xFF#8 :: []) ∧ (decoding .start [0xFF#8] [] 0).st = .start ∧
      18 ≤ (0xFF#8 : Byte).toNat) :=
  ⟨⟨⟨rfl, rfl, rfl, rfl⟩, rfl, by decide⟩, ⟨⟨rfl, rfl, rfl, rfl⟩, rfl, by decide⟩⟩

/-- No bytes carry an extended length. -/
theorem nothing_carries (base v : Nat) (ext more : List Byte) (h : carriesLength 0 base ext v) :
    ([] : List Byte) ≠ ext ++ more := by
  obtain ⟨k, e, rfl, -, -⟩ := h
  simp

/-- LitrExecutes: an inline count at tag `0F`, an extended count at tag `00`, and an extension that does
not end. -/
theorem witness_litr :
    (atInstruction (decoding .s0 [0x0F#8] [] 0) (0x0F#8 :: []) ∧ (0x0F#8 : Byte).toNat ≤ 15 ∧
      carriesLength ((0x0F#8 : Byte).toNat % 16) 15 [] 15) ∧
    (atInstruction (decoding .start [0x00#8, 0x00#8, 0x01#8] [] 0) (0x00#8 :: [0x00#8, 0x01#8]) ∧
      carriesLength ((0x00#8 : Byte).toNat % 16) 15 [0x00#8, 0x01#8] 271) ∧
    (atInstruction (decoding .s0 [0x00#8] [] 0) (0x00#8 :: []) ∧
      ¬ ∃ ext v more, carriesLength ((0x00#8 : Byte).toNat % 16) 15 ext v ∧ [] = ext ++ more) :=
  ⟨⟨⟨rfl, rfl, rfl, rfl⟩, by decide, ⟨rfl, rfl⟩⟩,
    ⟨⟨rfl, rfl, rfl, rfl⟩, ⟨1, 0x01#8, rfl, by decide, rfl⟩⟩,
    ⟨⟨rfl, rfl, rfl, rfl⟩, fun ⟨ext, v, more, h, e⟩ => nothing_carries 15 v ext more h e⟩⟩

/-- M1nExecutes: with and without the byte `H`, at both ends of the tag range. -/
theorem witness_m1n :
    (atInstruction (decoding .s1 [0x00#8, 0x00#8] [0x61#8] 3) (0x00#8 :: [0x00#8]) ∧
      (decoding .s1 [0x00#8, 0x00#8] [0x61#8] 3).st = .s1 ∧ (0x00#8 : Byte).toNat ≤ 15) ∧
    (atInstruction (decoding .s3 [0x0F#8] [0x61#8] 3) (0x0F#8 :: []) ∧ (decoding .s3 [0x0F#8] [0x61#8] 3).st = .s3 ∧
      (0x0F#8 : Byte).toNat ≤ 15) :=
  ⟨⟨⟨rfl, rfl, rfl, rfl⟩, rfl, by decide⟩, ⟨⟨rfl, rfl, rfl, rfl⟩, rfl, by decide⟩⟩

/-- M1fExecutes: with and without the byte `H`. -/
theorem witness_m1f :
    (atInstruction (decoding .s4 [0x00#8, 0x00#8] [0x61#8] 3) (0x00#8 :: [0x00#8]) ∧
      (decoding .s4 [0x00#8, 0x00#8] [0x61#8] 3).st = .s4 ∧ (0x00#8 : Byte).toNat ≤ 15) ∧
    (atInstruction (decoding .s4 [0x0F#8] [0x61#8] 3) (0x0F#8 :: []) ∧ (decoding .s4 [0x0F#8] [0x61#8] 3).st = .s4 ∧
      (0x0F#8 : Byte).toNat ≤ 15) :=
  ⟨⟨⟨rfl, rfl, rfl, rfl⟩, rfl, by decide⟩, ⟨⟨rfl, rfl, rfl, rfl⟩, rfl, by decide⟩⟩

/-- M2sExecutes and M2lExecutes: with and without the byte `H`, at the ends of the tag ranges. -/
theorem witness_m2 :
    (atInstruction (decoding .s0 [0x40#8, 0x00#8] [0x61#8] 4) (0x40#8 :: [0x00#8]) ∧
      (decoding .s0 [0x40#8, 0x00#8] [0x61#8] 4).st ≠ .start ∧ 0x40 ≤ (0x40#8 : Byte).toNat ∧ (0x40#8 : Byte).toNat ≤ 0x7F) ∧
    (atInstruction (decoding .s4 [0x7F#8] [0x61#8] 4) (0x7F#8 :: []) ∧ (decoding .s4 [0x7F#8] [0x61#8] 4).st ≠ .start ∧
      0x40 ≤ (0x7F#8 : Byte).toNat ∧ (0x7F#8 : Byte).toNat ≤ 0x7F) ∧
    (atInstruction (decoding .s0 [0x80#8, 0x00#8] [0x61#8] 6) (0x80#8 :: [0x00#8]) ∧
      (decoding .s0 [0x80#8, 0x00#8] [0x61#8] 6).st ≠ .start ∧ 0x80 ≤ (0x80#8 : Byte).toNat) ∧
    (atInstruction (decoding .s4 [0xFF#8] [0x61#8] 6) (0xFF#8 :: []) ∧ (decoding .s4 [0xFF#8] [0x61#8] 6).st ≠ .start ∧
      0x80 ≤ (0xFF#8 : Byte).toNat) :=
  ⟨⟨⟨rfl, rfl, rfl, rfl⟩, by decide, by decide, by decide⟩, ⟨⟨rfl, rfl, rfl, rfl⟩, by decide, by decide, by decide⟩,
    ⟨⟨rfl, rfl, rfl, rfl⟩, by decide, by decide⟩, ⟨⟨rfl, rfl, rfl, rfl⟩, by decide, by decide⟩⟩

/-- M3Executes: an inline length at tag `3F`, an extended one at tag `20`, and missing bytes. -/
theorem witness_m3 :
    (atInstruction (decoding .s1 [0x3F#8, 0x00#8, 0x00#8] [0x61#8] 34) (0x3F#8 :: [] ++ 0x00#8 :: 0x00#8 :: []) ∧
      (decoding .s1 [0x3F#8, 0x00#8, 0x00#8] [0x61#8] 34).st ≠ .start ∧ 0x20 ≤ (0x3F#8 : Byte).toNat ∧
      (0x3F#8 : Byte).toNat ≤ 0x3F ∧ carriesLength ((0x3F#8 : Byte).toNat % 32) 31 [] 31) ∧
    (atInstruction (decoding .s1 [0x20#8, 0x01#8, 0x00#8, 0x00#8] [0x61#8] 35) (0x20#8 :: [0x01#8] ++ 0x00#8 :: 0x00#8 :: []) ∧
      carriesLength ((0x20#8 : Byte).toNat % 32) 31 [0x01#8] 32) ∧
    (atInstruction (decoding .s1 [0x20#8] [0x61#8] 35) (0x20#8 :: []) ∧
      ¬ ∃ ext v b0 b1 more, carriesLength ((0x20#8 : Byte).toNat % 32) 31 ext v ∧ [] = ext ++ b0 :: b1 :: more) :=
  ⟨⟨⟨rfl, rfl, rfl, rfl⟩, by decide, by decide, by decide, ⟨rfl, rfl⟩⟩,
    ⟨⟨rfl, rfl, rfl, rfl⟩, ⟨0, 0x01#8, rfl, by decide, rfl⟩⟩,
    ⟨⟨rfl, rfl, rfl, rfl⟩, fun ⟨ext, v, _, _, _, h, e⟩ => nothing_carries 31 v ext _ h e⟩⟩

/-- M4Executes: a match at tag `1F`, EOS at tag `11` in `START`, an extended length at tag `10`, and
missing bytes. -/
theorem witness_m4 :
    (atInstruction (decoding .s0 [0x1F#8, 0x00#8, 0x00#8] [0x61#8] 34) (0x1F#8 :: [] ++ 0x00#8 :: 0x00#8 :: []) ∧
      ((decoding .s0 [0x1F#8, 0x00#8, 0x00#8] [0x61#8] 34).st = .start → (0x1F#8 : Byte).toNat ≤ 0x11) ∧
      0x10 ≤ (0x1F#8 : Byte).toNat ∧ (0x1F#8 : Byte).toNat ≤ 0x1F ∧
      carriesLength ((0x1F#8 : Byte).toNat % 8) 7 [] 7) ∧
    (atInstruction (decoding .start [0x11#8, 0x00#8, 0x00#8] [] 0) (0x11#8 :: [] ++ 0x00#8 :: 0x00#8 :: []) ∧
      (0x11#8 : Byte).toNat ≤ 0x11 ∧ carriesLength ((0x11#8 : Byte).toNat % 8) 7 [] 1 ∧
      (0x11#8 : Byte).toNat / 8 % 2 = 0) ∧
    (atInstruction (decoding .start [0x10#8, 0x01#8, 0x00#8, 0x00#8] [] 0) (0x10#8 :: [0x01#8] ++ 0x00#8 :: 0x00#8 :: []) ∧
      (0x10#8 : Byte).toNat ≤ 0x11 ∧ carriesLength ((0x10#8 : Byte).toNat % 8) 7 [0x01#8] 8) ∧
    (atInstruction (decoding .s0 [0x18#8] [] 0) (0x18#8 :: []) ∧
      ¬ ∃ ext v b0 b1 more, carriesLength ((0x18#8 : Byte).toNat % 8) 7 ext v ∧ [] = ext ++ b0 :: b1 :: more) :=
  ⟨⟨⟨rfl, rfl, rfl, rfl⟩, by decide, by decide, by decide, ⟨rfl, rfl⟩⟩,
    ⟨⟨rfl, rfl, rfl, rfl⟩, by decide, ⟨rfl, rfl⟩, rfl⟩,
    ⟨⟨rfl, rfl, rfl, rfl⟩, by decide, ⟨0, 0x01#8, rfl, by decide, rfl⟩⟩,
    ⟨⟨rfl, rfl, rfl, rfl⟩, fun ⟨ext, v, _, _, _, h, e⟩ => nothing_carries 7 v ext _ h e⟩⟩

/-- EosExecutes, EosCompletes: a job whose two buffers are used up. -/
theorem witness_eos : (decoding .s4 [] [0x61#8] 1).active = .decoder ∧
    (decoding .s4 [] [0x61#8] 1).op = (decoding .s4 [] [0x61#8] 1).outCap.toNat ∧
    (decoding .s4 [] [0x61#8] 1).ip = (decoding .s4 [] [0x61#8] 1).inLen.toNat := ⟨rfl, rfl, rfl⟩

/-- StateAfterEachInstruction: each kind of instruction goes on, and EOS ends the job. -/
theorem witness_stateAfter :
    (∃ u, exec (.litf 4) (decoding .start [1#8, 2#8, 3#8, 4#8] [] 4) = .next u ∧ u.active = .decoder) ∧
    (∃ u, exec (.litr 4) (decoding .s0 [1#8, 2#8, 3#8, 4#8] [] 4) = .next u ∧ u.active = .decoder) ∧
    (∃ u, exec (.m3 1 3 3) (decoding .s0 [1#8, 2#8, 3#8] [0x61#8] 7) = .next u ∧ u.active = .decoder) ∧
    (∃ u, exec (.m1n 1 0) (decoding .s1 [] [0x61#8] 3) = .next u ∧ u.active = .decoder) ∧
    ∃ u, exec .eos (decoding .start [] [] 0) = .next u :=
  ⟨⟨_, rfl, rfl⟩, ⟨_, rfl, rfl⟩, ⟨_, rfl, rfl⟩, ⟨_, rfl, rfl⟩, ⟨_, rfl⟩⟩

/-- LiteralRunsComplete. -/
theorem witness_literalRuns : let s := decoding .start [1#8, 2#8, 3#8, 4#8] [] 4
    s.active = .decoder ∧ s.outMem.wf = true ∧ 1 ≤ 4 ∧ s.ip + 4 ≤ s.inLen.toNat ∧ s.op + 4 ≤ s.outCap.toNat := by
  decide +kernel

/-- ShortMatchesComplete and WideMatchesComplete: the largest legal distance, no room and no input to
spare. -/
theorem witness_matches : let s := decoding .s0 [1#8, 2#8, 3#8] [0x61#8, 0x62#8] 8
    s.active = .decoder ∧ s.outMem.wf = true ∧ 1 ≤ 2 ∧ 2 ≤ s.op ∧ 3 ≤ 3 ∧ s.op + 3 + 3 ≤ s.outCap.toNat ∧
      s.ip + 3 ≤ s.inLen.toNat := by
  decide +kernel

/-- InitSetsInitOk, DecompressStartsTheDecoder, CompressStartsTheEncoder: 20 bytes with a capacity of
exactly 88. -/
theorem witness_jobStarts : let s := ready 2 (List.replicate 20 0x61#8) 88
    s.active = .idle ∧ s.initOk = true ∧ s.inLen.toNat + s.inLen.toNat / 16 + 67 ≤ s.outCap.toNat := by
  decide +kernel

/-- JobBeforeInitFails. -/
theorem witness_jobBeforeInit : State.reset.active = .idle ∧ State.reset.initOk = false := ⟨rfl, rfl⟩

/-- CompressNeedsTheCapacity: one byte short; and a DECOMPRESS start. -/
theorem witness_capacity : (let s := ready 2 (List.replicate 20 0x61#8) 87;
    s.active = .idle ∧ s.initOk = true ∧ s.outCap.toNat < s.inLen.toNat + s.inLen.toNat / 16 + 67) ∧
    ∃ t, exec .decompress (ready 3 [] 0) = .next t := ⟨by decide +kernel, ⟨_, rfl⟩⟩

/-- WireInstructionsNeedAJob: an idle CORE and a COMPRESS job. -/
theorem witness_noJob : Instr.isWire (.m3 1 3 0) = true ∧ State.reset.active ≠ .decoder ∧
    (encoding [] [] 0 0 []).active ≠ .decoder := by decide

/-- ReservedCommandBitsAreInvalid: the lowest and the highest reserved bit. -/
theorem witness_reservedBits : ((ready 4 [] 0).active = .idle ∧ (ready 4 [] 0).inputs = .writeReg 0 4#32 :: [] ∧
    (4#32).toNat / 4 ≠ 0) ∧ (0x80000003#32).toNat / 4 ≠ 0 := by decide

/-- The running decoder state of the other witnesses is a legal state. -/
theorem decoding_inv : (decoding .s1 [0x31#8, 0x00#8, 0x00#8] [0x61#8] 20).Inv where
  width := by decide
  registers := ⟨fun _ => ⟨rfl, rfl, rfl, rfl⟩, fun _ => rfl, fun _ => ⟨rfl, rfl⟩, by decide, by decide, by decide⟩
  stores := ⟨rfl, rfl, rfl⟩
  decoder := fun _ => by decide +kernel
  encoder := fun h => by cases h

/-- A running encoder state, at E3's second position, is a legal state. -/
theorem encoding_inv : (encoding (List.replicate 20 0x61#8) [] 1 0 [(10077, 0)]).Inv where
  width := by decide
  registers := ⟨fun _ => ⟨rfl, rfl, rfl, rfl⟩, fun _ => rfl, fun _ => ⟨rfl, rfl⟩, by decide, by decide, by decide⟩
  stores := ⟨by decide +kernel, rfl, rfl⟩
  decoder := fun h => by cases h
  encoder := fun _ =>
    { order := Nat.zero_le 1
      bound := by decide +kernel
      capacity := by decide +kernel
      emitted := .inl ⟨rfl, rfl⟩
      table := fun h p hp => by
        simp only [encoding, HashTable.get] at hp
        split at hp
        · exact Option.some.inj hp ▸ Nat.zero_lt_one
        · split at hp <;> cases hp }

/-- WritesWhileBusyAreIgnored: a pending write in a running job, and a legal running state. -/
theorem witness_busy :
    (let s := { decoding .s1 [0x31#8] [0x61#8] 20 with inputs := [.writeReg 2 7] };
      s.active ≠ .idle ∧ s.inputs = .writeReg 2 7 :: []) ∧
    (decoding .s1 [0x31#8, 0x00#8, 0x00#8] [0x61#8] 20).Inv ∧
    (decoding .s1 [0x31#8, 0x00#8, 0x00#8] [0x61#8] 20).active ≠ .idle :=
  ⟨⟨by decide, rfl⟩, decoding_inv, by decide⟩

/-- HostRegisterAccess: the two writable registers and a read-only one. -/
theorem witness_hostRegister : (∀ r ∈ [(2 : Fin 8), 3, 7], r ≠ 0) ∧
    ({ State.reset with inputs := [.writeReg 2 7] } : State).active = .idle ∧
    ({ State.reset with inputs := [.writeReg 2 7] } : State).inputs = .writeReg 2 7 :: [] := ⟨by decide, rfl, rfl⟩

/-- HostStoresOneByte: an idle CORE, at the lowest and the highest offset, and a running one. -/
theorem witness_hostStore :
    (let s := { State.reset with inputs := [.storeIn 0 1#8] };
      s.active = .idle ∧ s.inMem.wf = true ∧ s.inputs = .storeIn 0 1#8 :: []) ∧
    (let s := { State.reset with inputs := [.storeOut 0xFFFFFFFF 1#8] };
      s.active = .idle ∧ s.outMem.wf = true ∧ s.inputs = .storeOut 0xFFFFFFFF 1#8 :: []) ∧
    (let s := { decoding .s1 [] [] 0 with inputs := [.storeIn 0 1#8] };
      s.active ≠ .idle ∧ (s.inputs = .storeIn 0 1#8 :: [] ∨ s.inputs = .storeOut 0 1#8 :: [])) :=
  ⟨⟨rfl, rfl, rfl⟩, ⟨rfl, rfl, rfl⟩, ⟨by decide, .inl rfl⟩⟩

/-- HardResetClearsTheRegisters: in a legal running job that has written one byte, and with no job. -/
theorem witness_hardReset : (let s := { decoding .s1 [0x31#8, 0x00#8, 0x00#8] [0x61#8] 20 with inputs := [.hardReset] };
    s.Inv ∧ s.inputs = .hardReset :: [] ∧ s.active = .decoder) ∧
    (let s := { State.reset with inputs := [.hardReset] };
    s.Inv ∧ s.inputs = .hardReset :: [] ∧ s.active = .idle) :=
  ⟨⟨⟨by decide, ⟨decoding_inv.2.1, decoding_inv.2.2, decoding_inv.2.3, decoding_inv.2.4⟩,
      ⟨decoding_inv.3.1, decoding_inv.3.2, decoding_inv.3.3⟩, decoding_inv.4, fun h => by cases h⟩, rfl, rfl⟩,
    ⟨⟨by decide, ⟨fun h => absurd rfl h, fun _ => rfl, fun _ => ⟨rfl, rfl⟩, by decide, by decide, by decide⟩, ⟨rfl, rfl, rfl⟩,
      (fun h => by cases h), (fun h => by cases h)⟩, rfl, rfl⟩⟩

/-- HashTellsTheFourthByte. -/
theorem witness_hash : hashWindow 1#8 2#8 3#8 4#8 = hashWindow 1#8 2#8 3#8 4#8 := rfl

/-- MatchLengthIsTheCommonRun: at the start and at the end of the input. -/
theorem witness_matchLength : 0 < 1 ∧ 1 ≤ (encoding (List.replicate 20 0x61#8) [] 1 0 []).inLen.toNat ∧
    20 ≤ (encoding (List.replicate 20 0x61#8) [] 1 0 []).inLen.toNat := by decide +kernel

/-- MatchFormAndCost and AcceptancePolicy: the ends of the distance range. -/
theorem witness_matchForm : (1 ≤ 1 ∧ 1 ≤ 49151 ∧ 3 ≤ 3) ∧ (1 ≤ 49151 ∧ 49151 ≤ 49151 ∧ 4 ≤ 4) := by decide

/-- ScanStepWithoutMatch: no entry; an entry too far back; an entry whose match is not accepted. -/
theorem witness_scanWithoutMatch :
    (let s := encoding [1#8, 2#8, 3#8, 4#8] [] 0 0 [];
      s.active = .encoder ∧ s.inputs = [] ∧ s.eip + 4 ≤ s.inLen.toNat ∧
        s.hash4 s.eip = .ok (hashWindow 1#8 2#8 3#8 4#8) ∧ s.ht.get (hashWindow 1#8 2#8 3#8 4#8) = none) ∧
    (let s := { encoding [] [] 49152 0 [(0, 0)] with inLen := 49156 };
      s.active = .encoder ∧ s.inputs = [] ∧ s.eip + 4 ≤ s.inLen.toNat ∧ s.hash4 s.eip = .ok 0 ∧
        ∃ m, s.ht.get 0 = some m ∧ m < s.eip ∧ 49151 < s.eip - m) ∧
    (let s := encoding [1#8, 2#8, 3#8, 4#8, 5#8] [] 1 0 [(hashWindow 2#8 3#8 4#8 5#8, 0)];
      s.active = .encoder ∧ s.inputs = [] ∧ s.eip + 4 ≤ s.inLen.toNat ∧
        s.hash4 s.eip = .ok (hashWindow 2#8 3#8 4#8 5#8) ∧
        ∃ m, s.ht.get (hashWindow 2#8 3#8 4#8 5#8) = some m ∧ m < s.eip ∧
          ∃ len, s.matchLen (s.inLen.toNat - s.eip) m s.eip = .ok len ∧ accepts (s.eip - m) len = false) :=
  ⟨⟨rfl, rfl, by decide +kernel, rfl, rfl⟩,
    ⟨rfl, rfl, by decide +kernel, rfl, 0, rfl, by decide +kernel, by decide +kernel⟩,
    ⟨rfl, rfl, by decide +kernel, rfl, 0, by decide +kernel, by decide +kernel, 0, rfl, by decide +kernel⟩⟩

/-- ScanStepWithMatch: E3 at position 1. -/
theorem witness_scanWithMatch : let s := encoding (List.replicate 20 0x61#8) [] 1 0 [(10077, 0)]
    s.Inv ∧ s.active = .encoder ∧ s.inputs = [] ∧ s.eip + 4 ≤ s.inLen.toNat ∧ s.hash4 s.eip = .ok 10077 ∧
      s.ht.get 10077 = some 0 ∧ s.eip - 0 ≤ 49151 ∧ s.matchLen (s.inLen.toNat - s.eip) 0 s.eip = .ok 19 ∧
      accepts (s.eip - 0) 19 = true :=
  ⟨encoding_inv, rfl, rfl, by decide +kernel, rfl, rfl, by decide +kernel, rfl, rfl⟩

/-- An encoder state at the end of a short input is legal. -/
theorem encodingTail_inv : (encoding [0x66#8, 0x6F#8, 0x6F#8] [] 0 0 []).Inv where
  width := by decide
  registers := ⟨fun _ => ⟨rfl, rfl, rfl, rfl⟩, fun _ => rfl, fun _ => ⟨rfl, rfl⟩, by decide, by decide, by decide⟩
  stores := ⟨rfl, rfl, rfl⟩
  decoder := fun h => by cases h
  encoder := fun _ => ⟨le_rfl, Nat.zero_le _, by decide +kernel, .inl ⟨rfl, rfl⟩, fun _ _ h => by cases h⟩

/-- TailStepEndsTheJob and CompressJobEnds: E2. -/
theorem witness_tail : let s := encoding [0x66#8, 0x6F#8, 0x6F#8] [] 0 0 []
    s.Inv ∧ s.active = .encoder ∧ s.inputs = [] ∧ s.inLen.toNat < s.eip + 4 :=
  ⟨encodingTail_inv, rfl, rfl, by decide +kernel⟩

/-- EncoderWritesOnlyBelowItsCursor: E3's step with the match goes on; E2's tail step ends the job. -/
theorem witness_encoderWrites :
    (let s := encoding (List.replicate 20 0x61#8) [] 1 0 [(10077, 0)];
      s.Inv ∧ s.active = .encoder ∧ s.inputs = [] ∧ ∃ t, step s = .next t ∧ t.active = .encoder) ∧
    (let s := encoding [0x66#8, 0x6F#8, 0x6F#8] [] 0 0 [];
      s.Inv ∧ s.active = .encoder ∧ s.inputs = [] ∧ ∃ t, step s = .next t ∧ t.active = .idle) :=
  ⟨⟨encoding_inv, rfl, rfl, ⟨_, rfl, rfl⟩⟩, ⟨encodingTail_inv, rfl, rfl, ⟨_, rfl, rfl⟩⟩⟩

/-- WorkingMemoryAndLengthsFit: a legal encoder state with a table entry, a legal decoder state with an
instruction next. -/
theorem witness_sizes :
    (let s := encoding (List.replicate 20 0x61#8) [] 1 0 [(10077, 0)];
      s.Inv ∧ s.active = .encoder ∧ s.ht.get 10077 = some 0) ∧
    (let s := decoding .s1 [0x31#8, 0x00#8, 0x00#8] [0x61#8] 20;
      s.Inv ∧ s.active = .decoder ∧ decode s.st s.unread = .ok (.m3 1 19 0, [])) :=
  ⟨⟨encoding_inv, rfl, rfl⟩, ⟨decoding_inv, rfl, rfl⟩⟩

/-- StepKeepsTheInvariant, DecoderWritesOnlyAhead, DecoderStepConsumesInput, InputIsNeverWritten: an M3 in
a legal running job. -/
theorem witness_legalStep : let s := decoding .s1 [0x31#8, 0x00#8, 0x00#8] [0x61#8] 20
    s.Inv ∧ s.active = .decoder ∧ s.inputs = [] ∧ ∃ t, step s = .next t ∧ t.active = .decoder :=
  ⟨decoding_inv, rfl, rfl, ⟨_, rfl, rfl⟩⟩

/-- NoAccessIsOutOfBounds: a legal encoder state. -/
theorem witness_noAccess : (encoding (List.replicate 20 0x61#8) [] 1 0 [(10077, 0)]).Inv := encoding_inv

/-- OnlyBusyStoresAreRefused: the one refusal of the step. -/
theorem witness_refused :
    step { decoding .s1 [] [] 0 with inputs := [.storeIn 0 1#8] } = .refused .bufferStoreWhileBusy := rfl

/-- InitOkIsSticky: a step with `INIT_OK` set, and one that sets it. -/
theorem witness_initOk :
    (∃ t, step (ready 3 [] 0) = .next t ∧ (ready 3 [] 0).initOk = true ∧ t.initOk = true) ∧
    ∃ t, step { State.reset with inputs := [.writeReg 0 1] } = .next t ∧ State.reset.initOk = false ∧ t.initOk = true :=
  ⟨⟨_, rfl, rfl, rfl⟩, ⟨_, rfl, rfl, rfl⟩⟩

/-- DecompressJobEnds: a legal running job with the host absent. -/
theorem witness_decompressJob : (decoding .s1 [0x31#8, 0x00#8, 0x00#8] [0x61#8] 20).Inv ∧
    (decoding .s1 [0x31#8, 0x00#8, 0x00#8] [0x61#8] 20).active = .decoder ∧
    (decoding .s1 [0x31#8, 0x00#8, 0x00#8] [0x61#8] 20).inputs = [] := ⟨decoding_inv, rfl, rfl⟩

/-- ResetMeetsTheInvariant, StatusWordFields, ConfigRegisterIsConstant: the ends of the range of widths,
and the default. -/
theorem witness_widths : (16 ≤ 16 ∧ 16 < 256) ∧ (16 ≤ 255 ∧ 255 < 256) ∧ (State.resetOf 64).legalWidth ∧
    State.reset.posBits = 32 := by decide

/-- DecompressIgnoresOldState: D1 from a fresh CORE, from one with old bytes, an old table and old
results, and from one of another width. -/
theorem witness_decompressIgnores :
    let s := ready 3 [0x11#8, 0#8, 0#8] 0
    let t := { s with outMem := [(5, 9#8)], ht := [(3, 4)], eop := 7, code := .error, done := true, st := .s3 }
    readyFor 3 s ∧ readyFor 3 t ∧ sameJob s t ∧ readyFor 3 (readyAt 64 3 [0x11#8, 0#8, 0#8] 0) ∧
      sameJob s (readyAt 64 3 [0x11#8, 0#8, 0#8] 0) ∧ ∃ s', reachesIdle 2 s s' :=
  ⟨⟨by decide, rfl, rfl, rfl, rfl, rfl⟩, ⟨by decide, rfl, rfl, rfl, rfl, rfl⟩, ⟨rfl, rfl, fun _ _ => rfl⟩,
    ⟨by decide, rfl, rfl, rfl, rfl, rfl⟩, ⟨rfl, rfl, fun _ _ => rfl⟩, ⟨_, rfl, rfl, rfl⟩⟩

/-- RoundTripReproducesTheInput: the empty input (E1) and the CORE that decodes its stream (D1). -/
theorem witness_roundTrip :
    readyFor 2 (ready 2 [] 67) ∧ worstCase (ready 2 [] 67).inLen.toNat ≤ (ready 2 [] 67).outCap.toNat ∧
    ∃ t, reachesIdle 2 (ready 2 [] 67) t ∧ t.code = .notCompressible ∧ t.faultOp.toNat = 3 ∧
      readyFor 3 (ready 3 [0x11#8, 0#8, 0#8] 0) ∧ (ready 3 [0x11#8, 0#8, 0#8] 0).inLen.toNat = 3 ∧
      (ready 3 [0x11#8, 0#8, 0#8] 0).outCap.toNat = (ready 2 [] 67).inLen.toNat ∧
      ∀ a, a < 3 → (ready 3 [0x11#8, 0#8, 0#8] 0).inMem.read a = t.outMem.read a :=
  ⟨⟨by decide, rfl, rfl, rfl, rfl, rfl⟩, by decide +kernel, _, ⟨rfl, rfl, rfl⟩, rfl, rfl,
    ⟨by decide, rfl, rfl, rfl, rfl, rfl⟩, rfl, rfl, by decide +kernel⟩

end Sys2Proof.Tests
end

/-!
The fixed sizes of a CORE (rules R8, R17, R28, R39): its width is constant, so is `CFG`, and the table, the
cursors and the operands the decoder reads fit their registers.
-/

namespace Sys2Proof.Proofs

open Sys2Proof.Machine Sys2Proof.Laws

/-! ## What a move of the host can do -/

/-- Which value of `CMD` selects which command (rules R22, R200). -/
theorem decodeCommand_eq_some {w : Nat} {v : Word w} {i : Instr} (h : decodeCommand v = some i) :
    (v.toNat = 0 ∧ i = .nop) ∨ (v.toNat = 1 ∧ i = .init) ∨ (v.toNat = 2 ∧ i = .compress) ∨
      (v.toNat = 3 ∧ i = .decompress) := by
  unfold decodeCommand at h
  split at h
  · next hv => exact .inl ⟨hv, (Option.some.inj h).symm⟩
  · next hv => exact .inr (.inl ⟨hv, (Option.some.inj h).symm⟩)
  · next hv => exact .inr (.inr (.inl ⟨hv, (Option.some.inj h).symm⟩))
  · next hv => exact .inr (.inr (.inr ⟨hv, (Option.some.inj h).symm⟩))
  · cases h

/-- Which values of `CMD` select no command (rule R205). -/
theorem decodeCommand_eq_none {w : Nat} {v : Word w} (h : decodeCommand v = none) : 4 ≤ v.toNat := by
  unfold decodeCommand at h
  split at h
  · cases h
  · cases h
  · cases h
  · cases h
  · next h0 h1 h2 h3 =>
    simp only [imp_false] at h0 h1 h2 h3
    omega

/-- Everything a write to `CMD` can do: it is ignored while a job runs (rule R206), else it takes the
effect of the command its value selects, or is rejected (rules R200, R205). -/
theorem commandWrite_cases {s t : State} {v : Word s.posBits} (h : commandWrite s v = .next t) :
    (s.active ≠ .idle ∧ t = s) ∨
    (s.active = .idle ∧
      ((v.toNat = 0 ∧ t = s) ∨ (v.toNat = 1 ∧ t = s.initialise) ∨ (v.toNat = 2 ∧ t = s.beginCompress) ∨
        (v.toNat = 3 ∧ t = s.beginDecompress) ∨ (4 ≤ v.toNat ∧ t = s.rejectCommand))) := by
  unfold commandWrite at h
  split at h
  · next hb => exact .inl ⟨(busy_eq_true s).mp hb, (Host.Outcome.next.inj h).symm⟩
  · next hb =>
    have hidle : s.active = .idle := (busy_eq_false s).mp (Bool.eq_false_iff.mpr hb)
    have hrun : ∀ f, whenIdle s f = .next t → t = f s := fun f hf =>
      (Host.Outcome.next.inj ((whenIdle_idle s f hidle).symm.trans hf)).symm
    refine .inr ⟨hidle, ?_⟩
    split at h
    · next i hd =>
      rcases decodeCommand_eq_some hd with ⟨hv, rfl⟩ | ⟨hv, rfl⟩ | ⟨hv, rfl⟩ | ⟨hv, rfl⟩
      · exact .inl ⟨hv, hrun id h⟩
      · exact .inr (.inl ⟨hv, hrun State.initialise h⟩)
      · exact .inr (.inr (.inl ⟨hv, hrun State.beginCompress h⟩))
      · exact .inr (.inr (.inr (.inl ⟨hv, hrun State.beginDecompress h⟩)))
    · next hd => exact .inr (.inr (.inr (.inr ⟨decodeCommand_eq_none hd, (Host.Outcome.next.inj h).symm⟩)))

/-- A host store that is not refused takes place on an idle CORE (rule R249; log 9). -/
theorem bufferStore_eq_next {s t : State} {f : State → State} (h : bufferStore s f = .next t) :
    s.active = .idle ∧ t = f s := by
  unfold bufferStore at h
  split at h
  · cases h
  · next hb => exact ⟨(busy_eq_false s).mp (Bool.eq_false_iff.mpr hb), (Host.Outcome.next.inj h).symm⟩

/-! ## The width of a CORE is constant (rule R8; log 1) -/

@[simp] theorem beginCompress_posBits (s : State) : s.beginCompress.posBits = s.posBits := by
  rcases beginCompress_cases s with ⟨-, h⟩ | ⟨-, -, h⟩ | ⟨-, -, h⟩ <;> simp [h]

@[simp] theorem beginDecompress_posBits (s : State) : s.beginDecompress.posBits = s.posBits := by
  rcases beginDecompress_cases s with ⟨-, h⟩ | ⟨-, h⟩ <;> simp [h]

@[simp] theorem writeOperandReg_posBits (s : State) (r : Fin 8) (v : Word s.posBits) :
    (s.writeOperandReg r v).posBits = s.posBits := by
  unfold State.writeOperandReg
  split
  · rfl
  · split
    · rfl
    · split <;> rfl

theorem commandWrite_posBits {s t : State} {v : Word s.posBits} (h : commandWrite s v = .next t) :
    t.posBits = s.posBits := by
  rcases commandWrite_cases h with ⟨-, rfl⟩ | ⟨-, ⟨-, rfl⟩ | ⟨-, rfl⟩ | ⟨-, rfl⟩ | ⟨-, rfl⟩ | ⟨-, rfl⟩⟩
  · rfl
  · rfl
  · exact initialise_posBits s
  · exact beginCompress_posBits s
  · exact beginDecompress_posBits s
  · exact raise_posBits s .invalidArgument

theorem registerWrite_posBits {s t : State} {r : Fin 8} {v : Word s.posBits} (h : registerWrite s r v = .next t) :
    t.posBits = s.posBits := by
  unfold registerWrite at h
  split at h
  · exact commandWrite_posBits h
  · exact Host.Outcome.next.inj h ▸ writeOperandReg_posBits s r v

theorem hostMove_posBits {s t : State} {a : HostAction s.posBits} {rest : List (HostAction s.posBits)}
    (h : hostMove s a rest = .next t) : t.posBits = s.posBits := by
  cases a with
  | writeReg r v => exact registerWrite_posBits (s := { s with inputs := rest }) h
  | storeIn x b =>
    simp only [hostMove] at h
    obtain ⟨-, rfl⟩ := bufferStore_eq_next h
    rfl
  | storeOut x b =>
    simp only [hostMove] at h
    obtain ⟨-, rfl⟩ := bufferStore_eq_next h
    rfl
  | hardReset => exact Host.Outcome.next.inj h ▸ rfl
  | engineTurn => exact (engineStep_same (s := { s with inputs := rest }) h).posBits
  | awaitDone =>
    simp only [hostMove] at h
    split at h
    · exact (engineStep_same h).posBits
    · exact Host.Outcome.next.inj h ▸ rfl

/-- No step changes the width. -/
theorem step_posBits {s t : State} (h : step s = .next t) : t.posBits = s.posBits := by
  cases hin : s.inputs with
  | nil => exact (engineStep_same ((step_engine hin).symm.trans h)).posBits
  | cons a rest => exact hostMove_posBits ((step_host hin).symm.trans h)

/-! ## The `CFG` word (rule R28) -/

/-- `CFG` depends on the width only (rule R28). -/
theorem readReg_cfg (s : State) : s.readReg 7 = cfgWord s.posBits := rfl

/-- The number the `CFG` word is, at every width. -/
theorem cfgWord_toNat_mod (w : Nat) : (cfgWord w).toNat = (14 * 256 + w) % 2 ^ w := by
  rw [cfgWord, BitVec.toNat_ofNat, Config.hashBits, Nat.add_comm, Nat.mul_comm]

/-! ## What the decoder reads is bounded (rule R17) -/

/-- An instruction is read from a tag and the operands of the form the tag selects. -/
theorem decode_eq_ok {st : St} {bytes rest : List Byte} {i : Instr} (h : decode st bytes = .ok (i, rest)) :
    ∃ tag more, bytes = tag :: more ∧ decodeOperands (dispatchForm st tag) tag more = some (i, rest) := by
  cases bytes with
  | nil => simp [decode] at h
  | cons tag more =>
    refine ⟨tag, more, rfl, ?_⟩
    rw [decode_cons] at h
    cases hd : decodeOperands (dispatchForm st tag) tag more with
    | none => simp [hd] at h
    | some r => simpa [hd] using h

/-- A length field is worth at most its largest inline length and 255 for each byte after the tag (rule
R17 (b)). -/
theorem lengthField_le {inl bias base len : Nat} {bytes rest : List Byte} (hinl : inl ≤ base)
    (h : lengthField inl bias base bytes = some (len, rest)) : len ≤ bias + base + 255 * bytes.length := by
  unfold lengthField at h
  split at h
  · obtain ⟨⟨v, r⟩, hv, hr⟩ := Option.map_eq_some_iff.mp h
    obtain ⟨rfl, rfl⟩ := Prod.mk.inj hr
    have := extLen_le hv
    omega
  · obtain ⟨rfl, rfl⟩ := Prod.mk.inj (Option.some.inj h)
    omega

/-- The 14 distance bits of format W (rule R76). -/
theorem dist14_lt (b0 b1 : Byte) : dist14 b0 b1 < 2 ^ 14 := by
  have h0 := bits_lt b0 7 2
  have h1 := b1.isLt
  unfold dist14
  omega

/-- The operand of format S is one byte (rule R74). -/
theorem decodeShort_eq_some {mk : Nat → Instr} {bytes rest : List Byte} {i : Instr}
    (h : decodeShort mk bytes = some (i, rest)) : ∃ b : Byte, bytes = b :: rest ∧ i = mk b.toNat := by
  cases bytes with
  | nil => cases h
  | cons b more =>
    obtain ⟨rfl, rfl⟩ := Prod.mk.inj (Option.some.inj h)
    exact ⟨b, rfl, rfl⟩

/-- The operands after a tag: a length of at most 255 for each byte, the tag included, and a distance of
at most `MAX_DIST` (rule R17 (b), (c)). -/
theorem decodeOperands_bounds {f : Form} {tag : Byte} {bytes rest : List Byte} {i : Instr}
    (h : decodeOperands f tag bytes = some (i, rest)) :
    i.copyLength ≤ 255 * (bytes.length + 1) ∧ i.copyDistance ≤ Config.maxDist := by
  have htag := tag.isLt
  cases f <;> simp only [decodeOperands] at h
  case litf =>
    obtain ⟨rfl, rfl⟩ := Prod.mk.inj (Option.some.inj h)
    simp only [Instr.copyLength, Instr.copyDistance, Config.maxDist]
    omega
  case litr =>
    obtain ⟨⟨v, r⟩, hv, hr⟩ := Option.map_eq_some_iff.mp h
    obtain ⟨rfl, rfl⟩ := Prod.mk.inj hr
    have hlen := lengthField_le (by have := bits_lt tag 3 0; omega) hv
    simp only [Instr.copyLength, Instr.copyDistance, Config.maxDist]
    omega
  case m1n | m1f | m2s | m2l =>
    obtain ⟨b, rfl, rfl⟩ := decodeShort_eq_some h
    have hb := b.isLt
    have h32 := bits_lt tag 3 2
    have h42 := bits_lt tag 4 2
    have h75 := bits_lt tag 7 5
    simp only [Instr.copyLength, Instr.copyDistance, Config.maxDist]
    omega
  case m3 =>
    obtain ⟨⟨v, r⟩, hv, hr⟩ := Option.bind_eq_some_iff.mp h
    obtain ⟨-, b0, b1, rfl⟩ := decodeWide_spec hr
    have hlen := lengthField_le (by have := bits_lt tag 4 0; omega) hv
    have hdist := dist14_lt b0 b1
    simp only [Instr.copyLength, Instr.copyDistance, Config.maxDist]
    omega
  case m4OrEos =>
    obtain ⟨⟨v, r⟩, hv, hr⟩ := Option.bind_eq_some_iff.mp h
    obtain ⟨-, b0, b1, rfl⟩ := decodeWide_spec hr
    have hlen := lengthField_le (by have := bits_lt tag 2 0; omega) hv
    have hdist := dist14_lt b0 b1
    have h33 := bits_lt tag 3 3
    unfold m4OrEos
    split <;> simp only [Instr.copyLength, Instr.copyDistance, Config.maxDist] <;> omega

/-- What a decoded instruction asks for: a length of at most 255 for each byte of the stream, and a
distance of at most `MAX_DIST` (rule R17 (b), (c)). -/
theorem decode_bounds {st : St} {bytes rest : List Byte} {i : Instr} (h : decode st bytes = .ok (i, rest)) :
    i.copyLength ≤ 255 * bytes.length ∧ i.copyDistance ≤ Config.maxDist := by
  obtain ⟨tag, more, rfl, hop⟩ := decode_eq_ok h
  exact decodeOperands_bounds hop

/-! ## The sizes of a legal state (rules R8, R17) -/

/-- A legal hash table fits working memory. -/
theorem table_fits {s : State} (h : s.Inv) : s.ht.length * (1 + s.posBits) ≤ Config.wrkBits s.posBits :=
  Nat.mul_le_mul_right _ (HashTable.length_le h.stores.htWf)

/-- The cursors and the table's positions of a running COMPRESS job fit a register. -/
theorem encoder_cursors_fit {s : State} (h : s.EncoderOk) :
    s.eii < 2 ^ s.posBits ∧ s.eip < 2 ^ s.posBits ∧ s.eop < 2 ^ s.posBits ∧
      ∀ g p, s.ht.get g = some p → p < 2 ^ s.posBits := by
  obtain ⟨horder, hbound, hcap, hemitted, htable⟩ := h
  have hin := s.inLen.isLt
  have hout := s.outCap.isLt
  have heip : s.eip < 2 ^ s.posBits := by omega
  unfold worstCase at hcap
  exact ⟨by omega, heip, by omega, fun g p hp => (htable g p hp).trans heip⟩

/-- The stream is shorter than `2^POS_BITS` bytes. -/
theorem unread_length_lt (s : State) : s.unread.length < 2 ^ s.posBits := by
  have hin := s.inLen.isLt
  rw [State.unread, Memory.length_slice]
  omega

/-- The length accumulator never overflows (rule R17 (b)). -/
theorem copyLength_fits {s : State} {i : Instr} {rest : List Byte} (h : decode s.st s.unread = .ok (i, rest)) :
    i.copyLength < 2 ^ Config.lenBits s.posBits := by
  have hlen := (decode_bounds h).1
  have hun := unread_length_lt s
  rw [Config.lenBits, Nat.pow_add]
  omega

/-! ## The obligations -/

/-- Settles O50: the table by its canonical form, the cursors by the invariant, the operands by what the
decoder reads. -/
theorem workingMemoryAndLengthsFit : Obligations.WorkingMemoryAndLengthsFit := by
  unfold Obligations.WorkingMemoryAndLengthsFit
  intro s hinv
  refine ⟨table_fits hinv, fun hact => encoder_cursors_fit (hinv.encoder hact), fun hact => ?_⟩
  obtain ⟨hip, hop⟩ := hinv.decoder hact
  exact ⟨hip.trans_lt s.inLen.isLt, hop.trans_lt s.outCap.isLt,
    fun i rest hd => ⟨copyLength_fits hd, (decode_bounds hd).2⟩⟩

/-- Settles O36: `CFG` is a function of the width, and no step changes the width. -/
theorem configRegisterIsConstant : Obligations.ConfigRegisterIsConstant := by
  unfold Obligations.ConfigRegisterIsConstant
  refine ⟨fun s ⟨hlo, hhi⟩ => ?_, fun s hw => ?_, fun s t hst => ?_⟩
  · rw [readReg_cfg, cfgWord_toNat hlo hhi]
    omega
  · rw [readReg_cfg, hw, cfgWord_toNat (by decide) (by decide)]
  · have hw := step_posBits hst
    exact ⟨hw, by rw [readReg_cfg, readReg_cfg, hw]⟩

/-- Settles O39: every field of the reset state as rule R39 gives it, and the words `STATUS` and `CFG` made
from them. -/
theorem resetValues : Obligations.ResetValues := by
  unfold Obligations.ResetValues
  refine ⟨fun w => ⟨rfl, rfl, rfl, rfl, rfl, rfl, rfl, rfl, rfl, rfl, rfl, rfl, ?_⟩, rfl, rfl⟩
  rw [readReg_cfg]
  exact cfgWord_toNat_mod w

end Sys2Proof.Proofs

/-!
The job registers and the invariant (rules R21 to R28, R38 to R40, R144, R171, R190, R200 to R206, R245): what
one step of the CORE and its host can do, said once as `StepEffect`; that every such effect keeps the
invariant, `IN` and `INIT_OK`; and the host's side of the state.
-/

namespace Sys2Proof.Proofs

open Sys2Proof.Machine Sys2Proof.Laws

/-! ## Register writes of the host (rules R21, R206) -/

theorem writeOperandReg_busy (s : State) (r : Fin 8) (v : Word s.posBits) (h : s.active ≠ .idle) :
    s.writeOperandReg r v = s :=
  if_pos ((busy_eq_true s).mpr h)

theorem writeOperandReg_idle (s : State) (r : Fin 8) (v : Word s.posBits) (h : s.active = .idle) :
    s.writeOperandReg r v =
      { s with inLen := if r = 2 then v else s.inLen, outCap := if r = 3 then v else s.outCap } := by
  have hb : ¬ s.busy = true := fun hb => (busy_eq_true s).mp hb h
  rw [State.writeOperandReg, if_neg hb]
  by_cases h2 : r = 2
  · subst h2
    rfl
  · by_cases h3 : r = 3
    · subst h3
      rfl
    · simp only [if_neg h2, if_neg h3]

theorem registerWrite_operand (s : State) {r : Fin 8} (v : Word s.posBits) (h : r ≠ 0) :
    registerWrite s r v = .next (s.writeOperandReg r v) :=
  if_neg h

/-! ## Everything a step can do -/

/-- What a step that answers `t` has done to `s`: a step of the engine, or the host's oldest pending move,
which is then no longer pending. -/
inductive StepEffect (s : State) : State → Prop
  /-- The engine has moved: the host is absent or polls, and keeps its moves, or left the engine this turn. -/
  | engine {t : State} (rest : List (HostAction s.posBits))
      (hin : s.inputs = rest ∨ s.inputs = .engineTurn :: rest)
      (h : engineStep { s with inputs := rest } = .next t) : StepEffect s t
  /-- A move without effect: a poll that found no job, a write that is ignored, or NOP. -/
  | skip (a : HostAction s.posBits) (rest : List (HostAction s.posBits)) (hin : s.inputs = a :: rest) :
      StepEffect s { s with inputs := rest }
  | init (v : Word s.posBits) (rest : List (HostAction s.posBits)) (hin : s.inputs = .writeReg 0 v :: rest)
      (hidle : s.active = .idle) (hv : v.toNat = 1) :
      StepEffect s (State.initialise { s with inputs := rest })
  | compress (v : Word s.posBits) (rest : List (HostAction s.posBits)) (hin : s.inputs = .writeReg 0 v :: rest)
      (hidle : s.active = .idle) (hv : v.toNat = 2) :
      StepEffect s (State.beginCompress { s with inputs := rest })
  | decompress (v : Word s.posBits) (rest : List (HostAction s.posBits)) (hin : s.inputs = .writeReg 0 v :: rest)
      (hidle : s.active = .idle) (hv : v.toNat = 3) :
      StepEffect s (State.beginDecompress { s with inputs := rest })
  | reject (v : Word s.posBits) (rest : List (HostAction s.posBits)) (hin : s.inputs = .writeReg 0 v :: rest)
      (hidle : s.active = .idle) (hv : 4 ≤ v.toNat) :
      StepEffect s (State.rejectCommand { s with inputs := rest })
  | operands (r : Fin 8) (v : Word s.posBits) (rest : List (HostAction s.posBits))
      (hin : s.inputs = .writeReg r v :: rest) (hidle : s.active = .idle) :
      StepEffect s { s with
        inputs := rest, inLen := if r = 2 then v else s.inLen, outCap := if r = 3 then v else s.outCap }
  | storeIn (a : Word s.posBits) (b : Byte) (rest : List (HostAction s.posBits))
      (hin : s.inputs = .storeIn a b :: rest) (hidle : s.active = .idle) :
      StepEffect s { s with inputs := rest, inMem := s.inMem.write a.toNat b }
  | storeOut (a : Word s.posBits) (b : Byte) (rest : List (HostAction s.posBits))
      (hin : s.inputs = .storeOut a b :: rest) (hidle : s.active = .idle) :
      StepEffect s { s with inputs := rest, outMem := s.outMem.write a.toNat b }
  | hardReset (rest : List (HostAction s.posBits)) (hin : s.inputs = .hardReset :: rest) :
      StepEffect s (State.hardReset { s with inputs := rest } (State.reach { s with inputs := rest }))

theorem stepEffect_commandWrite {s t : State} {v : Word s.posBits} {rest : List (HostAction s.posBits)}
    (hin : s.inputs = .writeReg 0 v :: rest) (h : commandWrite { s with inputs := rest } v = .next t) :
    StepEffect s t := by
  rcases commandWrite_cases h with
    ⟨-, rfl⟩ | ⟨hidle, ⟨-, rfl⟩ | ⟨hv, rfl⟩ | ⟨hv, rfl⟩ | ⟨hv, rfl⟩ | ⟨hv, rfl⟩⟩
  · exact .skip _ rest hin
  · exact .skip _ rest hin
  · exact .init v rest hin hidle hv
  · exact .compress v rest hin hidle hv
  · exact .decompress v rest hin hidle hv
  · exact .reject v rest hin hidle hv

theorem stepEffect_writeOperandReg {s : State} {r : Fin 8} {v : Word s.posBits}
    {rest : List (HostAction s.posBits)} (hin : s.inputs = .writeReg r v :: rest) :
    StepEffect s (State.writeOperandReg { s with inputs := rest } r v) := by
  by_cases hidle : s.active = .idle
  · rw [writeOperandReg_idle { s with inputs := rest } r v hidle]
    exact .operands r v rest hin hidle
  · rw [writeOperandReg_busy { s with inputs := rest } r v hidle]
    exact .skip _ rest hin

theorem stepEffect_hostMove {s t : State} {a : HostAction s.posBits} {rest : List (HostAction s.posBits)}
    (hin : s.inputs = a :: rest) (h : hostMove s a rest = .next t) : StepEffect s t := by
  cases a with
  | writeReg r v =>
    by_cases hr : r = 0
    · subst hr
      exact stepEffect_commandWrite hin h
    · have ht := (registerWrite_operand { s with inputs := rest } v hr).symm.trans h
      exact Host.Outcome.next.inj ht ▸ stepEffect_writeOperandReg hin
  | storeIn a b =>
    simp only [hostMove] at h
    obtain ⟨hidle, rfl⟩ := bufferStore_eq_next h
    exact .storeIn a b rest hin hidle
  | storeOut a b =>
    simp only [hostMove] at h
    obtain ⟨hidle, rfl⟩ := bufferStore_eq_next h
    exact .storeOut a b rest hin hidle
  | hardReset => exact Host.Outcome.next.inj h ▸ .hardReset rest hin
  | engineTurn => exact .engine rest (.inr hin) h
  | awaitDone =>
    simp only [hostMove] at h
    split at h
    · exact .engine s.inputs (.inl rfl) h
    · exact Host.Outcome.next.inj h ▸ .skip _ rest hin

theorem stepEffect_of_step {s t : State} (h : step s = .next t) : StepEffect s t := by
  cases hin : s.inputs with
  | nil => exact .engine s.inputs (.inl rfl) ((step_engine hin).symm.trans h)
  | cons a rest => exact stepEffect_hostMove hin ((step_host hin).symm.trans h)

/-! ## The invariant where no job runs -/

/-- Where no job runs the cursors are free. -/
theorem inv_of_idle {s : State} (hidle : s.active = .idle) (hwidth : s.legalWidth) (hregs : s.RegistersOk)
    (hstores : s.StoresOk) : s.Inv where
  width := hwidth
  registers := hregs
  stores := hstores
  decoder h := absurd (hidle.symm.trans h) (by decide)
  encoder h := absurd (hidle.symm.trans h) (by decide)

/-- The kinds no failure of the CORE reports: success, and the three that are never raised. -/
def notRaised : List Kind := [.ok, .notYetImplemented, .invalidAlignment, .internalError]

theorem ne_ok_and_producible {k : Kind} (hk : k ∉ notRaised) : k ≠ .ok ∧ k.producible := by
  simpa [notRaised, Kind.producible] using hk

theorem ok_producible : Kind.ok.producible := ⟨nofun, nofun, nofun⟩

/-- Fault entry leaves a legal state, whatever the cursors were. -/
theorem raise_inv {s : State} {k : Kind} (hk : k ∉ notRaised) (hwidth : s.legalWidth)
    (hstores : s.StoresOk) : (s.raise k).Inv :=
  inv_of_idle rfl hwidth
    { busyClear := fun h => absurd rfl h
      failedEmpty := fun _ => rfl
      okNoFault := fun h => absurd h (ne_ok_and_producible hk).1
      codeProducible := (ne_ok_and_producible hk).2 }
    ⟨hstores.inWf, hstores.outWf, hstores.htWf⟩

/-- A good end of a job leaves a legal state, whatever the cursors were. -/
theorem endOk_inv {s : State} (len : Nat) (hwidth : s.legalWidth) (hstores : s.StoresOk) : (s.endOk len).Inv :=
  inv_of_idle rfl hwidth
    { busyClear := fun h => absurd rfl h
      failedEmpty := fun h => absurd rfl h
      okNoFault := fun _ => ⟨rfl, rfl⟩
      codeProducible := ok_producible }
    ⟨hstores.inWf, hstores.outWf, hstores.htWf⟩

theorem resetOf_registersOk (w : Nat) : (State.resetOf w).RegistersOk where
  busyClear h := absurd rfl h
  failedEmpty _ := rfl
  okNoFault _ := ⟨rfl, rfl⟩
  codeProducible := ok_producible

theorem resetOf_inv {w : Nat} (hlo : 16 ≤ w) (hhi : w < 256) : (State.resetOf w).Inv :=
  inv_of_idle rfl ⟨hlo, hhi⟩ (resetOf_registersOk w) ⟨rfl, rfl, rfl⟩

/-! ## Every effect keeps the invariant -/

/-- The invariant says nothing of the host's pending moves. -/
theorem inputs_inv {s : State} (h : s.Inv) (rest : List (HostAction s.posBits)) :
    ({ s with inputs := rest } : State).Inv :=
  ⟨h.width, { h.registers with }, { h.stores with }, h.decoder, fun ha => { h.encoder ha with }⟩

theorem operands_inv {s : State} (h : s.Inv) (hidle : s.active = .idle) (rest : List (HostAction s.posBits))
    (inLen outCap : Word s.posBits) :
    ({ s with inputs := rest, inLen := inLen, outCap := outCap } : State).Inv :=
  inv_of_idle hidle h.width { h.registers with } { h.stores with }

theorem buffers_inv {s : State} (h : s.Inv) (hidle : s.active = .idle) (rest : List (HostAction s.posBits))
    {inMem outMem : Memory} (hin : inMem.wf = true) (hout : outMem.wf = true) :
    ({ s with inputs := rest, inMem := inMem, outMem := outMem } : State).Inv :=
  inv_of_idle hidle h.width { h.registers with } ⟨hin, hout, h.stores.htWf⟩

theorem hardReset_inv {s : State} (h : s.Inv) (n : Nat) : (s.hardReset n).Inv :=
  inv_of_idle rfl h.width { resetOf_registersOk s.posBits with }
    ⟨h.stores.inWf, abandonBytes_wf _ _ h.stores.outWf, rfl⟩

theorem startEncoder_storesOk {s : State} (h : s.StoresOk) : s.startEncoder.StoresOk :=
  ⟨h.inWf, h.outWf, rfl⟩

theorem startDecoder_storesOk {s : State} (h : s.StoresOk) : s.startDecoder.StoresOk :=
  ⟨h.inWf, h.outWf, h.htWf⟩

/-- A job started after INIT meets the register part of the invariant (rule R40). -/
theorem startJob_registersOk {s : State} (e : Engine) (hinit : s.initOk = true) :
    (s.startJob e).RegistersOk where
  busyClear _ := ⟨rfl, hinit, rfl, rfl⟩
  failedEmpty _ := rfl
  okNoFault _ := ⟨rfl, rfl⟩
  codeProducible := ok_producible

/-- The encoder starts with nothing scanned, nothing emitted and an empty table (rule R40). -/
theorem startEncoder_encoderOk {s : State} (hcap : worstCase s.inLen.toNat ≤ s.outCap.toNat) :
    s.startEncoder.EncoderOk where
  order := le_rfl
  bound := Nat.zero_le _
  capacity := hcap
  emitted := .inl ⟨rfl, rfl⟩
  table _ _ hp := nomatch hp

theorem beginCompress_inv {s : State} (h : s.Inv) : s.beginCompress.Inv := by
  have hstores := startEncoder_storesOk h.stores
  rcases beginCompress_cases s with ⟨-, e⟩ | ⟨-, -, e⟩ | ⟨hinit, hcap, e⟩ <;> rw [e]
  · exact raise_inv (by decide) h.width hstores
  · exact raise_inv (by decide) h.width hstores
  · exact ⟨h.width, { startJob_registersOk .encoder hinit with }, hstores, nofun,
      fun _ => startEncoder_encoderOk hcap⟩

theorem beginDecompress_inv {s : State} (h : s.Inv) : s.beginDecompress.Inv := by
  have hstores := startDecoder_storesOk h.stores
  rcases beginDecompress_cases s with ⟨-, e⟩ | ⟨hinit, e⟩ <;> rw [e]
  · exact raise_inv (by decide) h.width hstores
  · exact ⟨h.width, { startJob_registersOk .decoder hinit with }, hstores,
      fun _ => ⟨Nat.zero_le _, Nat.zero_le _⟩, nofun⟩

/-! ## The engines keep the invariant -/

theorem decoderKinds_raised : ∀ k ∈ decoderKinds, k ∉ notRaised := by decide

/-- Where an instruction of the decoder leads is legal as long as its job runs on (rule R144). -/
theorem decoderReaches_inv {s u : State} (h : DecoderReaches s u) (hinv : s.Inv) (hact : s.active = .decoder) :
    u.Inv := by
  rw [h.frame]
  exact ⟨hinv.width, { hinv.registers with }, ⟨hinv.stores.inWf, h.wf, hinv.stores.htWf⟩,
    fun _ => ⟨h.ipLe, h.opCap⟩, fun ha => absurd (hact.symm.trans ha) (by decide)⟩

theorem decoderStep_inv {s t : State} (h : s.Inv) (hact : s.active = .decoder) (ht : decoderStep s = .next t) :
    t.Inv := by
  obtain ⟨hip, hop⟩ := h.decoder hact
  obtain ⟨u, hu, hcase⟩ := decoderStep_cases s hact hip hop h.stores.outWf
  have hinv := decoderReaches_inv hu h hact
  rcases hcase with ⟨k, hk, e⟩ | ⟨-, -, e⟩ | ⟨-, e⟩ <;> obtain rfl := Host.Outcome.next.inj (e.symm.trans ht)
  · exact raise_inv (decoderKinds_raised k hk) hinv.width hinv.stores
  · exact endOk_inv u.op hinv.width hinv.stores
  · exact hinv

theorem encoderStep_inv {s t : State} (h : s.Inv) (hact : s.active = .encoder) (ht : encoderStep s = .next t) :
    t.Inv := by
  have hend : ∀ m n, EncoderWrites s m n → ({ s with outMem := m, eop := n } : State).StoresOk :=
    fun m n hw => ⟨h.stores.inWf, hw.wf, h.stores.htWf⟩
  rcases encoderStep_cases s (h.encoder hact) h.stores.outWf h.stores.htWf with
    ⟨m, tab, ip, ii, op, e, hw, htab, -, henc⟩ | ⟨m, n, hw, -, -, ⟨-, e⟩ | ⟨-, e⟩⟩ <;>
    obtain rfl := Host.Outcome.next.inj (e.symm.trans ht)
  · exact ⟨h.width, { h.registers with }, ⟨h.stores.inWf, hw.wf, htab⟩,
      fun ha => absurd (hact.symm.trans ha) (by decide), fun _ => henc⟩
  · exact endOk_inv n h.width (hend m n hw)
  · exact raise_inv (by decide) h.width (hend m n hw)

theorem engineStep_inv {s t : State} (h : s.Inv) (ht : engineStep s = .next t) : t.Inv := by
  cases hact : s.active with
  | idle =>
    simp only [engineStep, hact] at ht
    exact Host.Outcome.next.inj ht ▸ h
  | encoder => exact encoderStep_inv h hact ((engineStep_encoder hact).symm.trans ht)
  | decoder => exact decoderStep_inv h hact ((engineStep_decoder hact).symm.trans ht)

theorem stepEffect_inv {s t : State} (h : s.Inv) (he : StepEffect s t) : t.Inv := by
  cases he with
  | engine rest hin he => exact engineStep_inv (inputs_inv h rest) he
  | skip a rest => exact inputs_inv h rest
  | init v rest => exact endOk_inv 0 h.width { h.stores with }
  | compress v rest => exact beginCompress_inv (inputs_inv h rest)
  | decompress v rest => exact beginDecompress_inv (inputs_inv h rest)
  | reject v rest => exact raise_inv (by decide) h.width { h.stores with }
  | operands r v rest hin hidle => exact operands_inv h hidle rest _ _
  | storeIn a b rest hin hidle =>
    exact buffers_inv h hidle rest (Memory.write_wf _ _ h.stores.inWf) h.stores.outWf
  | storeOut a b rest hin hidle =>
    exact buffers_inv h hidle rest h.stores.inWf (Memory.write_wf _ _ h.stores.outWf)
  | hardReset rest => exact hardReset_inv (inputs_inv h rest) _

/-! ## What a step does to `IN` and to `INIT_OK` (rules R36, R38) -/

@[simp] theorem beginCompress_inMem (s : State) : s.beginCompress.inMem = s.inMem := by
  rcases beginCompress_cases s with ⟨-, h⟩ | ⟨-, -, h⟩ | ⟨-, -, h⟩ <;> simp [h]

@[simp] theorem beginDecompress_inMem (s : State) : s.beginDecompress.inMem = s.inMem := by
  rcases beginDecompress_cases s with ⟨-, h⟩ | ⟨-, h⟩ <;> simp [h]

@[simp] theorem beginCompress_initOk (s : State) : s.beginCompress.initOk = s.initOk := by
  rcases beginCompress_cases s with ⟨-, h⟩ | ⟨-, -, h⟩ | ⟨-, -, h⟩ <;> simp [h]

@[simp] theorem beginDecompress_initOk (s : State) : s.beginDecompress.initOk = s.initOk := by
  rcases beginDecompress_cases s with ⟨-, h⟩ | ⟨-, h⟩ <;> simp [h]

theorem stepEffect_inMem {s t : State} (he : StepEffect s t) :
    t.inMem = s.inMem ∨ ∃ a b more, s.inputs = .storeIn a b :: more := by
  cases he with
  | engine rest hin he => exact .inl (engineStep_same he).inMem
  | compress v rest => exact .inl (beginCompress_inMem _)
  | decompress v rest => exact .inl (beginDecompress_inMem _)
  | storeIn a b rest hin => exact .inr ⟨a, b, rest, hin⟩
  | skip | init | reject | operands | storeOut | hardReset => exact .inl rfl

theorem stepEffect_initOk {s t : State} (he : StepEffect s t) :
    t.initOk = s.initOk ∨ (t.initOk = false ∧ ∃ more, s.inputs = .hardReset :: more) ∨
      (t.initOk = true ∧ s.active = .idle ∧ ∃ v more, s.inputs = .writeReg 0 v :: more ∧ v.toNat = 1) := by
  cases he with
  | engine rest hin he => exact .inl (engineStep_same he).initOk
  | init v rest hin hidle hv => exact .inr (.inr ⟨rfl, hidle, v, rest, hin, hv⟩)
  | compress v rest => exact .inl (beginCompress_initOk _)
  | decompress v rest => exact .inl (beginDecompress_initOk _)
  | hardReset rest hin => exact .inr (.inl ⟨rfl, rest, hin⟩)
  | skip | reject | operands | storeIn | storeOut => exact .inl rfl

/-- A word of value 1 is the word 1, at every width. -/
theorem word_eq_one {w : Nat} {v : Word w} (h : v.toNat = 1) : v = 1 := by
  have hlt := v.isLt
  exact BitVec.eq_of_toNat_eq (h.trans (word_toNat (by omega)).symm)

/-! ## How far into `OUT` a running job can have written (rule R245) -/

theorem reach_idle {s : State} (h : s.active = .idle) : s.reach = 0 := by
  simp [State.reach, engineStep, State.cursorOf, h]

theorem reach_of_next {s t : State} (h : engineStep s = .next t) :
    s.reach = max (s.cursorOf s.active) (t.cursorOf s.active) := by
  rw [State.reach, h]

theorem reach_le_outCap {s : State} (h : s.Inv) : s.reach ≤ s.outCap.toNat := by
  cases hact : s.active with
  | idle => exact reach_idle hact ▸ Nat.zero_le _
  | encoder =>
    have hmax : ∀ t : State, encoderStep s = .next t → s.eop ≤ t.eop → t.eop ≤ s.outCap.toNat →
        s.reach ≤ s.outCap.toNat := fun t e hle hcap => by
      rw [reach_of_next ((engineStep_encoder hact).trans e), hact]
      exact max_le (hle.trans hcap) hcap
    rcases encoderStep_cases s (h.encoder hact) h.stores.outWf h.stores.htWf with
      ⟨m, tab, ip, ii, op, e, hw, -⟩ | ⟨m, n, hw, -, -, ⟨-, e⟩ | ⟨-, e⟩⟩ <;>
      exact hmax _ e hw.forward hw.cap
  | decoder =>
    obtain ⟨hip, hop⟩ := h.decoder hact
    have hmax : ∀ t : State, decoderStep s = .next t → t.op ≤ s.outCap.toNat → s.reach ≤ s.outCap.toNat :=
      fun t e hcap => by
        rw [reach_of_next ((engineStep_decoder hact).trans e), hact]
        exact max_le hop hcap
    obtain ⟨u, hu, ⟨k, -, e⟩ | ⟨-, -, e⟩ | ⟨-, e⟩⟩ := decoderStep_cases s hact hip hop h.stores.outWf <;>
      exact hmax _ e hu.opCap

/-! ## Bits of the `STATUS` word -/

/-- A flag is read from the bit it is stored in. -/
theorem getLsbD_eq_flag {w i : Nat} {v : Word w} {b : Bool} (h : v.toNat / 2 ^ i % 2 = b.toNat) :
    v.getLsbD i = b := by
  rw [BitVec.getLsbD, Nat.testBit_eq_decide_div_mod_eq, h]
  cases b <;> rfl

/-- The fields of `STATUS` from its value (rule R23). -/
theorem status_fields (s : State) (h : 16 ≤ s.posBits) :
    s.status.getLsbD 0 = s.busy ∧ s.status.getLsbD 1 = s.done ∧ s.status.getLsbD 2 = s.initOk ∧
      s.status.toNat / 8 % 32 = 0 ∧ s.status.toNat / 256 = kindCode s.code := by
  have hval := status_toNat s h
  have h1 := Bool.toNat_le s.busy
  have h2 := Bool.toNat_le s.done
  have h3 := Bool.toNat_le s.initOk
  refine ⟨getLsbD_eq_flag ?_, getLsbD_eq_flag ?_, getLsbD_eq_flag ?_, ?_, ?_⟩ <;> omega

/-! ## The command of a value (rules R22, R200) -/

theorem decodeCommand_of_encode {w : Nat} {v : Word w} {i : Instr} (h : encodeCommand i = some v.toNat) :
    decodeCommand v = some i := by
  unfold decodeCommand
  cases i
  case nop | init | compress | decompress =>
    rw [← Option.some.inj h]
    rfl
  case litf | litr | m1n | m1f | m2s | m2l | m3 | m4 | eos => cases h

theorem encodeCommand_of_decode {w : Nat} {v : Word w} {i : Instr} (h : decodeCommand v = some i) :
    encodeCommand i = some v.toNat := by
  rcases decodeCommand_eq_some h with ⟨hv, rfl⟩ | ⟨hv, rfl⟩ | ⟨hv, rfl⟩ | ⟨hv, rfl⟩ <;> rw [hv] <;> rfl

theorem decodeCommand_eq_none_iff {w : Nat} {v : Word w} : decodeCommand v = none ↔ 4 ≤ v.toNat := by
  refine ⟨decodeCommand_eq_none, fun hv => ?_⟩
  cases hd : decodeCommand v with
  | none => rfl
  | some i => rcases decodeCommand_eq_some hd with ⟨h, -⟩ | ⟨h, -⟩ | ⟨h, -⟩ | ⟨h, -⟩ <;> omega

/-! ## The obligations -/

/-- Settles O48: a step has one of the effects of `StepEffect`, and each of them keeps the invariant. -/
theorem stepKeepsTheInvariant : Obligations.StepKeepsTheInvariant := by
  unfold Obligations.StepKeepsTheInvariant
  exact fun s t hinv hst => stepEffect_inv hinv (stepEffect_of_step hst)

/-- Settles O35: the value of `STATUS` is the sum of its fields, each below the weight of the next. -/
theorem statusWordFields : Obligations.StatusWordFields := by
  unfold Obligations.StatusWordFields
  refine ⟨fun s ⟨hlo, _⟩ => ?_, rfl, rfl, rfl, rfl, rfl, rfl, rfl, rfl, rfl, rfl, rfl, rfl, rfl, rfl⟩
  obtain ⟨hbusy, hdone, hinit, hzero, hcode⟩ := status_fields s hlo
  exact ⟨hbusy ▸ busy_eq_true s, hdone, hinit, hzero, hcode, kindCode_lt s.code⟩

/-- Settles O38: the reset writes `OUT` below the reach of the abandoned job only, and no job reaches past
`OUT_CAP`. -/
theorem hardResetClearsTheRegisters : Obligations.HardResetClearsTheRegisters := by
  unfold Obligations.HardResetClearsTheRegisters
  intro s more hinv hin
  refine ⟨abandonBytes s.freeCount (State.reach { s with inputs := more }) s.outMem, _, _, _, _, _, _, _, _, _, _,
    step_host hin, fun hidle => ?_, fun a ha => ?_⟩
  · rw [reach_idle (s := { s with inputs := more }) hidle]
    rfl
  · exact abandonBytes_read _ _ a hinv.stores.outWf ((reach_le_outCap (inputs_inv hinv more)).trans ha)

/-- Settles O52: of all effects only a host store to `IN` writes `IN`. -/
theorem inputIsNeverWritten : Obligations.InputIsNeverWritten := by
  unfold Obligations.InputIsNeverWritten
  exact fun s t hst => stepEffect_inMem (stepEffect_of_step hst)

/-- Settles O53: of all effects only hardware reset and INIT write `INIT_OK`. -/
theorem initOkIsSticky : Obligations.InitOkIsSticky := by
  unfold Obligations.InitOkIsSticky
  intro s t hst
  rcases stepEffect_initOk (stepEffect_of_step hst) with h | ⟨ht, hreset⟩ | ⟨ht, hidle, v, more, hin, hv⟩
  · exact ⟨fun hs => .inl (h.trans hs), fun hs ht => absurd (hs.symm.trans (h.symm.trans ht)) (by decide)⟩
  · exact ⟨fun _ => .inr hreset, fun _ ht' => absurd (ht.symm.trans ht') (by decide)⟩
  · exact ⟨fun _ => .inl ht, fun _ _ => ⟨hidle, more, word_eq_one hv ▸ hin⟩⟩

/-- Settles O6: encoding and decoding a command are inverse, and the four values below 4 are commands. -/
theorem commandValueSelectsCommand : Obligations.CommandValueSelectsCommand := by
  unfold Obligations.CommandValueSelectsCommand
  refine fun w v => ⟨fun i => ⟨encodeCommand_of_decode, decodeCommand_of_encode⟩, ?_⟩
  rw [decodeCommand_eq_none_iff]
  omega

/-- Settles O25: both branches of the `BUSY` test leave the state. -/
theorem nopChangesNothing : Obligations.NopChangesNothing := by
  unfold Obligations.NopChangesNothing
  intro s
  by_cases h : s.active = .idle
  · exact whenIdle_idle s (fun s => s) h
  · exact whenIdle_busy s (fun s => s) h

/-- Settles O27: with `INIT_OK` set and the capacity there, COMPRESS is its job start. -/
theorem compressStartsTheEncoder : Obligations.CompressStartsTheEncoder := by
  unfold Obligations.CompressStartsTheEncoder
  intro s hidle hinit hcap
  have hexec : exec .compress s = .next s.beginCompress := whenIdle_idle s State.beginCompress hidle
  rw [hexec]
  rcases beginCompress_cases s with ⟨h, -⟩ | ⟨-, h, -⟩ | ⟨-, -, e⟩
  · exact absurd (hinit.symm.trans h) (by decide)
  · unfold worstCase at h
    omega
  · rw [e]
    rfl

/-- Settles O28: with `INIT_OK` set, DECOMPRESS is its job start. -/
theorem decompressStartsTheDecoder : Obligations.DecompressStartsTheDecoder := by
  unfold Obligations.DecompressStartsTheDecoder
  intro s hidle hinit
  have hexec : exec .decompress s = .next s.beginDecompress := whenIdle_idle s State.beginDecompress hidle
  rw [hexec]
  rcases beginDecompress_cases s with ⟨h, -⟩ | ⟨-, e⟩
  · exact absurd (hinit.symm.trans h) (by decide)
  · rw [e]
    rfl

/-- Settles O31: every wire instruction is guarded by the test for a DECOMPRESS job. -/
theorem wireInstructionsNeedAJob : Obligations.WireInstructionsNeedAJob := by
  unfold Obligations.WireInstructionsNeedAJob
  intro i s hwire hact
  cases i
  case nop | init | compress | decompress => cases hwire
  case litf | litr | m1n | m1f | m2s | m2l | m3 | m4 | eos => exact inDecompressJob_other s _ hact

/-- Settles O34: an idle CORE takes an operand register's value, and reads give the fields. -/
theorem hostRegisterAccess : Obligations.HostRegisterAccess := by
  unfold Obligations.HostRegisterAccess
  refine ⟨fun s r v more hidle hin hr => ?_, fun s => ⟨rfl, rfl, rfl, rfl, rfl, rfl⟩⟩
  calc step s = registerWrite { s with inputs := more } r v := step_host hin
    _ = .next (State.writeOperandReg { s with inputs := more } r v) := registerWrite_operand { s with inputs := more } v hr
    _ = _ := by rw [writeOperandReg_idle { s with inputs := more } r v hidle]

/-- Settles O47: the default width is one of the legal ones. -/
theorem resetMeetsTheInvariant : Obligations.ResetMeetsTheInvariant := by
  unfold Obligations.ResetMeetsTheInvariant
  exact ⟨resetOf_inv (by decide) (by decide), fun w hlo hhi => resetOf_inv hlo hhi⟩

end Sys2Proof.Proofs

/-!
What reaches the buffers (rules R55, R56, R60, R110 to R118, R180, R186, R188, R208, R249): where a match
completes, the stores of the host, and the frame of an encoder step.
-/

namespace Sys2Proof.Proofs

open Sys2Proof.Machine Sys2Proof.Laws

/-! ## Where a match completes (rules R110, R111) -/

/-- `st` after a match is the count of its trailing literals (rules R31, R142). -/
theorem stCode_stAfter {n : Nat} (h : n ≤ 3) : stCode (stAfter n) = BitVec.ofNat 3 n := by
  interval_cases n <;> rfl

/-- The body of a match whose source starts in the window, and whose copy and trailing literals are there
and fit: none of the checks of rule R231 fails, and both copies are made. -/
theorem matchThenLiterals_completes {dist len sc : Nat} {s : State} (hsc : sc ≤ 3) (hwf : s.outMem.wf = true)
    (hdist : 1 ≤ dist) (hwindow : dist ≤ s.op) (hcap : s.op + len + sc ≤ s.outCap.toNat)
    (hin : s.ip + sc ≤ s.inLen.toNat) :
    ∃ m m' st', stCode st' = BitVec.ofNat 3 sc ∧ historyCopied s.outMem m dist s.op len ∧
      literalsCopied s.inMem s.ip m m' (s.op + len) sc ∧
      matchThenLiterals dist len sc s =
        .go { s with ip := s.ip + sc, op := s.op + len + sc, st := st', outMem := m' } := by
  rcases matchThenLiterals_cases dist len sc s hdist hwf with
    ⟨h, -⟩ | ⟨-, h, -⟩ | ⟨-, -, m, hm, hframe, hstep, ⟨h, -⟩ | ⟨-, h, -⟩ | ⟨-, -, m', hm', hgo, hread⟩⟩
  · omega
  · omega
  · omega
  · omega
  · have hperiodic := periodic_of_step hdist hwindow (fun a ha => hframe a (.inl ha)) hstep
    exact ⟨m, m', stAfter sc, stCode_stAfter hsc, ⟨hm, hframe, hstep, hperiodic⟩, ⟨hm', hread⟩, hgo⟩

/-- In a DECOMPRESS job M1N, M1F, M2S and M2L are the common body of rule R111. -/
theorem exec_shortMatch {i : Instr} {dist len sc : Nat} {s : State} (hact : s.active = .decoder)
    (hi : (i = .m1n dist sc ∧ len = 2) ∨ (i = .m1f dist sc ∧ len = 3) ∨ i = .m2s dist len sc ∨
      i = .m2l dist len sc) : exec i s = (matchThenLiterals dist len sc s).outcome := by
  rcases hi with ⟨rfl, rfl⟩ | ⟨rfl, rfl⟩ | rfl | rfl <;> exact inDecompressJob_decoder s _ hact

/-- In a DECOMPRESS job M3 and M4 are the common body of rule R111. -/
theorem exec_wideMatch {i : Instr} {dist len sc : Nat} {s : State} (hact : s.active = .decoder)
    (hi : i = .m3 dist len sc ∨ i = .m4 dist len sc) : exec i s = (matchThenLiterals dist len sc s).outcome := by
  rcases hi with rfl | rfl <;> exact inDecompressJob_decoder s _ hact

/-! ## The stores of the host (rules R208, R249) -/

theorem bufferStore_idle {s : State} (f : State → State) (h : s.active = .idle) : bufferStore s f = .next (f s) :=
  if_neg fun hb => (busy_eq_true s).mp hb h

theorem bufferStore_busy {s : State} (f : State → State) (h : s.active ≠ .idle) :
    bufferStore s f = .refused .bufferStoreWhileBusy :=
  if_pos ((busy_eq_true s).mpr h)

/-! ## The obligations -/

/-- Settles O22: the four short forms have the common body, which completes. -/
theorem shortMatchesComplete : Obligations.ShortMatchesComplete := by
  unfold Obligations.ShortMatchesComplete
  intro i dist len sc s hi hsc hact hwf hdist hwindow hcap hin
  obtain ⟨m, m', st', hst, hcopied, hliterals, hgo⟩ :=
    matchThenLiterals_completes hsc hwf hdist hwindow hcap hin
  exact ⟨m, m', st', hst, hcopied, hliterals, by rw [exec_shortMatch hact hi, hgo, outcome_go]⟩

/-- Settles O23: both wide forms have the common body, which completes. -/
theorem wideMatchesComplete : Obligations.WideMatchesComplete := by
  unfold Obligations.WideMatchesComplete
  intro i dist len sc s hi hsc hact hwf hdist hwindow hcap hin
  obtain ⟨m, m', st', hst, hcopied, hliterals, hgo⟩ :=
    matchThenLiterals_completes hsc hwf hdist hwindow hcap hin
  exact ⟨m, m', st', hst, hcopied, hliterals, by rw [exec_wideMatch hact hi, hgo, outcome_go]⟩

/-- Settles O37: on an idle CORE a store is one write of the buffer's memory, and the `BUSY` test refuses it
during a job. -/
theorem hostStoresOneByte : Obligations.HostStoresOneByte := by
  unfold Obligations.HostStoresOneByte
  refine ⟨fun s a b more hidle hwf hin => ?_, fun s a b more hidle hwf hin => ?_, fun s a b more hbusy hin => ?_⟩
  · refine ⟨s.inMem.write a.toNat b, ?_, Memory.write_wf _ _ hwf, fun x => Memory.read_write _ x _ hwf⟩
    rw [step_host hin, hostMove, bufferStore_idle]
    exact hidle
  · refine ⟨s.outMem.write a.toNat b, ?_, Memory.write_wf _ _ hwf, fun x => Memory.read_write _ x _ hwf⟩
    rw [step_host hin, hostMove, bufferStore_idle]
    exact hidle
  · rcases hin with hin | hin <;> rw [step_host hin, hostMove, bufferStore_busy] <;> exact hbusy

/-- Settles O55: an encoder step goes on or ends the job, and `EncoderWrites` is its frame in both cases. -/
theorem encoderWritesOnlyBelowItsCursor : Obligations.EncoderWritesOnlyBelowItsCursor := by
  unfold Obligations.EncoderWritesOnlyBelowItsCursor
  intro s t hinv hact hin hst
  rw [step_engine hin] at hst
  refine ⟨engineStep_same hst, ?_⟩
  rw [engineStep_encoder hact] at hst
  rcases encoderStep_cases s (hinv.encoder hact) hinv.stores.outWf hinv.stores.htWf with
    ⟨m, tab, ip, ii, op, e, hw, -⟩ | ⟨m, n, hw, -, -, ⟨-, e⟩ | ⟨-, e⟩⟩ <;>
    obtain rfl := Host.Outcome.next.inj (e.symm.trans hst) <;>
    refine ⟨rfl, rfl, rfl, rfl, rfl, ?_, fun a ha => hw.above a (hw.cap.trans ha), hw.behind⟩
  · exact fun _ => ⟨hw.forward, hw.cap, hw.above⟩
  · exact nofun
  · exact nofun

end Sys2Proof.Proofs

/-!
The encoding (rules R72 to R84): a tag selects exactly one row of the opcode map; on each row decoding and
encoding are inverse to each other; and bytes that end inside an instruction can be completed.
-/

namespace Sys2Proof.Proofs

open Sys2Proof.Machine Sys2Proof.Laws

/-! ## The opcode map (rule R80) -/

/-- The rows of rule R80: the states and tag values of each form. -/
def opcodeRow (st : St) (tag : Nat) : Form → Prop
  | .litf => st = .start ∧ 18 ≤ tag
  | .litr => (st = .start ∨ st = .s0) ∧ tag < 0x10
  | .m1n => (st = .s1 ∨ st = .s2 ∨ st = .s3) ∧ tag < 0x10
  | .m1f => st = .s4 ∧ tag < 0x10
  | .m4OrEos => (st = .start → tag < 18) ∧ 0x10 ≤ tag ∧ tag < 0x20
  | .m3 => st ≠ .start ∧ 0x20 ≤ tag ∧ tag < 0x40
  | .m2s => st ≠ .start ∧ 0x40 ≤ tag ∧ tag < 0x80
  | .m2l => st ≠ .start ∧ 0x80 ≤ tag

/-- The tests of rule R141, made in their order, find the row that holds the state and the tag. -/
theorem opcodeRow_dispatchForm (st : St) (tag : Byte) : opcodeRow st tag.toNat (dispatchForm st tag) := by
  unfold dispatchForm
  split
  · next h => exact h
  next hlitf =>
  have hstart : st = .start → tag.toNat < 18 := fun hs => Nat.not_le.mp fun h => hlitf ⟨hs, h⟩
  have hlater : 18 ≤ tag.toNat → st ≠ .start := fun h hs => hlitf ⟨hs, h⟩
  split
  · next h => exact ⟨hlater (by omega), h⟩
  split
  · next h => exact ⟨hlater (by omega), h, by omega⟩
  split
  · next h => exact ⟨hlater (by omega), h, by omega⟩
  split
  · next h => exact ⟨hstart, h, by omega⟩
  split
  · next h => exact ⟨h, by omega⟩
  split
  · next h => exact ⟨h, by omega⟩
  next hlitr hm1f =>
  exact ⟨by cases st <;> simp at hlitr hm1f ⊢, by omega⟩

/-- A tag selects a form exactly where the form's row holds the state and the tag. -/
theorem dispatchForm_eq_iff {st : St} {tag : Byte} {f : Form} :
    dispatchForm st tag = f ↔ opcodeRow st tag.toNat f := by
  refine ⟨fun h => h ▸ opcodeRow_dispatchForm st tag, fun h => ?_⟩
  cases f with
  | litf => exact h.1 ▸ dispatchForm_start h.2
  | litr => exact dispatchForm_litr h.1 h.2
  | m1n => exact dispatchForm_m1n h.1 h.2
  | m1f => exact h.1 ▸ dispatchForm_m1f h.2
  | m4OrEos =>
    obtain ⟨hst, hlo, hhi⟩ := h
    exact dispatchForm_m4 hst hlo hhi
  | m3 =>
    obtain ⟨hst, hlo, hhi⟩ := h
    exact dispatchForm_m3 hst hlo hhi
  | m2s =>
    obtain ⟨hst, hlo, hhi⟩ := h
    exact dispatchForm_m2s hst hlo hhi
  | m2l => exact dispatchForm_m2l h.1 h.2

/-- Decoding is reading a tag and the operands of the row that holds it. -/
theorem decode_eq_ok_iff {st : St} {bytes rest : List Byte} {i : Instr} :
    decode st bytes = .ok (i, rest) ↔ ∃ tag more f, bytes = tag :: more ∧ opcodeRow st tag.toNat f ∧
      decodeOperands f tag more = some (i, rest) := by
  constructor
  · intro h
    obtain ⟨tag, more, rfl, hop⟩ := decode_eq_ok h
    exact ⟨tag, more, _, rfl, opcodeRow_dispatchForm st tag, hop⟩
  · rintro ⟨tag, more, f, rfl, hrow, hop⟩
    rw [decode_cons, dispatchForm_eq_iff.mpr hrow, hop]

/-! ## Operand fields (rules R74 to R76) -/

theorem inRange_iff {lo hi n : Nat} : inRange lo hi n = true ↔ lo ≤ n ∧ n ≤ hi := by
  simp [inRange]

@[simp] theorem wf_litf {t : Nat} : (Instr.litf t).wf = true ↔ 1 ≤ t ∧ t ≤ 238 := inRange_iff

@[simp] theorem wf_litr {t : Nat} : (Instr.litr t).wf = true ↔ 4 ≤ t := decide_eq_true_iff

@[simp] theorem wf_m1n {dist s : Nat} : (Instr.m1n dist s).wf = true ↔ (1 ≤ dist ∧ dist ≤ 1024) ∧ s ≤ 3 := by
  simp [Instr.wf, inRange_iff]

@[simp] theorem wf_m1f {dist s : Nat} : (Instr.m1f dist s).wf = true ↔ (2049 ≤ dist ∧ dist ≤ 3072) ∧ s ≤ 3 := by
  simp [Instr.wf, inRange_iff]

@[simp] theorem wf_m2s {dist len s : Nat} :
    (Instr.m2s dist len s).wf = true ↔ ((1 ≤ dist ∧ dist ≤ 2048) ∧ 3 ≤ len ∧ len ≤ 4) ∧ s ≤ 3 := by
  simp [Instr.wf, inRange_iff]

@[simp] theorem wf_m2l {dist len s : Nat} :
    (Instr.m2l dist len s).wf = true ↔ ((1 ≤ dist ∧ dist ≤ 2048) ∧ 5 ≤ len ∧ len ≤ 8) ∧ s ≤ 3 := by
  simp [Instr.wf, inRange_iff]

@[simp] theorem wf_m3 {dist len s : Nat} :
    (Instr.m3 dist len s).wf = true ↔ ((1 ≤ dist ∧ dist ≤ 16384) ∧ 3 ≤ len) ∧ s ≤ 3 := by
  simp [Instr.wf, inRange_iff]

@[simp] theorem wf_m4 {dist len s : Nat} :
    (Instr.m4 dist len s).wf = true ↔ ((16385 ≤ dist ∧ dist ≤ 49151) ∧ 3 ≤ len) ∧ s ≤ 3 := by
  simp [Instr.wf, inRange_iff, Config.m3MaxDist]

@[simp] theorem selectableIn_m4 {st : St} {dist len s : Nat} : (Instr.m4 dist len s).selectableIn st = true ↔
    (st = .start → dist < 32768 ∧ (len = 3 ∨ 9 < len)) := by
  simp [Instr.selectableIn, imp_iff_not_or, Config.m3MaxDist, Config.m4InlineMaxLen]

theorem decodeWide_cons (mk : Byte → Byte → Instr) (b0 b1 : Byte) (rest : List Byte) :
    decodeWide mk (b0 :: b1 :: rest) = some (mk b0 b1, rest) := rfl

/-- The operands of format W are two bytes (rule R75). -/
theorem decodeWide_eq_some {mk : Byte → Byte → Instr} {bytes rest : List Byte} {i : Instr}
    (h : decodeWide mk bytes = some (i, rest)) : ∃ b0 b1, bytes = b0 :: b1 :: rest ∧ i = mk b0 b1 := by
  match bytes, h with
  | b0 :: b1 :: more, h =>
    obtain ⟨rfl, rfl⟩ := Prod.mk.inj (Option.some.inj h)
    exact ⟨b0, b1, rfl, rfl⟩

/-- The inline length field of a tag: 0 where the length is extended (rules R73, R75). -/
def inlineField (bias inlineMax len : Nat) : Nat := if len ≤ inlineMax then len - bias else 0

/-- The bytes between the tag and the operands that follow a length: none where it is inline. -/
def extensionOf (inlineMax len : Nat) : List Byte := if len ≤ inlineMax then [] else extBytes (len - inlineMax)

theorem lengthBytes_eq_cons (op bias inlineMax len : Nat) :
    lengthBytes op bias inlineMax len = byteOf (op + inlineField bias inlineMax len) :: extensionOf inlineMax len := by
  unfold lengthBytes inlineField extensionOf
  split <;> rfl

theorem inlineField_le (bias inlineMax len : Nat) : inlineField bias inlineMax len ≤ inlineMax - bias := by
  unfold inlineField
  split <;> omega

/-- The bytes from which a length is read are the encoder's (rules R73, R75, R77). -/
theorem lengthBytes_of_lengthField {tag : Byte} {op inl bias base len : Nat} {bytes rest : List Byte}
    (htag : tag.toNat = op + inl) (hinl : inl ≤ base) (h : lengthField inl bias base bytes = some (len, rest)) :
    bias < len ∧ inl = inlineField bias (bias + base) len ∧
      tag :: bytes = lengthBytes op bias (bias + base) len ++ rest := by
  obtain ⟨hlen, hfield, hbytes⟩ := lengthField_eq_some h hinl
  refine ⟨hlen, hfield, ?_⟩
  rw [lengthBytes_eq_cons, inlineField, ← hfield, byteOf_eq htag, hbytes]
  rfl

/-! ## What decodes is well formed and is encoded by its bytes (rules R77, R78, R83, R84) -/

/-- The two bytes after the length of format W are made of the fields read from them (rules R75, R76). -/
theorem wideBytes_of_fields (b0 b1 : Byte) :
    b0.toNat = dist14 b0 b1 % 64 * 4 + bits b0 1 0 ∧ b1.toNat = dist14 b0 b1 / 64 := by
  have hb0 := b0.isLt
  simp only [dist14, bits]
  omega

/-- A tag of M4 at `START` is `0x10` or `0x11`: distance bit 14 clear, and length 3 or an extended one (rules
R80, R84). -/
theorem m4_fields_of_start {tag : Byte} {len : Nat} (hlo : 0x10 ≤ tag.toNat) (hstart : tag.toNat < 18)
    (hinl : bits tag 2 0 = inlineField 2 9 len) (hlen : 2 < len) : bits tag 3 3 = 0 ∧ (len = 3 ∨ 9 < len) := by
  simp only [bits, inlineField] at hinl ⊢
  split at hinl <;> omega

/-- On every row of the map the operands are in their ranges, the state is one of the instruction's, and
the bytes of an instruction other than EOS are its encoding. -/
theorem decodeOperands_canonical {st : St} {f : Form} {tag : Byte} {bytes rest : List Byte} {i : Instr}
    (hrow : opcodeRow st tag.toNat f) (h : decodeOperands f tag bytes = some (i, rest)) :
    (i.isWire = true ∧ i.wf = true ∧ i.selectableIn st = true) ∧
      (i ≠ .eos → tag :: bytes = encodeWire i ++ rest) := by
  have htag := tag.isLt
  cases f <;> simp only [opcodeRow] at hrow <;> simp only [decodeOperands] at h
  case litf =>
    obtain ⟨rfl, hlo⟩ := hrow
    obtain ⟨rfl, rfl⟩ := Prod.mk.inj (Option.some.inj h)
    refine ⟨⟨rfl, wf_litf.mpr (by omega), rfl⟩, fun _ => ?_⟩
    rw [encodeWire, byteOf_eq (b := tag) (by omega)]
    rfl
  case litr =>
    obtain ⟨⟨t, r⟩, ht, hr⟩ := Option.map_eq_some_iff.mp h
    obtain ⟨rfl, rfl⟩ := Prod.mk.inj hr
    obtain ⟨hlen, -, hbytes⟩ := lengthBytes_of_lengthField (tag := tag) (op := 0) (by simp only [bits]; omega)
      (by simp only [bits]; omega) ht
    exact ⟨⟨rfl, wf_litr.mpr hlen, by simpa [Instr.selectableIn] using hrow.1⟩, fun _ => hbytes⟩
  case m1n | m1f | m2s | m2l =>
    obtain ⟨b, rfl, rfl⟩ := decodeShort_eq_some h
    have hb := b.isLt
    simp only [bits, wf_m1n, wf_m1f, wf_m2s, wf_m2l]
    refine ⟨⟨rfl, by omega, by simpa [Instr.selectableIn, or_assoc] using hrow.1⟩, fun _ => ?_⟩
    rw [encodeWire, byteOf_eq (b := tag) (by omega), byteOf_eq (b := b) (by omega)]
    rfl
  case m3 =>
    obtain ⟨⟨len, r⟩, hlen, hr⟩ := Option.bind_eq_some_iff.mp h
    obtain ⟨b0, b1, rfl, rfl⟩ := decodeWide_eq_some hr
    obtain ⟨hmin, -, hbytes⟩ := lengthBytes_of_lengthField (tag := tag) (op := 0x20) (by simp only [bits]; omega)
      (by simp only [bits]; omega) hlen
    have hdist := dist14_lt b0 b1
    obtain ⟨hb0, hb1⟩ := wideBytes_of_fields b0 b1
    refine ⟨⟨rfl, wf_m3.mpr ⟨⟨by omega, hmin⟩, Nat.le_of_lt_succ (bits_lt b0 1 0)⟩,
      by simpa [Instr.selectableIn] using hrow.1⟩, fun _ => ?_⟩
    rw [encodeWire, Nat.add_sub_cancel, hbytes, byteOf_eq (b := b0) (by omega), byteOf_eq (b := b1) (by omega),
      List.append_assoc]
    rfl
  case m4OrEos =>
    obtain ⟨⟨len, r⟩, hlen, hr⟩ := Option.bind_eq_some_iff.mp h
    obtain ⟨b0, b1, rfl, rfl⟩ := decodeWide_eq_some hr
    obtain ⟨hmin, hinl, hbytes⟩ := lengthBytes_of_lengthField (tag := tag) (op := 0x10 + bits tag 3 3 * 8)
      (by simp only [bits]; omega) (by simp only [bits]; omega) hlen
    have hdist := dist14_lt b0 b1
    have hbits := bits_lt tag 3 3
    unfold m4OrEos
    split
    · exact ⟨⟨rfl, rfl, rfl⟩, fun h => absurd rfl h⟩
    next hcode =>
    refine ⟨⟨rfl, wf_m4.mpr ⟨⟨by omega, hmin⟩, Nat.le_of_lt_succ (bits_lt b0 1 0)⟩, selectableIn_m4.mpr fun hst => ?_⟩,
      fun _ => ?_⟩
    · obtain ⟨hbit, hlen⟩ := m4_fields_of_start hrow.2.1 (hrow.1 hst) hinl hmin
      exact ⟨by omega, hlen⟩
    · obtain ⟨hb0, hb1⟩ := wideBytes_of_fields b0 b1
      have hcode14 : 16384 + bits tag 3 3 * 16384 + dist14 b0 b1 - 16384 = bits tag 3 3 * 16384 + dist14 b0 b1 := by
        omega
      have hhigh : (bits tag 3 3 * 16384 + dist14 b0 b1) / 16384 = bits tag 3 3 := by omega
      rw [encodeWire, hcode14, hhigh, hbytes, byteOf_eq (b := b0) (by omega), byteOf_eq (b := b1) (by omega),
        List.append_assoc]
      rfl

/-! ## The encoding of a well-formed instruction decodes (rules R72 to R81, R84) -/

theorem toNat_byteOf (n : Nat) : (byteOf n).toNat = n % 256 := BitVec.toNat_ofNat n 8

/-- Reading the operands of the row that holds the tag. -/
theorem decode_of_row {st : St} {n : Nat} {f : Form} {i : Instr} {more rest : List Byte} (hn : n < 256)
    (hrow : opcodeRow st n f) (hop : decodeOperands f (byteOf n) more = some (i, rest)) :
    decode st (byteOf n :: more) = .ok (i, rest) :=
  decode_eq_ok_iff.mpr ⟨_, _, f, rfl, (byteOf_toNat hn).symm ▸ hrow, hop⟩

/-- Reading format S: a tag and one byte (rule R74). -/
theorem decode_shortBytes {st : St} {n h : Nat} {f : Form} {mk : Nat → Instr} {i : Instr} (rest : List Byte)
    (hn : n < 256) (hh : h < 256) (hrow : opcodeRow st n f)
    (hmk : ∀ more, decodeOperands f (byteOf n) more = decodeShort mk more) (hi : mk h = i) :
    decode st ([byteOf n, byteOf h] ++ rest) = .ok (i, rest) := by
  refine decode_of_row (more := byteOf h :: rest) hn hrow ?_
  rw [hmk, decodeShort, byteOf_toNat hh, hi]

/-- A length reads back from the bytes `lengthBytes` puts after the tag (rules R73, R75). -/
theorem lengthField_extensionOf {inl bias base inlineMax len : Nat} (rest : List Byte) (hb : bias + base = inlineMax)
    (hinl : inl = inlineField bias inlineMax len) (hlen : bias < len) :
    lengthField inl bias base (extensionOf inlineMax len ++ rest) = some (len, rest) :=
  lengthField_read rest hb hinl hlen

/-- The two bytes after the length of format W carry the low 14 bits of the distance code, and `S` (rule
R75). -/
theorem wideBytes_read {d s : Nat} {b1 : Byte} (hb1 : b1.toNat = d / 64 % 256) (hs : s ≤ 3) :
    dist14 (byteOf (d % 64 * 4 + s)) b1 = d % 2 ^ 14 ∧ bits (byteOf (d % 64 * 4 + s)) 1 0 = s := by
  simp only [dist14, bits, toNat_byteOf]
  omega

/-- The distance code of M4, bit 14 of it in the tag, reads back (rules R75, R78, R117). -/
theorem m4OrEos_read {tag : Byte} {dist s : Nat} (len : Nat) (htag : bits tag 3 3 = (dist - 16384) / 16384)
    (hlo : 16385 ≤ dist) (hs : s ≤ 3) :
    m4OrEos tag len (byteOf ((dist - 16384) % 64 * 4 + s)) (byteOf ((dist - 16384) / 64 % 256)) =
      .m4 dist len s := by
  obtain ⟨hdist, hs⟩ := wideBytes_read ((toNat_byteOf ((dist - 16384) / 64 % 256)).trans (Nat.mod_mod _ _)) hs
  rw [m4OrEos, if_neg (by omega), hs, show 16384 + bits tag 3 3 * 16384 + dist14 _ _ = dist by omega]

/-- A well-formed instruction is read back from its encoding in every state in which it can stand. -/
theorem decode_encodeWire {st : St} {i : Instr} (rest : List Byte) (hwire : i.isWire = true) (hwf : i.wf = true)
    (hsel : i.selectableIn st = true) : decode st (encodeWire i ++ rest) = .ok (i, rest) := by
  cases i with
  | nop | init | compress | decompress => cases hwire
  | eos => exact decode_of_row (n := 0x11) (f := .m4OrEos) (by decide) ⟨fun _ => by decide, by decide⟩ rfl
  | litf t =>
    rw [wf_litf] at hwf
    refine decode_of_row (f := .litf) (by omega) ⟨by simpa [Instr.selectableIn] using hsel, by omega⟩ ?_
    rw [decodeOperands, byteOf_toNat (by omega), Nat.add_sub_cancel_left]
    rfl
  | litr t =>
    rw [wf_litr] at hwf
    have hinl := inlineField_le 3 18 t
    rw [encodeWire, lengthBytes_eq_cons, List.cons_append]
    refine decode_of_row (f := .litr) (by omega) ⟨by simpa [Instr.selectableIn] using hsel, by omega⟩ ?_
    rw [decodeOperands, lengthField_extensionOf (inlineMax := 18) rest rfl
      (by simp only [bits, toNat_byteOf]; omega) hwf]
    rfl
  | m1n dist s =>
    rw [wf_m1n] at hwf
    refine decode_shortBytes (f := .m1n) rest (by omega) (by omega)
      ⟨by simpa [Instr.selectableIn, or_assoc] using hsel, by omega⟩ (fun _ => by rw [decodeOperands]) ?_
    simp only [bits, toNat_byteOf, Instr.m1n.injEq]
    omega
  | m1f dist s =>
    rw [wf_m1f] at hwf
    refine decode_shortBytes (f := .m1f) rest (by omega) (by omega)
      ⟨by simpa [Instr.selectableIn] using hsel, by omega⟩ (fun _ => by rw [decodeOperands]) ?_
    simp only [bits, toNat_byteOf, Instr.m1f.injEq]
    omega
  | m2s dist len s =>
    rw [wf_m2s] at hwf
    refine decode_shortBytes (f := .m2s) rest (by omega) (by omega)
      ⟨by simpa [Instr.selectableIn] using hsel, by omega⟩ (fun _ => by rw [decodeOperands]) ?_
    simp only [bits, toNat_byteOf, Instr.m2s.injEq]
    omega
  | m2l dist len s =>
    rw [wf_m2l] at hwf
    refine decode_shortBytes (f := .m2l) rest (by omega) (by omega)
      ⟨by simpa [Instr.selectableIn] using hsel, by omega⟩ (fun _ => by rw [decodeOperands]) ?_
    simp only [bits, toNat_byteOf, Instr.m2l.injEq]
    omega
  | m3 dist len s =>
    rw [wf_m3] at hwf
    have hinl := inlineField_le 2 33 len
    obtain ⟨hdist, hs⟩ := wideBytes_read (toNat_byteOf ((dist - 1) / 64)) hwf.2
    rw [encodeWire, lengthBytes_eq_cons, List.append_assoc, List.cons_append]
    refine decode_of_row (f := .m3) (by omega) ⟨by simpa [Instr.selectableIn] using hsel, by omega⟩ ?_
    rw [decodeOperands, lengthField_extensionOf (inlineMax := 33) _ rfl (by simp only [bits, toNat_byteOf]; omega)
      (by omega)]
    simp only [Option.bind_some, List.cons_append, List.nil_append, decodeWide_cons, hdist, hs]
    rw [show (dist - 1) % 2 ^ 14 + 1 = dist by omega]
  | m4 dist len s =>
    obtain ⟨⟨⟨hlo, hhi⟩, hlen⟩, hs⟩ := wf_m4.mp hwf
    rw [selectableIn_m4] at hsel
    have hinl := inlineField_le 2 9 len
    rw [encodeWire, lengthBytes_eq_cons, List.append_assoc, List.cons_append]
    refine decode_of_row (f := .m4OrEos) (by omega) ⟨fun hst => ?_, by omega⟩ ?_
    · have hstart := hsel hst
      unfold inlineField
      split <;> omega
    · rw [decodeOperands, lengthField_extensionOf (inlineMax := 9) _ rfl
        (by simp only [bits, toNat_byteOf]; omega) (by omega)]
      simp only [Option.bind_some, List.cons_append, List.nil_append, decodeWide_cons]
      rw [m4OrEos_read len (by simp only [bits, toNat_byteOf]; omega) hlo hs]

/-! ## The extension bytes of `EmitExt` (rule R77) -/

/-- The closing byte of `EmitExt` is not zero (rule R77). -/
theorem extBytes_closes {x : Nat} (h : 1 ≤ x) :
    ∃ e, extBytes x = List.replicate ((x + 254) / 255 - 1) 0#8 ++ [e] ∧ e ≠ 0#8 := by
  have hzeros : (x + 254) / 255 - 1 = (x - 1) / 255 := by omega
  refine ⟨byteOf (x - 255 * ((x - 1) / 255)), by rw [hzeros, extBytes], ?_⟩
  rw [ne_eq, byte_eq_zero_iff, toNat_byteOf]
  omega

/-! ## Bytes that end inside an instruction can be completed (rules R77, R80, R82) -/

theorem extLen_append {base v : Nat} {bytes rest : List Byte} (more : List Byte)
    (h : extLen base bytes = some (v, rest)) : extLen base (bytes ++ more) = some (v, rest ++ more) := by
  obtain ⟨hlt, rfl⟩ := extLen_eq_some h
  rw [List.append_assoc, extLen_extBytes _ _ _ (by omega), show base + (v - base) = v by omega]

/-- A closing byte completes an extension that has none. -/
theorem extLen_closed {base : Nat} {bytes : List Byte} (more : List Byte) (h : extLen base bytes = none) :
    ∃ v, extLen base (bytes ++ 1#8 :: more) = some (v, more) := by
  induction bytes with
  | nil => exact ⟨base + 1, rfl⟩
  | cons b bytes ih =>
    by_cases hb : b = 0#8
    · rw [extLen, if_pos hb, Option.map_eq_none_iff] at h
      obtain ⟨v, hv⟩ := ih h
      exact ⟨v + 255, by rw [List.cons_append, extLen, if_pos hb, hv]; rfl⟩
    · rw [extLen, if_neg hb] at h
      cases h

theorem lengthField_append {inl bias base len : Nat} {bytes rest : List Byte} (more : List Byte)
    (h : lengthField inl bias base bytes = some (len, rest)) :
    lengthField inl bias base (bytes ++ more) = some (len, rest ++ more) := by
  unfold lengthField at h ⊢
  split at h
  · next hinl =>
    obtain ⟨⟨v, r⟩, hv, hr⟩ := Option.map_eq_some_iff.mp h
    obtain ⟨rfl, rfl⟩ := Prod.mk.inj hr
    rw [if_pos hinl, extLen_append more hv, Option.map_some]
  · next hinl =>
    obtain ⟨rfl, rfl⟩ := Prod.mk.inj (Option.some.inj h)
    rw [if_neg hinl]

/-- A closing byte completes a length that is not there. -/
theorem lengthField_closed {inl bias base : Nat} {bytes : List Byte} (more : List Byte)
    (h : lengthField inl bias base bytes = none) :
    ∃ len, lengthField inl bias base (bytes ++ 1#8 :: more) = some (len, more) := by
  unfold lengthField at h ⊢
  split at h
  · next hinl =>
    obtain ⟨v, hv⟩ := extLen_closed more (Option.map_eq_none_iff.mp h)
    exact ⟨bias + v, by rw [if_pos hinl, hv, Option.map_some]⟩
  · cases h

/-- Missing distance bytes can be given. -/
theorem decodeWide_completed {mk : Byte → Byte → Instr} {bytes : List Byte} (h : decodeWide mk bytes = none) :
    ∃ more i, decodeWide mk (bytes ++ more) = some (i, []) := by
  match bytes, h with
  | [], _ => exact ⟨[0#8, 0#8], mk 0#8 0#8, rfl⟩
  | [b0], _ => exact ⟨[0#8], mk b0 0#8, rfl⟩

/-- Format W ends early in its length or in its distance bytes. -/
theorem lengthThenWide_completed {inl bias base : Nat} {mk : Nat → Byte → Byte → Instr} {bytes : List Byte}
    (h : ((lengthField inl bias base bytes).bind fun p => decodeWide (mk p.1) p.2) = none) :
    ∃ more i, ((lengthField inl bias base (bytes ++ more)).bind fun p => decodeWide (mk p.1) p.2) =
      some (i, []) := by
  cases hlen : lengthField inl bias base bytes with
  | none =>
    obtain ⟨len, hlen'⟩ := lengthField_closed [0#8, 0#8] hlen
    exact ⟨_, mk len 0#8 0#8, by rw [hlen']; rfl⟩
  | some p =>
    rw [hlen] at h
    obtain ⟨more, i, hmore⟩ := decodeWide_completed h
    exact ⟨more, i, by rw [lengthField_append more hlen]; exact hmore⟩

/-- On every row of the map missing operand bytes can be given. -/
theorem decodeOperands_completed {f : Form} {tag : Byte} {bytes : List Byte} (h : decodeOperands f tag bytes = none) :
    ∃ more i, decodeOperands f tag (bytes ++ more) = some (i, []) := by
  cases f <;> simp only [decodeOperands] at h ⊢
  case litf => cases h
  case litr =>
    obtain ⟨len, hlen⟩ := lengthField_closed [] (Option.map_eq_none_iff.mp h)
    exact ⟨[1#8], .litr len, by rw [hlen]; rfl⟩
  case m1n | m1f | m2s | m2l =>
    cases bytes with
    | nil => exact ⟨[0#8], _, rfl⟩
    | cons b more => cases h
  case m3 => exact lengthThenWide_completed (mk := fun len b0 b1 => .m3 (dist14 b0 b1 + 1) len (bits b0 1 0)) h
  case m4OrEos => exact lengthThenWide_completed (mk := m4OrEos tag) h

theorem decode_eq_error {st : St} {bytes : List Byte} {e : DecodeError} (h : decode st bytes = .error e) :
    (bytes = [] ∧ e = .noTag) ∨ ∃ tag more, bytes = tag :: more ∧ e = .truncated ∧
      decodeOperands (dispatchForm st tag) tag more = none := by
  cases bytes with
  | nil => exact .inl ⟨rfl, (Except.error.inj h).symm⟩
  | cons tag more =>
    rw [decode_cons] at h
    cases hop : decodeOperands (dispatchForm st tag) tag more with
    | none =>
      rw [hop] at h
      exact .inr ⟨tag, more, rfl, (Except.error.inj h).symm, hop⟩
    | some r =>
      rw [hop] at h
      cases h

/-! ## The obligations -/

/-- Settles O2: each form's fields read back from the bytes its encoding writes. -/
theorem decodeReadsBackEncode : Obligations.DecodeReadsBackEncode := by
  unfold Obligations.DecodeReadsBackEncode
  exact fun st i rest => decode_encodeWire rest

/-- Settles O3: row by row of the opcode map. -/
theorem decodedBytesAreTheEncoding : Obligations.DecodedBytesAreTheEncoding := by
  unfold Obligations.DecodedBytesAreTheEncoding
  intro st bytes rest i h hi
  obtain ⟨tag, more, f, rfl, hrow, hop⟩ := decode_eq_ok_iff.mp h
  exact (decodeOperands_canonical hrow hop).2 hi

/-- Settles O4: row by row of the opcode map. -/
theorem decodedInstructionIsWellFormed : Obligations.DecodedInstructionIsWellFormed := by
  unfold Obligations.DecodedInstructionIsWellFormed
  intro st bytes rest i h
  obtain ⟨tag, more, f, rfl, hrow, hop⟩ := decode_eq_ok_iff.mp h
  exact (decodeOperands_canonical hrow hop).1

/-- Settles O5: what stops a decode is no tag, or missing operand bytes, which can be given. -/
theorem onlyMissingBytesAreRejected : Obligations.OnlyMissingBytesAreRejected := by
  unfold Obligations.OnlyMissingBytesAreRejected
  intro st bytes
  refine ⟨⟨fun h => ?_, fun h => h ▸ rfl⟩, fun h => ?_⟩
  · rcases decode_eq_error h with ⟨rfl, -⟩ | ⟨_, _, -, he, -⟩
    · rfl
    · cases he
  · rcases decode_eq_error h with ⟨-, he⟩ | ⟨tag, bytes, rfl, -, hop⟩
    · cases he
    · obtain ⟨more, i, hmore⟩ := decodeOperands_completed hop
      exact ⟨more, i, by rw [List.cons_append, decode_cons, hmore]⟩

/-- Settles O7: zero bytes are worth 255 each, and `EmitExt` writes the one extension of its value. -/
theorem extensionReadsBack : Obligations.ExtensionReadsBack := by
  unfold Obligations.ExtensionReadsBack
  refine ⟨fun base k e rest he => ⟨?_, ?_⟩, fun base k => ?_, fun base x rest hx => ?_⟩
  · rw [extLen_zeros, extLen, if_neg he, Option.map_some, Nat.add_assoc, Nat.add_comm (255 * k)]
  · have hpos : e.toNat ≠ 0 := fun h => he ((byte_eq_zero_iff e).mpr h)
    omega
  · have h := extLen_zeros base k []
    rwa [List.append_nil] at h
  · rw [emitExt_eq x hx]
    exact ⟨extLen_extBytes base x rest hx, extBytes_closes hx⟩

/-- Settles O1: each word is decoded as it stands. -/
theorem writtenOutWordsDecode : Obligations.WrittenOutWordsDecode := by
  unfold Obligations.WrittenOutWordsDecode
  exact ⟨rfl, rfl, rfl, rfl, rfl, rfl, rfl, rfl, rfl, rfl, rfl, rfl, rfl, rfl⟩

end Sys2Proof.Proofs

/-!
The literal-run instructions from their bytes (rules R77, R101 to R103, R140, R141): the step that runs a decoded
instruction, the step that ends inside one, the length carried by the bytes after a tag, and the body of LITF and
LITR.
-/

namespace Sys2Proof.Proofs

open Sys2Proof.Machine Sys2Proof.Laws

/-! ## The step at an instruction (rules R140, R141) -/

/-- A fault of a DECOMPRESS job records the instruction-start latches (rules R207, R232). -/
theorem raise_decoder {s : State} (k : Kind) (hact : s.active = .decoder) : s.raise k = decoderFault s k := by
  rw [State.raise, faultCursors_decoder s hact]
  rfl

/-- The bytes at hand are those from `ip` to the end of `IN` (rule R52). -/
theorem atInstruction_length {s : State} {bytes : List Byte} (h : atInstruction s bytes) :
    bytes.length = s.inLen.toNat - s.ip := by
  obtain ⟨-, -, -, rfl⟩ := h
  exact Memory.length_slice _ _ _

/-- Where the bytes at hand decode, the step executes the instruction with its bytes `z` fetched. -/
theorem step_atInstruction {s : State} {i : Instr} {z rest : List Byte} (h : atInstruction s (z ++ rest))
    (hdec : decode s.st (z ++ rest) = .ok (i, rest)) : step s = exec i (fetched s z.length) := by
  have hlen := atInstruction_length h
  have hpos := (decode_ok hdec).1
  obtain ⟨hact, hin, hwf, hun⟩ := h
  exact step_atBoundary ⟨hact, hin, hwf, rfl, rfl, by omega, hun, fun _ _ => rfl⟩ hdec

/-- Where operand bytes are missing, the step fetches every byte there is and raises `InputOverrun`. -/
theorem step_truncated {s : State} {tag : Byte} {rest : List Byte} (h : atInstruction s (tag :: rest))
    (hop : decodeOperands (dispatchForm s.st tag) tag rest = none) :
    step s = .next (decoderFault (fetched s (1 + rest.length)) .inputOverrun) := by
  have hlen := atInstruction_length h
  obtain ⟨hact, hin, -, hun⟩ := h
  have hip : s.inLen.toNat = s.ip + (1 + rest.length) := by
    rw [List.length_cons] at hlen
    omega
  rw [step_engine hin, engineStep_decoder hact, decoderStep, hun, decode_cons, hop, hip]
  exact congrArg _ (raise_decoder (s := fetched s (1 + rest.length)) .inputOverrun hact)

/-! ## The length the bytes after a tag carry (rule R77) -/

/-- Zero bytes and a closing byte are read as one extension. -/
theorem extLen_closed_by (base k : Nat) {e : Byte} (rest : List Byte) (he : e ≠ 0#8) :
    extLen base (List.replicate k 0#8 ++ e :: rest) = some (255 * k + base + e.toNat, rest) :=
  (extensionReadsBack.1 base k e rest he).1

/-- A length field reads the value its bytes carry (rules R73, R75). -/
theorem lengthField_of_carriesLength {l base v : Nat} {ext : List Byte} (bias : Nat) (rest : List Byte)
    (h : carriesLength l base ext v) : lengthField l bias base (ext ++ rest) = some (bias + v, rest) := by
  unfold carriesLength at h
  split at h
  · next hl =>
    obtain ⟨rfl, rfl⟩ := h
    exact if_neg hl
  · next hl =>
    obtain ⟨k, e, rfl, he, rfl⟩ := h
    rw [lengthField, if_pos (not_not.mp hl), List.append_assoc, List.singleton_append, extLen_closed_by base k rest he]
    rfl

/-- A length field that is read is carried by the bytes it consumes. -/
theorem carriesLength_of_lengthField {l bias base len : Nat} {bytes rest : List Byte}
    (h : lengthField l bias base bytes = some (len, rest)) :
    ∃ ext v, carriesLength l base ext v ∧ bytes = ext ++ rest := by
  unfold lengthField at h
  split at h
  · next hl =>
    obtain ⟨⟨v, r⟩, hv, hr⟩ := Option.map_eq_some_iff.mp h
    obtain ⟨-, rfl⟩ := Prod.mk.inj hr
    obtain ⟨hlt, rfl⟩ := extLen_eq_some hv
    obtain ⟨e, hext, he⟩ := extBytes_closes (x := v - base) (by omega)
    rw [hext, List.append_assoc, List.singleton_append, extLen_closed_by base _ r he] at hv
    obtain ⟨hvalue, -⟩ := Prod.mk.inj (Option.some.inj hv)
    exact ⟨_, v, (if_neg (not_not.mpr hl)).mpr ⟨_, e, hext, he, hvalue.symm⟩, rfl⟩
  · next hl =>
    obtain ⟨-, rfl⟩ := Prod.mk.inj (Option.some.inj h)
    exact ⟨[], l, (if_pos hl).mpr ⟨rfl, rfl⟩, rfl⟩

/-- No length field is read where no bytes carry one. -/
theorem lengthField_eq_none {l bias base : Nat} {bytes : List Byte}
    (h : ¬ ∃ ext v more, carriesLength l base ext v ∧ bytes = ext ++ more) : lengthField l bias base bytes = none := by
  refine Option.eq_none_iff_forall_ne_some.mpr fun ⟨len, more⟩ hsome => h ?_
  obtain ⟨ext, v, hcarries, hbytes⟩ := carriesLength_of_lengthField hsome
  exact ⟨ext, v, more, hcarries, hbytes⟩

/-! ## The body of LITF and LITR (rules R101 to R103, R142) -/

/-- `st` after `n` literals is `n`, or 4 from 4 on (rule R142). -/
theorem stCode_stAfter_min (n : Nat) : stCode (stAfter n) = BitVec.ofNat 3 (min n 4) := by
  rcases Nat.lt_or_ge n 4 with h | h
  · rw [stCode_stAfter (by omega), Nat.min_eq_left (by omega)]
  · obtain ⟨k, rfl⟩ := Nat.exists_eq_add_of_le' h
    rw [Nat.min_eq_right h]
    rfl

/-- The body of a literal instruction makes the two checks of rule R101 in their order, then copies. -/
theorem literalRun_executes {s : State} {after : St} {stv : Nat} (t : Nat) (hact : s.active = .decoder)
    (hwf : s.outMem.wf = true) (hst : stCode after = BitVec.ofNat 3 stv) :
    literalExecutes (literalRun t after s).outcome s t stv := by
  unfold literalExecutes
  rcases literalRun_cases t after s hwf with ⟨hin, e⟩ | ⟨hin, hout, e⟩ | ⟨hin, hout, m, e, hm, hread⟩
  · rw [if_pos hin, e, outcome_ended, raise_decoder .inputOverrun hact]
  · rw [if_neg (Nat.not_lt.mpr hin), if_pos hout, e, outcome_ended, raise_decoder .outputOverrun hact]
  · rw [if_neg (Nat.not_lt.mpr hin), if_neg (Nat.not_lt.mpr hout), e]
    exact ⟨m, after, hst, ⟨hm, hread⟩, rfl⟩

/-- The body of a literal instruction whose literals are there and fit: neither check of rule R101 fails. -/
theorem literalRun_completes {t : Nat} {s : State} (after : St) (hwf : s.outMem.wf = true)
    (hin : s.ip + t ≤ s.inLen.toNat) (hout : s.op + t ≤ s.outCap.toNat) :
    ∃ m, literalsCopied s.inMem s.ip s.outMem m s.op t ∧
      literalRun t after s = .go { s with ip := s.ip + t, op := s.op + t, st := after, outMem := m } := by
  rcases literalRun_cases t after s hwf with ⟨h, -⟩ | ⟨-, h, -⟩ | ⟨-, -, m, e, hm, hread⟩
  · omega
  · omega
  · exact ⟨m, ⟨hm, hread⟩, e⟩

/-- In a DECOMPRESS job LITF is a literal run that leaves `st` at its count (rule R102). -/
theorem exec_litf (t : Nat) {s : State} (hact : s.active = .decoder) :
    exec (.litf t) s = (literalRun t (stAfter t) s).outcome := inDecompressJob_decoder s _ hact

/-- In a DECOMPRESS job LITR is a literal run that leaves `st` at 4 (rule R103). -/
theorem exec_litr (t : Nat) {s : State} (hact : s.active = .decoder) :
    exec (.litr t) s = (literalRun t .s4 s).outcome := inDecompressJob_decoder s _ hact

/-! ## LITF and LITR from their bytes (rules R72, R73, R80) -/

/-- LITF is its tag alone (rule R72). -/
theorem decode_litf {tag : Byte} (rest : List Byte) (htag : 18 ≤ tag.toNat) :
    decode .start (tag :: rest) = .ok (.litf (tag.toNat - 17), rest) := by
  rw [decode_cons, dispatchForm_start htag]
  rfl

/-- The inline count of LITR is the tag's low half (rule R73). -/
theorem bits_low_half (tag : Byte) : bits tag 3 0 = tag.toNat % 16 := by
  simp [bits]

/-- The operand of LITR is its length field (rule R73). -/
theorem decodeOperands_litr (tag : Byte) (rest : List Byte) : decodeOperands .litr tag rest =
    (lengthField (tag.toNat % 16) 3 15 rest).map fun (t, rest') => (.litr t, rest') := by
  rw [decodeOperands, bits_low_half]

/-- LITR is its tag and the bytes that carry its count (rule R73). -/
theorem decode_litr {st : St} {tag : Byte} {ext : List Byte} {v : Nat} (more : List Byte)
    (hform : dispatchForm st tag = .litr) (hext : carriesLength (tag.toNat % 16) 15 ext v) :
    decode st (tag :: ext ++ more) = .ok (.litr (3 + v), more) := by
  rw [List.cons_append, decode_cons, hform, decodeOperands_litr, lengthField_of_carriesLength 3 more hext]
  rfl

/-! ## The obligations -/

/-- Settles O11: the tag decodes to LITF, whose body makes the two checks and the copy. -/
theorem litfExecutes : Obligations.LitfExecutes := by
  unfold Obligations.LitfExecutes
  intro s tag rest hat hst htag
  have hdec : decode s.st ([tag] ++ rest) = .ok (.litf (tag.toNat - 17), rest) := by
    rw [hst]
    exact decode_litf rest htag
  have hstep : step s = exec (.litf (tag.toNat - 17)) (fetched s 1) := step_atInstruction hat hdec
  obtain ⟨hact, -, hwf, -⟩ := hat
  rw [hstep, exec_litf (s := fetched s 1) _ hact, ← min_def_lt]
  exact literalRun_executes _ hact hwf (stCode_stAfter_min _)

/-- Settles O12: a count that is carried decodes to LITR, and one that is not leaves the decoder without its
operand. -/
theorem litrExecutes : Obligations.LitrExecutes := by
  unfold Obligations.LitrExecutes
  intro s tag rest hat hst htag
  have hform : dispatchForm s.st tag = .litr := dispatchForm_litr hst (by omega)
  constructor
  · rintro ext v more hext rfl
    have hstep := step_atInstruction hat (decode_litr more hform hext)
    obtain ⟨hact, -, hwf, -⟩ := hat
    rw [hstep, List.length_cons, Nat.add_comm ext.length, exec_litr (s := fetched s (1 + ext.length)) _ hact]
    exact literalRun_executes _ hact hwf rfl
  · intro hnone
    refine step_truncated hat ?_
    rw [hform, decodeOperands_litr, lengthField_eq_none hnone]
    rfl

/-- Settles O21: both instructions have the common body, which completes. -/
theorem literalRunsComplete : Obligations.LiteralRunsComplete := by
  unfold Obligations.LiteralRunsComplete
  intro t s hact hwf _ hin hout
  constructor
  · obtain ⟨m, hcopied, hgo⟩ := literalRun_completes (stAfter t) hwf hin hout
    exact ⟨m, stAfter t, stCode_stAfter_min t, hcopied, by rw [exec_litf t hact, hgo, outcome_go]⟩
  · obtain ⟨m, hcopied, hgo⟩ := literalRun_completes .s4 hwf hin hout
    exact ⟨m, hcopied, by rw [exec_litr t hact, hgo, outcome_go]⟩

end Sys2Proof.Proofs

/-!
The match instructions from their bytes (rules R74 to R76, R110 to R117, R130): the common body and the end of the
stream, the step at a tag of format S and at one of format W, the operand fields of each form; and the frame of a
decoder step.
-/

namespace Sys2Proof.Proofs

open Sys2Proof.Machine Sys2Proof.Laws

/-! ## The bodies (rules R110, R111, R130, R231) -/

/-- The body of a match makes the checks of rule R231 in their order, each before the copy it guards. -/
theorem matchThenLiterals_executes {dist sc : Nat} {s : State} (len : Nat) (hact : s.active = .decoder)
    (hwf : s.outMem.wf = true) (hdist : 1 ≤ dist) (hsc : sc < 4) :
    matchExecutes (matchThenLiterals dist len sc s).outcome s dist len sc := by
  unfold matchExecutes
  rcases matchThenLiterals_cases dist len sc s hdist hwf with
    ⟨hback, e⟩ | ⟨hback, hcap, e⟩ | ⟨hback, hcap, m, hm, hframe, hcopy, hliterals⟩
  · rw [if_pos hback, e, outcome_ended, raise_decoder .lookbehindOverrun hact]
  · rw [if_neg (Nat.not_lt.mpr hback), if_pos hcap, e, outcome_ended, raise_decoder .outputOverrun hact]
  · rw [if_neg (Nat.not_lt.mpr hback), if_neg (Nat.not_lt.mpr hcap)]
    have hperiodic := periodic_of_step hdist hback (fun a ha => hframe a (.inl ha)) hcopy
    refine ⟨m, ⟨hm, hframe, hcopy, hperiodic⟩, ?_⟩
    rcases hliterals with ⟨hin, e⟩ | ⟨hin, hroom, e⟩ | ⟨hin, hroom, m', hm', e, hread⟩
    · rw [if_pos hin, e, outcome_ended]
      exact congrArg _ (raise_decoder .inputOverrun hact)
    · rw [if_neg (Nat.not_lt.mpr hin), if_pos hroom, e, outcome_ended]
      exact congrArg _ (raise_decoder .outputOverrun hact)
    · rw [if_neg (Nat.not_lt.mpr hin), if_neg (Nat.not_lt.mpr hroom), e]
      exact ⟨m', stAfter sc, stCode_stAfter (Nat.le_of_lt_succ hsc), ⟨hm', hread⟩, rfl⟩

/-- EOS makes the two checks of rule R130 in their order, then ends the job Ok. -/
theorem endOfStream_executes {s : State} (hact : s.active = .decoder) :
    eosExecutes (endOfStream s).outcome s := by
  unfold eosExecutes
  rcases endOfStream_cases s with ⟨hop, e⟩ | ⟨hop, hip, e⟩ | ⟨hop, hip, e⟩
  · rw [if_pos hop, e, outcome_ended, raise_decoder .outputNotConsumed hact]
  · rw [if_neg (not_not.mpr hop), if_pos hip, e, outcome_ended, raise_decoder .inputNotConsumed hact]
  · rw [if_neg (not_not.mpr hop), if_neg (not_not.mpr hip), e]
    rfl

/-- In a DECOMPRESS job EOS is the end of the stream. -/
theorem exec_eos {s : State} (hact : s.active = .decoder) : exec .eos s = (endOfStream s).outcome :=
  inDecompressJob_decoder s _ hact

/-! ## The step at a tag of format S or W (rules R74, R75, R141) -/

/-- At a tag of format S the step executes the instruction with its byte `H` fetched, or there is no `H`. -/
theorem step_shortForm {s : State} {tag : Byte} {rest : List Byte} {f : Form} {mk : Nat → Instr}
    (hat : atInstruction s (tag :: rest)) (hform : dispatchForm s.st tag = f)
    (hmk : ∀ bytes, decodeOperands f tag bytes = decodeShort mk bytes) :
    (∀ h more, rest = h :: more → step s = exec (mk h.toNat) (fetched s 2)) ∧
      (rest = [] → step s = .next (decoderFault (fetched s 1) .inputOverrun)) := by
  constructor
  · rintro h more rfl
    exact step_atInstruction (z := [tag, h]) hat (by rw [List.cons_append, decode_cons, hform, hmk]; rfl)
  · rintro rfl
    exact step_truncated hat (hform ▸ hmk [])

/-- At a tag of format S whose instruction is a match the step makes the match, or there is no `H`. -/
theorem shortMatch_executes {s : State} {tag : Byte} {rest : List Byte} {f : Form} {mk : Nat → Instr}
    {dist : Nat → Nat} {len sc : Nat} (hat : atInstruction s (tag :: rest)) (hform : dispatchForm s.st tag = f)
    (hmk : ∀ bytes, decodeOperands f tag bytes = decodeShort mk bytes)
    (hmatch : ∀ h, (mk h = .m1n (dist h) sc ∧ len = 2) ∨ (mk h = .m1f (dist h) sc ∧ len = 3) ∨
      mk h = .m2s (dist h) len sc ∨ mk h = .m2l (dist h) len sc)
    (hdist : ∀ h, 1 ≤ dist h) (hsc : sc < 4) :
    (∀ h more, rest = h :: more → matchExecutes (step s) (fetched s 2) (dist h.toNat) len sc) ∧
      (rest = [] → step s = .next (decoderFault (fetched s 1) .inputOverrun)) := by
  obtain ⟨hstep, hmissing⟩ := step_shortForm hat hform hmk
  obtain ⟨hact, -, hwf, -⟩ := hat
  refine ⟨fun h more hrest => ?_, hmissing⟩
  rw [hstep h more hrest, exec_shortMatch (s := fetched s 2) hact (hmatch h.toNat)]
  exact matchThenLiterals_executes len hact hwf (hdist h.toNat) hsc

/-- The operands of format W, from the bytes that carry its length and from the two after them. -/
theorem lengthThenWide_of_carriesLength {l bias base v : Nat} {ext : List Byte} (mk : Nat → Byte → Byte → Instr)
    (b0 b1 : Byte) (more : List Byte) (h : carriesLength l base ext v) :
    ((lengthField l bias base (ext ++ b0 :: b1 :: more)).bind fun p => decodeWide (mk p.1) p.2) =
      some (mk (bias + v) b0 b1, more) := by
  rw [lengthField_of_carriesLength bias _ h, Option.bind_some, decodeWide_cons]

/-- Format W is not read where no bytes carry its length with two more after them. -/
theorem lengthThenWide_eq_none {l bias base : Nat} {bytes : List Byte} (mk : Nat → Byte → Byte → Instr)
    (h : ¬ ∃ ext v b0 b1 more, carriesLength l base ext v ∧ bytes = ext ++ b0 :: b1 :: more) :
    ((lengthField l bias base bytes).bind fun p => decodeWide (mk p.1) p.2) = none := by
  refine Option.eq_none_iff_forall_ne_some.mpr fun ⟨i, more⟩ hsome => h ?_
  obtain ⟨⟨len, wide⟩, hlen, hwide⟩ := Option.bind_eq_some_iff.mp hsome
  obtain ⟨ext, v, hcarries, hbytes⟩ := carriesLength_of_lengthField hlen
  obtain ⟨b0, b1, rfl, -⟩ := decodeWide_eq_some hwide
  exact ⟨ext, v, b0, b1, more, hcarries, hbytes⟩

/-- At a tag of format W the step executes the instruction with its length and distance bytes fetched, or some
of them are missing. -/
theorem step_wideForm {s : State} {tag : Byte} {rest : List Byte} {f : Form} {l base : Nat}
    {mk : Nat → Byte → Byte → Instr} (hat : atInstruction s (tag :: rest)) (hform : dispatchForm s.st tag = f)
    (hmk : ∀ bytes, decodeOperands f tag bytes =
      (lengthField l 2 base bytes).bind fun p => decodeWide (mk p.1) p.2) :
    (∀ ext v b0 b1 more, carriesLength l base ext v → rest = ext ++ b0 :: b1 :: more →
      step s = exec (mk (2 + v) b0 b1) (fetched s (3 + ext.length))) ∧
    ((¬ ∃ ext v b0 b1 more, carriesLength l base ext v ∧ rest = ext ++ b0 :: b1 :: more) →
      step s = .next (decoderFault (fetched s (1 + rest.length)) .inputOverrun)) := by
  constructor
  · rintro ext v b0 b1 more hext rfl
    have hbytes : tag :: (ext ++ b0 :: b1 :: more) = (tag :: (ext ++ [b0, b1])) ++ more := by simp
    have hlen : (tag :: (ext ++ [b0, b1])).length = 3 + ext.length := by
      simp only [List.length_cons, List.length_append, List.length_nil]
      omega
    rw [← hlen]
    refine step_atInstruction (hbytes ▸ hat) ?_
    rw [← hbytes, decode_cons, hform, hmk, lengthThenWide_of_carriesLength mk b0 b1 more hext]
  · exact fun hnone => step_truncated hat (hform ▸ (hmk rest).trans (lengthThenWide_eq_none mk hnone))

/-! ## The operand fields of each form (rules R74 to R76, R112 to R117) -/

/-- The distance bits of an M1N or M1F tag (rule R74). -/
theorem bits_3_2 (tag : Byte) : bits tag 3 2 = tag.toNat / 4 % 4 := rfl

/-- The low distance bits of an M2S or M2L tag (rule R74). -/
theorem bits_4_2 (tag : Byte) : bits tag 4 2 = tag.toNat / 4 % 8 := rfl

/-- The field `S` (rules R74, R75). -/
theorem bits_1_0 (b : Byte) : bits b 1 0 = b.toNat % 4 := by simp [bits]

theorem decodeOperands_m1n (tag : Byte) (bytes : List Byte) : decodeOperands .m1n tag bytes =
    decodeShort (fun h => .m1n (h * 4 + tag.toNat / 4 % 4 + 1) (tag.toNat % 4)) bytes := by
  rw [decodeOperands, bits_3_2, bits_1_0]

theorem decodeOperands_m1f (tag : Byte) (bytes : List Byte) : decodeOperands .m1f tag bytes =
    decodeShort (fun h => .m1f (h * 4 + tag.toNat / 4 % 4 + 2049) (tag.toNat % 4)) bytes := by
  rw [decodeOperands, bits_3_2, bits_1_0]

/-- In the tags of M2S the length field `tag[7:5]` is 2 or 3 (rule R114). -/
theorem decodeOperands_m2s {tag : Byte} (hlo : 0x40 ≤ tag.toNat) (hhi : tag.toNat ≤ 0x7F) (bytes : List Byte) :
    decodeOperands .m2s tag bytes = decodeShort
      (fun h => .m2s (h * 8 + tag.toNat / 4 % 8 + 1) (3 + tag.toNat / 32 % 2) (tag.toNat % 4)) bytes := by
  have hlen : bits tag 7 5 + 1 = 3 + tag.toNat / 32 % 2 := by
    simp only [bits]
    omega
  rw [decodeOperands, bits_4_2, bits_1_0, hlen]

/-- In the tags of M2L the length field `tag[7:5]` is 4 or more (rule R115). -/
theorem decodeOperands_m2l {tag : Byte} (hlo : 0x80 ≤ tag.toNat) (bytes : List Byte) :
    decodeOperands .m2l tag bytes = decodeShort
      (fun h => .m2l (h * 8 + tag.toNat / 4 % 8 + 1) (5 + tag.toNat / 32 % 4) (tag.toNat % 4)) bytes := by
  have hlt := tag.isLt
  have hlen : bits tag 7 5 + 1 = 5 + tag.toNat / 32 % 4 := by
    simp only [bits]
    omega
  rw [decodeOperands, bits_4_2, bits_1_0, hlen]

/-- `D14` from the two distance bytes (rule R76). -/
theorem dist14_eq (b0 b1 : Byte) : dist14 b0 b1 = b0.toNat / 4 + b1.toNat * 64 := by
  have hlt := b0.isLt
  simp only [dist14, bits]
  omega

/-- M3 with the operands its bytes give (rule R116). -/
def m3OfBytes (len : Nat) (b0 b1 : Byte) : Instr :=
  .m3 (b0.toNat / 4 + b1.toNat * 64 + 1) len (b0.toNat % 4)

theorem decodeOperands_m3 (tag : Byte) (bytes : List Byte) : decodeOperands .m3 tag bytes =
    (lengthField (tag.toNat % 32) 2 31 bytes).bind fun p => decodeWide (m3OfBytes p.1) p.2 := by
  have hinl : bits tag 4 0 = tag.toNat % 32 := by simp [bits]
  simp only [decodeOperands, hinl, dist14_eq, bits_1_0]
  rfl

theorem decodeOperands_m4OrEos (tag : Byte) (bytes : List Byte) : decodeOperands .m4OrEos tag bytes =
    (lengthField (tag.toNat % 8) 2 7 bytes).bind fun p => decodeWide (m4OrEos tag p.1) p.2 := by
  have hinl : bits tag 2 0 = tag.toNat % 8 := by simp [bits]
  rw [decodeOperands, hinl]

/-- The EOS test and the operands of M4, from the bytes (rule R117). -/
theorem m4OrEos_eq (tag : Byte) (len : Nat) (b0 b1 : Byte) : m4OrEos tag len b0 b1 =
    if tag.toNat / 8 % 2 = 0 ∧ b0.toNat / 4 + b1.toNat * 64 = 0 then .eos
    else .m4 (16384 + tag.toNat / 8 % 2 * 16384 + (b0.toNat / 4 + b1.toNat * 64)) len (b0.toNat % 4) := by
  have hbit : bits tag 3 3 = tag.toNat / 8 % 2 := rfl
  rw [m4OrEos, hbit, dist14_eq, bits_1_0]

/-! ## The obligations -/

/-- Settles O13: the tag and `H` decode to M1N, whose body makes the checks and the copies. -/
theorem m1nExecutes : Obligations.M1nExecutes := by
  unfold Obligations.M1nExecutes
  intro s tag rest hat hst htag
  exact shortMatch_executes (dist := fun h => h * 4 + tag.toNat / 4 % 4 + 1) hat
    (dispatchForm_m1n hst (by omega)) (decodeOperands_m1n tag) (fun _ => .inl ⟨rfl, rfl⟩)
    (fun _ => by omega) (Nat.mod_lt _ (by decide))

/-- Settles O14: the tag and `H` decode to M1F, whose body makes the checks and the copies. -/
theorem m1fExecutes : Obligations.M1fExecutes := by
  unfold Obligations.M1fExecutes
  intro s tag rest hat hst htag
  exact shortMatch_executes (dist := fun h => h * 4 + tag.toNat / 4 % 4 + 2049) hat
    (hst ▸ dispatchForm_m1f (by omega)) (decodeOperands_m1f tag) (fun _ => .inr (.inl ⟨rfl, rfl⟩))
    (fun _ => by omega) (Nat.mod_lt _ (by decide))

/-- Settles O15: the tag and `H` decode to M2S, whose body makes the checks and the copies. -/
theorem m2sExecutes : Obligations.M2sExecutes := by
  unfold Obligations.M2sExecutes
  intro s tag rest hat hst hlo hhi
  exact shortMatch_executes (dist := fun h => h * 8 + tag.toNat / 4 % 8 + 1) hat
    (dispatchForm_m2s hst hlo (by omega)) (decodeOperands_m2s hlo hhi) (fun _ => .inr (.inr (.inl rfl)))
    (fun _ => by omega) (Nat.mod_lt _ (by decide))

/-- Settles O16: the tag and `H` decode to M2L, whose body makes the checks and the copies. -/
theorem m2lExecutes : Obligations.M2lExecutes := by
  unfold Obligations.M2lExecutes
  intro s tag rest hat hst hlo
  exact shortMatch_executes (dist := fun h => h * 8 + tag.toNat / 4 % 8 + 1) hat
    (dispatchForm_m2l hst hlo) (decodeOperands_m2l hlo) (fun _ => .inr (.inr (.inr rfl)))
    (fun _ => by omega) (Nat.mod_lt _ (by decide))

/-- Settles O17: a length that is carried, with the two distance bytes, decodes to M3; otherwise operand bytes are
missing. -/
theorem m3Executes : Obligations.M3Executes := by
  unfold Obligations.M3Executes
  intro s tag rest hat hst hlo hhi
  obtain ⟨hstep, hmissing⟩ := step_wideForm hat (dispatchForm_m3 hst hlo (by omega)) (decodeOperands_m3 tag)
  obtain ⟨hact, -, hwf, -⟩ := hat
  refine ⟨fun ext v b0 b1 more hext hrest => ?_, hmissing⟩
  rw [hstep ext v b0 b1 more hext hrest, m3OfBytes, exec_wideMatch (s := fetched s (3 + ext.length)) hact (.inl rfl)]
  exact matchThenLiterals_executes _ hact hwf (by omega) (Nat.mod_lt _ (by decide))

/-- Settles O18: a length that is carried, with the two distance bytes, decodes to EOS where the distance code is 0
and to M4 elsewhere; otherwise operand bytes are missing. -/
theorem m4Executes : Obligations.M4Executes := by
  unfold Obligations.M4Executes
  intro s tag rest hat hst hlo hhi
  have hform : dispatchForm s.st tag = .m4OrEos :=
    dispatchForm_m4 (fun hstart => Nat.lt_succ_of_le (hst hstart)) hlo (by omega)
  obtain ⟨hstep, hmissing⟩ := step_wideForm hat hform (decodeOperands_m4OrEos tag)
  obtain ⟨hact, -, hwf, -⟩ := hat
  refine ⟨fun ext v b0 b1 more hext hrest => ?_, hmissing⟩
  rw [hstep ext v b0 b1 more hext hrest, m4OrEos_eq]
  split
  · rw [exec_eos (s := fetched s (3 + ext.length)) hact]
    exact endOfStream_executes hact
  · rw [exec_wideMatch (s := fetched s (3 + ext.length)) hact (.inr rfl)]
    exact matchThenLiterals_executes _ hact hwf (by omega) (Nat.mod_lt _ (by decide))

/-- Settles O54: `DecoderReaches` is the frame of a decoder step, and the end of a job writes result registers
only. -/
theorem decoderWritesOnlyAhead : Obligations.DecoderWritesOnlyAhead := by
  unfold Obligations.DecoderWritesOnlyAhead
  intro s t hinv hact hin hst
  rw [step_engine hin] at hst
  refine ⟨engineStep_same hst, ?_⟩
  rw [engineStep_decoder hact] at hst
  obtain ⟨hip, hop⟩ := hinv.decoder hact
  obtain ⟨u, hu, hcase⟩ := decoderStep_cases s hact hip hop hinv.stores.outWf
  have hframe : u.ht = s.ht ∧ u.eip = s.eip ∧ u.eii = s.eii ∧ u.eop = s.eop := by
    rw [hu.frame]
    exact ⟨rfl, rfl, rfl, rfl⟩
  obtain ⟨hht, heip, heii, heop⟩ := hframe
  rcases hcase with ⟨k, -, e⟩ | ⟨-, -, e⟩ | ⟨-, e⟩ <;> obtain rfl := Host.Outcome.next.inj (e.symm.trans hst) <;>
    exact ⟨hht, heip, heii, heop, hu.ahead⟩

end Sys2Proof.Proofs

/-!
The end of a DECOMPRESS job (rules R130, R131, R145): the two ends of EOS, and the run of the decoder to the end of
its job, of at most one step for each byte of the stream left and one more.
-/

namespace Sys2Proof.Proofs

open Sys2Proof.Machine Sys2Proof.Laws

/-! ## The steps of a DECOMPRESS job (rules R131, R145) -/

/-- The job whose output has room for `cap` bytes has ended in `t` in one of the two ways of rule R131: Ok with the
whole output, or one of the decoder's kinds with none. -/
def decompressEnded (cap : Nat) (t : State) : Prop :=
  t.done = true ∧ ((t.code = .ok ∧ t.outLen.toNat = cap ∧ t.faultIp = 0 ∧ t.faultOp = 0) ∨
    (t.code ∈ decoderKinds ∧ t.outLen = 0))

theorem decompressEnded_raise (cap : Nat) (u : State) {k : Kind} (hk : k ∈ decoderKinds) :
    decompressEnded cap (u.raise k) :=
  ⟨raise_done u k, .inr ⟨hk, raise_outLen u k⟩⟩

theorem decompressEnded_endOk (u : State) {cap : Nat} (hcap : cap < 2 ^ u.posBits) :
    decompressEnded cap (u.endOk cap) :=
  ⟨endOk_done u cap, .inl ⟨endOk_code u cap, word_toNat hcap, endOk_faultIp u cap, endOk_faultOp u cap⟩⟩

/-- A decoder step of a legal job answers a next state, in which the job has ended, or runs on legally with `ip`
moved forward. -/
theorem decoderStep_ends_or_advances {s : State} (hinv : s.Inv) (hact : s.active = .decoder) :
    ∃ t, decoderStep s = .next t ∧
      ((t.active = .idle ∧ decompressEnded s.outCap.toNat t) ∨ (t.active = .decoder ∧ t.Inv ∧ s.ip < t.ip)) := by
  obtain ⟨hip, hop⟩ := hinv.decoder hact
  obtain ⟨u, hu, hcase⟩ := decoderStep_cases s hact hip hop hinv.stores.outWf
  rcases hcase with ⟨k, hk, e⟩ | ⟨hfull, -, e⟩ | ⟨hlt, e⟩
  · exact ⟨_, e, .inl ⟨raise_active u k, decompressEnded_raise _ u hk⟩⟩
  · refine ⟨_, e, .inl ⟨endOk_active u u.op, ?_⟩⟩
    rw [hfull]
    exact decompressEnded_endOk u (hu.same.outCap ▸ u.outCap.isLt)
  · have hrun : u.active = .decoder := by rw [hu.frame, hact]
    exact ⟨u, e, .inr ⟨hrun, decoderReaches_inv hu hinv hact, hlt⟩⟩

/-- A legal DECOMPRESS job runs to its end. Each step that does not end it takes at least one of the bytes left
(rule R145), so the induction is on their number. -/
theorem decompress_reaches_end {s : State} (hinv : s.Inv) (hact : s.active = .decoder) (hin : s.inputs = []) :
    ∃ k t, k ≤ s.inLen.toNat - s.ip + 1 ∧ reachesIdle k s t ∧ decompressEnded s.outCap.toNat t := by
  induction hn : s.inLen.toNat - s.ip using Nat.strong_induction_on generalizing s with
  | _ n ih =>
    obtain ⟨t, hdec, hcase⟩ := decoderStep_ends_or_advances hinv hact
    have heng : engineStep s = .next t := (engineStep_decoder hact).trans hdec
    have hst : step s = .next t := (step_engine hin).trans heng
    have hsame := engineStep_same heng
    have htin := hsame.noInput hin
    rcases hcase with ⟨hidle, hend⟩ | ⟨hrun, htinv, hlt⟩
    · exact ⟨1, t, by omega, ⟨run_one hst, hidle, htin⟩, hend⟩
    · have hlen := hsame.inLen
      have hle := (htinv.decoder hrun).1
      obtain ⟨k, u, hk, ⟨hk_run, hidle, huin⟩, hend⟩ := ih _ (by omega) htinv hrun htin rfl
      exact ⟨k + 1, u, by omega, ⟨(run_next k hst).trans hk_run, hidle, huin⟩, hsame.outCap ▸ hend⟩

/-! ## The obligations -/

/-- Settles O57: the job runs to an end, by induction on the bytes left. -/
theorem decompressJobEnds : Obligations.DecompressJobEnds := by
  unfold Obligations.DecompressJobEnds
  exact fun s hinv hact hin => decompress_reaches_end hinv hact hin

/-- Settles O19: in a DECOMPRESS job EOS is its body, which makes the two checks in their order. -/
theorem eosExecutes : Obligations.EosExecutes := by
  unfold Obligations.EosExecutes
  intro s hact
  rw [exec_eos hact]
  exact endOfStream_executes hact

/-- Settles O24: with both buffers used up neither check fails, and the output cursor is `OUT_CAP`. -/
theorem eosCompletes : Obligations.EosCompletes := by
  unfold Obligations.EosCompletes
  intro s hact hop hip
  rw [exec_eos hact]
  rcases endOfStream_cases s with ⟨hshort, -⟩ | ⟨-, hleft, -⟩ | ⟨-, -, e⟩
  · exact absurd hop hshort
  · exact absurd hip hleft
  · have hlen : BitVec.ofNat s.posBits s.op = s.outCap := by rw [hop, BitVec.ofNat_toNat, BitVec.setWidth_eq]
    rw [e, outcome_ended, State.endOk, State.endJob, hlen]
    rfl

end Sys2Proof.Proofs

/-!
The sequencing of the decoder (rules R140 to R146, R200, R206, R249): the instruction a step executes, the decoder
state it leaves, the progress of each step, the only way a step can fail to answer a next state, and two DECOMPRESS
jobs on one stream in lockstep.
-/

namespace Sys2Proof.Proofs

open Sys2Proof.Machine Sys2Proof.Laws

/-! ## Steps that answer no next state (rules R144, R230, R249) -/

theorem whenIdle_answers (s : State) (f : State → State) : ∃ t, whenIdle s f = .next t := by
  by_cases h : s.active = .idle
  · exact ⟨f s, whenIdle_idle s f h⟩
  · exact ⟨s, whenIdle_busy s f h⟩

theorem commandWrite_answers (s : State) (v : Word s.posBits) : ∃ t, commandWrite s v = .next t := by
  unfold commandWrite
  split
  · exact ⟨s, rfl⟩
  · split
    · next i hd =>
      rcases decodeCommand_eq_some hd with ⟨-, rfl⟩ | ⟨-, rfl⟩ | ⟨-, rfl⟩ | ⟨-, rfl⟩
      · exact whenIdle_answers s id
      · exact whenIdle_answers s State.initialise
      · exact whenIdle_answers s State.beginCompress
      · exact whenIdle_answers s State.beginDecompress
    · exact ⟨s.rejectCommand, rfl⟩

theorem registerWrite_answers (s : State) (r : Fin 8) (v : Word s.posBits) : ∃ t, registerWrite s r v = .next t := by
  by_cases hr : r = 0
  · subst hr
    exact commandWrite_answers s v
  · exact ⟨_, registerWrite_operand s v hr⟩

/-- The host's next move is a store to a buffer. -/
def storePending (s : State) : Prop :=
  ∃ a b more, s.inputs = .storeIn a b :: more ∨ s.inputs = .storeOut a b :: more

/-- A step answers a next state, or is a step of the engine, or is a host store to a buffer of a running job, which
is refused (log 9). -/
theorem step_answers_or_engine_or_refused (s : State) :
    (∃ t, step s = .next t) ∨ (∃ rest, step s = engineStep { s with inputs := rest }) ∨
      (step s = .refused .bufferStoreWhileBusy ∧ s.active ≠ .idle ∧ storePending s) := by
  have hstore : ∀ (f : State → State) (rest : List (HostAction s.posBits)),
      step s = bufferStore { s with inputs := rest } f → storePending s →
      (∃ t, step s = .next t) ∨ (step s = .refused .bufferStoreWhileBusy ∧ s.active ≠ .idle ∧ storePending s) := by
    intro f rest hst hpend
    by_cases hidle : s.active = .idle
    · exact .inl ⟨_, hst.trans (bufferStore_idle f hidle)⟩
    · exact .inr ⟨hst.trans (bufferStore_busy f hidle), hidle, hpend⟩
  cases hin : s.inputs with
  | nil => exact .inr (.inl ⟨s.inputs, step_engine hin⟩)
  | cons a rest =>
    have hst := step_host hin
    cases a with
    | writeReg r v =>
      obtain ⟨t, ht⟩ := registerWrite_answers { s with inputs := rest } r v
      exact .inl ⟨t, hst.trans ht⟩
    | storeIn a b =>
      simp only [hostMove] at hst
      exact (hstore _ rest hst ⟨a, b, rest, .inl hin⟩).imp_right .inr
    | storeOut a b =>
      simp only [hostMove] at hst
      exact (hstore _ rest hst ⟨a, b, rest, .inr hin⟩).imp_right .inr
    | hardReset => exact .inl ⟨_, hst⟩
    | engineTurn => exact .inr (.inl ⟨rest, hst⟩)
    | awaitDone =>
      by_cases hb : s.busy = true
      · exact .inr (.inl ⟨s.inputs, hst.trans (if_pos hb)⟩)
      · exact .inl ⟨_, hst.trans (if_neg hb)⟩

/-- From a legal state the engine answers a next state: no access is outside the buffers (rules R144, R171, R230). -/
theorem engineStep_answers {s : State} (h : s.Inv) : ∃ t, engineStep s = .next t := by
  cases hact : s.active with
  | idle => exact ⟨s, by simp only [engineStep, hact]⟩
  | encoder =>
    rw [engineStep_encoder hact]
    rcases encoderStep_cases s (h.encoder hact) h.stores.outWf h.stores.htWf with
      ⟨m, tab, ip, ii, op, e, -⟩ | ⟨m, n, -, -, -, ⟨-, e⟩ | ⟨-, e⟩⟩ <;> exact ⟨_, e⟩
  | decoder =>
    rw [engineStep_decoder hact]
    obtain ⟨t, e, -⟩ := decoderStep_ends_or_advances h hact
    exact ⟨t, e⟩

/-! ## Two jobs on one stream (rule R146) -/

/-- Two jobs in lockstep reach the same result in the same number of steps. -/
theorem run_sameDecoder {k : Nat} {s t s' : State} (h : SameDecoder s t) (hr : reachesIdle k s s') :
    ∃ t', reachesIdle k t t' ∧ SameResult s' t' ∧ s'.outCap.toNat = s.outCap.toNat := by
  obtain ⟨hrun, hidle, hin⟩ := hr
  induction k generalizing s t with
  | zero =>
    obtain rfl : s = s' := Host.Outcome.next.inj hrun
    exact absurd (h.active.symm.trans hidle) (by decide)
  | succ k ih =>
    obtain ⟨s1, t1, hs, ht, hcap, hcase⟩ := step_sameDecoder h
    rw [run_next k hs] at hrun
    rcases hcase with hsame | hend
    · obtain ⟨t', ⟨hrun', hidle', hin'⟩, hres, hcap'⟩ := ih hsame hrun
      exact ⟨t', ⟨(run_next k ht).trans hrun', hidle', hin'⟩, hres, hcap'.trans hcap⟩
    · obtain rfl : s1 = s' := Host.Outcome.next.inj ((run_idle hend.active hend.inputs k).symm.trans hrun)
      exact ⟨t1, ⟨(run_next k ht).trans (run_idle hend.active' hend.inputs' k), hend.active', hend.inputs'⟩, hend, hcap⟩

/-- A CORE that is ready to decompress starts the job with its first step (rules R40, R204). -/
theorem step_readyFor_decompress {s : State} (h : readyFor 3 s) :
    step s = .next (State.startDecoder { s with inputs := [] }) := by
  obtain ⟨⟨hwidth, -⟩, hidle, hinit, hin, -, -⟩ := h
  have hlt : 2 ^ 16 ≤ 2 ^ s.posBits := Nat.pow_le_pow_right (by decide) hwidth
  have hcmd : decodeCommand (BitVec.ofNat s.posBits 3) = some .decompress :=
    decodeCommand_of_encode (congrArg some (word_toNat (by omega)).symm)
  rw [step_commandWrite hidle hin hcmd]
  exact decompressStartsTheDecoder { s with inputs := [] } hidle hinit

/-- Two jobs on one stream start in lockstep, whatever else the two COREs hold. -/
theorem startDecoder_sameDecoder {s t : State} (hs : s.outMem.wf = true) (ht : t.outMem.wf = true) (h : sameJob s t) :
    SameDecoder (State.startDecoder { s with inputs := [] }) (State.startDecoder { t with inputs := [] }) := by
  obtain ⟨hlen, hcap, hstream⟩ := h
  exact
    { active := rfl, active' := rfl, inputs := rfl, inputs' := rfl, wf := hs, wf' := ht, ip := rfl, op := rfl, st := rfl
      inLen := hlen.symm
      outCap := hcap.symm
      ipLe := Nat.zero_le _
      opLe := Nat.zero_le _
      stream := fun a ha => (hstream a ha).symm
      out := fun a ha => absurd ha (Nat.not_lt_zero a) }

/-! ## What a flow of the decoder leaves (rules R142, R207) -/

/-- Where the flow `f` goes on, it goes on in a state of `P`; where it ends, no job runs any more. -/
def Flow.Leaves (P : State → Prop) : Flow → Prop
  | .go t => P t
  | .ended t => t.active = .idle
  | .stuck _ => True

theorem leaves_andThen {P Q : State → Prop} {f : Flow} {g : State → Flow} (hf : Flow.Leaves P f)
    (hg : ∀ t, Flow.Leaves Q (g t)) : Flow.Leaves Q (f.andThen g) := by
  cases f with
  | go t => exact hg t
  | ended t => exact hf
  | stuck r => trivial

theorem leaves_withAccess {α : Type} {P : State → Prop} {r : Except Fault α} {f : α → Flow}
    (h : ∀ v, Flow.Leaves P (f v)) : Flow.Leaves P (withAccess r f) := by
  cases r with
  | ok v => exact h v
  | error e => trivial

/-- A flow that answers a state in which a job runs has gone on. -/
theorem leaves_outcome {P : State → Prop} {f : Flow} {u : State} (hf : Flow.Leaves P f) (h : f.outcome = .next u)
    (hrun : u.active = .decoder) : P u := by
  rcases outcome_eq_next.mp h with rfl | rfl
  · exact hf
  · exact absurd (hrun.symm.trans hf) (by decide)

theorem copyFromIn_leaves (n src dst : Nat) (s : State) : Flow.Leaves (fun _ => True) (copyFromIn n src dst s) := by
  induction n generalizing src dst s with
  | zero => trivial
  | succ n ih => exact leaves_withAccess fun b => leaves_withAccess fun t => ih _ _ t

theorem copyFromOut_leaves (n dist dst : Nat) (s : State) : Flow.Leaves (fun _ => True) (copyFromOut n dist dst s) := by
  induction n generalizing dst s with
  | zero => trivial
  | succ n ih => exact leaves_withAccess fun b => leaves_withAccess fun t => ih _ t

theorem litCopy_leaves (t : Nat) (s : State) : Flow.Leaves (fun _ => True) (litCopy t s) := by
  unfold litCopy
  split
  · exact raise_active s _
  · split
    · exact raise_active s _
    · exact leaves_andThen (copyFromIn_leaves _ _ _ s) fun _ => trivial

theorem matchCopy_leaves (dist len : Nat) (s : State) : Flow.Leaves (fun _ => True) (matchCopy dist len s) := by
  unfold matchCopy
  split
  · exact raise_active s _
  · split
    · exact raise_active s _
    · exact leaves_andThen (copyFromOut_leaves _ _ _ s) fun _ => trivial

theorem literalRun_leaves_st (t : Nat) (after : St) (s : State) :
    Flow.Leaves (fun u => u.st = after) (literalRun t after s) :=
  leaves_andThen (litCopy_leaves t s) fun _ => rfl

theorem matchThenLiterals_leaves_st (dist len sc : Nat) (s : State) :
    Flow.Leaves (fun u => u.st = stAfter sc) (matchThenLiterals dist len sc s) :=
  leaves_andThen (matchCopy_leaves dist len s) fun s' => leaves_andThen (litCopy_leaves sc s') fun _ => rfl

/-- A wire instruction that answers a next state runs in a DECOMPRESS job (rule R40; log 10). -/
theorem active_of_exec_wire {i : Instr} {s u : State} (hwire : i.isWire = true) (h : exec i s = .next u) :
    s.active = .decoder := by
  by_contra hact
  cases (wireInstructionsNeedAJob i s hwire hact).symm.trans h

/-- The instruction is one of the six match forms, with `sc` trailing literals (rule R142). -/
def isMatch (i : Instr) (sc : Nat) : Prop :=
  (∃ dist, i = .m1n dist sc ∨ i = .m1f dist sc) ∨
    ∃ dist len, i = .m2s dist len sc ∨ i = .m2l dist len sc ∨ i = .m3 dist len sc ∨ i = .m4 dist len sc

theorem isWire_of_isMatch {i : Instr} {sc : Nat} (h : isMatch i sc) : i.isWire = true := by
  rcases h with ⟨dist, rfl | rfl⟩ | ⟨dist, len, rfl | rfl | rfl | rfl⟩ <;> rfl

/-- In a DECOMPRESS job every match form is the common body of rule R111. -/
theorem exec_isMatch {i : Instr} {sc : Nat} {s : State} (h : isMatch i sc) (hact : s.active = .decoder) :
    ∃ dist len, exec i s = (matchThenLiterals dist len sc s).outcome := by
  rcases h with ⟨dist, h | h⟩ | ⟨dist, len, h | h | h⟩
  · exact ⟨dist, 2, exec_shortMatch hact (.inl ⟨h, rfl⟩)⟩
  · exact ⟨dist, 3, exec_shortMatch hact (.inr (.inl ⟨h, rfl⟩))⟩
  · exact ⟨dist, len, exec_shortMatch hact (.inr (.inr (.inl h)))⟩
  · exact ⟨dist, len, exec_shortMatch hact (.inr (.inr (.inr h)))⟩
  · exact ⟨dist, len, exec_wideMatch hact h⟩

/-! ## The instruction a step executes (rules R140, R141, R143) -/

/-- Where an instruction is read the decoder latches its cursors and executes it with its bytes fetched. -/
theorem engineStep_of_decode {s : State} {i : Instr} {rest : List Byte} (hact : s.active = .decoder)
    (h : decode s.st s.unread = .ok (i, rest)) :
    engineStep s = exec i { s with ipc := s.ip, opc := s.op, ip := s.ip + (s.unread.length - rest.length) } := by
  rw [engineStep_decoder hact, decoderStep, h]
  rfl

/-- With `ip` at the end of the input no byte is unread. -/
theorem unread_eq_nil {s : State} (h : s.ip = s.inLen.toNat) : s.unread = [] := by
  rw [State.unread, h, Nat.sub_self]
  rfl

/-! ## The obligations -/

/-- Settles O49: only an engine could stop with a guard, and from a legal state it answers a next state. -/
theorem noAccessIsOutOfBounds : Obligations.NoAccessIsOutOfBounds := by
  unfold Obligations.NoAccessIsOutOfBounds
  intro s f hinv hfault
  rcases step_answers_or_engine_or_refused s with ⟨t, ht⟩ | ⟨rest, he⟩ | ⟨hr, -⟩
  · cases ht.symm.trans hfault
  · obtain ⟨t, ht⟩ := engineStep_answers (inputs_inv hinv rest)
    cases ht.symm.trans (he.symm.trans hfault)
  · cases hr.symm.trans hfault

/-- Settles O59: both COREs start the job with their first step, in lockstep, and stay so to the end. -/
theorem decompressIgnoresOldState : Obligations.DecompressIgnoresOldState := by
  unfold Obligations.DecompressIgnoresOldState
  intro s t s' k hs ht hjob hr
  have hstep := step_readyFor_decompress hs
  have hstep' := step_readyFor_decompress ht
  obtain ⟨-, -, -, hpending, -, hwf⟩ := hs
  obtain ⟨-, -, -, -, -, hwf'⟩ := ht
  obtain ⟨hrun, hidle, hin⟩ := hr
  cases k with
  | zero =>
    obtain rfl : s = s' := Host.Outcome.next.inj hrun
    cases hpending.symm.trans hin
  | succ k =>
    rw [run_next k hstep] at hrun
    obtain ⟨t', ⟨hrun', hidle', hin'⟩, hres, hcap⟩ :=
      run_sameDecoder (startDecoder_sameDecoder hwf hwf' hjob) ⟨hrun, hidle, hin⟩
    exact ⟨t', ⟨(run_next k hstep').trans hrun', hidle', hin'⟩, hres.code, hres.outLen, hres.faultIp, hres.faultOp,
      fun hok a ha => hres.out hok a (hcap ▸ ha)⟩

/-- Settles O20: the last thing a literal run and a match do is to set `st`, and EOS only ends the job. -/
theorem stateAfterEachInstruction : Obligations.StateAfterEachInstruction := by
  unfold Obligations.StateAfterEachInstruction
  refine ⟨fun t s u h hrun => ?_, fun t s u h hrun => ?_, fun i sc s u hsc hi h hrun => ?_, fun s u h => ?_⟩
  · have hact := active_of_exec_wire rfl h
    rw [leaves_outcome (literalRun_leaves_st t (stAfter t) s) ((exec_litf t hact).symm.trans h) hrun]
    exact stCode_stAfter_min t
  · have hact := active_of_exec_wire rfl h
    exact leaves_outcome (literalRun_leaves_st t .s4 s) ((exec_litr t hact).symm.trans h) hrun
  · have hact := active_of_exec_wire (isWire_of_isMatch hi) h
    obtain ⟨dist, len, hbody⟩ := exec_isMatch hi hact
    rw [leaves_outcome (matchThenLiterals_leaves_st dist len sc s) (hbody.symm.trans h) hrun]
    exact stCode_stAfter hsc
  · have hact := active_of_exec_wire rfl h
    rw [exec_eos hact] at h
    rcases endOfStream_cases s with ⟨-, e⟩ | ⟨-, -, e⟩ | ⟨-, -, e⟩ <;> rw [e] at h <;>
      obtain rfl := Host.Outcome.next.inj h <;> exact ⟨rfl, rfl⟩

/-- Settles O51: no engine is refused, and of the host's moves only a store to a running job's buffer is. -/
theorem onlyBusyStoresAreRefused : Obligations.OnlyBusyStoresAreRefused := by
  unfold Obligations.OnlyBusyStoresAreRefused
  intro s r href
  rcases step_answers_or_engine_or_refused s with ⟨t, ht⟩ | ⟨rest, he⟩ | ⟨hr, hbusy, hpend⟩
  · cases ht.symm.trans href
  · exact absurd (he.symm.trans href) (engineStep_not_refused _ r)
  · exact ⟨(Host.Outcome.refused.inj (hr.symm.trans href)).symm, hbusy, hpend⟩

/-- Settles O56: of the cases of a decoder step all but one end the job, and that one moves `ip` past the tag. -/
theorem decoderStepConsumesInput : Obligations.DecoderStepConsumesInput := by
  unfold Obligations.DecoderStepConsumesInput
  intro s t hinv hact hin hst
  rw [step_engine hin, engineStep_decoder hact] at hst
  obtain ⟨hip, hop⟩ := hinv.decoder hact
  obtain ⟨u, hu, ⟨k, -, e⟩ | ⟨-, -, e⟩ | ⟨hlt, e⟩⟩ := decoderStep_cases s hact hip hop hinv.stores.outWf <;>
    obtain rfl := Host.Outcome.next.inj (e.symm.trans hst)
  · exact .inl (raise_active u k)
  · exact .inl (endOk_active u u.op)
  · exact .inr ⟨by rw [hu.frame, hact], hlt, hu.opLe⟩

/-- Settles O8: the host absent, polling, or yielding its turn, the step of a running job is the engine's. -/
theorem stepRunsTheDecodedInstruction : Obligations.StepRunsTheDecodedInstruction := by
  unfold Obligations.StepRunsTheDecodedInstruction
  refine ⟨fun s i rest hact hin hdec => ?_, fun s i rest more hact hin hdec => ?_,
    fun s i rest more hact hin hdec => ?_, fun s v i more hidle hin hcmd => step_commandWrite hidle hin hcmd⟩
  · exact (step_engine hin).trans (engineStep_of_decode hact hdec)
  · have hbusy : s.busy = true := (busy_eq_true s).mpr (by rw [hact]; decide)
    exact (step_host hin).trans ((if_pos hbusy).trans (engineStep_of_decode hact hdec))
  · exact (step_host hin).trans (engineStep_of_decode (s := { s with inputs := more }) hact hdec)

/-- Settles O10: no byte is unread, so no tag is read, and the fault records the cursors just latched. -/
theorem missingEndMarkerIsReported : Obligations.MissingEndMarkerIsReported := by
  unfold Obligations.MissingEndMarkerIsReported
  intro s hact hin hip
  rw [step_engine hin, engineStep_decoder hact, decoderStep, unread_eq_nil hip, decode]
  exact congrArg _ (raise_decoder (s := s.latched) .eofNotFound hact)

end Sys2Proof.Proofs

/-!
The end of a COMPRESS job (rules R171, R189, R190, R219): the two ends of the tail step, and the run of the encoder
to the end of its job, of at most one step for each input byte the scan has left and one more.
-/

namespace Sys2Proof.Proofs

open Sys2Proof.Machine Sys2Proof.Laws

/-! ## The steps of a COMPRESS job (rules R171, R190) -/

/-- The COMPRESS job on `len` bytes of input has ended in `t` with a stream of `n` bytes, within the bound of rule
R190, in one of the two ways of rule R189. -/
def compressEnded (len n : Nat) (t : State) : Prop :=
  t.done = true ∧ n ≤ len + len / 16 + 4 ∧
    if n < len then t.code = .ok ∧ t.outLen.toNat = n ∧ t.faultIp = 0 ∧ t.faultOp = 0
    else t.code = .notCompressible ∧ t.outLen = 0 ∧ len - 3 ≤ t.faultIp.toNat ∧ t.faultIp.toNat ≤ len ∧
      t.faultOp.toNat = n

theorem compressEnded_endOk {u : State} {len n : Nat} (hword : n < 2 ^ u.posBits) (hshort : n < len) :
    compressEnded len n (u.endOk n) := by
  refine ⟨endOk_done u n, by omega, ?_⟩
  rw [if_pos hshort]
  exact ⟨endOk_code u n, word_toNat hword, endOk_faultIp u n, endOk_faultOp u n⟩

theorem compressEnded_notCompressible {u : State} {len : Nat} (hact : u.active = .encoder)
    (hword : u.eop < 2 ^ u.posBits) (hlen : len < 2 ^ u.posBits) (hsize : u.eop ≤ len + len / 16 + 4)
    (hlong : len ≤ u.eop) (hlo : len < u.eip + 4) (hhi : u.eip ≤ len) :
    compressEnded len u.eop (u.raise .notCompressible) := by
  have hip : (u.raise .notCompressible).faultIp.toNat = u.eip := by
    rw [raise_faultIp, faultCursors_encoder u hact]
    exact word_toNat (hhi.trans_lt hlen)
  have hop : (u.raise .notCompressible).faultOp.toNat = u.eop := by
    rw [raise_faultOp, faultCursors_encoder u hact]
    exact word_toNat hword
  refine ⟨raise_done u _, hsize, ?_⟩
  rw [if_neg (by omega), hip, hop]
  exact ⟨raise_code u _, raise_outLen u _, by omega, hhi, rfl⟩

/-- An encoder step of a legal job answers a next state, in which the job has ended, or runs on legally with the scan
cursor moved forward. -/
theorem encoderStep_ends_or_advances {s : State} (hinv : s.Inv) (hact : s.active = .encoder) :
    ∃ t, encoderStep s = .next t ∧
      ((t.active = .idle ∧ ∃ n, compressEnded s.inLen.toNat n t) ∨
        (t.active = .encoder ∧ t.Inv ∧ s.eip < t.eip)) := by
  have henc := hinv.encoder hact
  rcases encoderStep_cases s henc hinv.stores.outWf hinv.stores.htWf with
    ⟨m, tab, ip, ii, op, e, -, -, hlt, -⟩ | ⟨m, n, hw, hscan, hsize, hend⟩
  · exact ⟨_, e, .inr ⟨hact, encoderStep_inv hinv hact e, hlt⟩⟩
  · have hword : n < 2 ^ s.posBits := hw.cap.trans_lt s.outCap.isLt
    rcases hend with ⟨hshort, e⟩ | ⟨hlong, e⟩
    · exact ⟨_, e, .inl ⟨endOk_active _ n, n, compressEnded_endOk hword hshort⟩⟩
    · exact ⟨_, e, .inl ⟨raise_active _ _, n, compressEnded_notCompressible (u := { s with outMem := m, eop := n })
        hact hword s.inLen.isLt hsize hlong hscan henc.bound⟩⟩

/-- A legal COMPRESS job runs to its end. Each step that does not end it moves the scan cursor forward, and the cursor
stays in the input (rule R171), so the induction is on the bytes after it. -/
theorem compress_reaches_end {s : State} (hinv : s.Inv) (hact : s.active = .encoder) (hin : s.inputs = []) :
    ∃ k t n, k ≤ s.inLen.toNat - s.eip + 1 ∧ reachesIdle k s t ∧ compressEnded s.inLen.toNat n t := by
  induction hleft : s.inLen.toNat - s.eip using Nat.strong_induction_on generalizing s with
  | _ left ih =>
    obtain ⟨t, henc, hcase⟩ := encoderStep_ends_or_advances hinv hact
    have heng : engineStep s = .next t := (engineStep_encoder hact).trans henc
    have hst : step s = .next t := (step_engine hin).trans heng
    have hsame := engineStep_same heng
    have htin := hsame.noInput hin
    rcases hcase with ⟨hidle, n, hend⟩ | ⟨hrun, htinv, hlt⟩
    · exact ⟨1, t, n, by omega, ⟨run_one hst, hidle, htin⟩, hend⟩
    · have hlen := hsame.inLen
      have hle := (htinv.encoder hrun).bound
      obtain ⟨k, u, n, hk, ⟨hk_run, hidle, huin⟩, hend⟩ := ih _ (by omega) htinv hrun htin rfl
      exact ⟨k + 1, u, n, by omega, ⟨(run_next k hst).trans hk_run, hidle, huin⟩, hlen ▸ hend⟩

/-! ## The obligation -/

/-- Settles O58: the job runs to an end, by induction on the input the scan has left. -/
theorem compressJobEnds : Obligations.CompressJobEnds := by
  unfold Obligations.CompressJobEnds
  exact fun s hinv hact hin => compress_reaches_end hinv hact hin

end Sys2Proof.Proofs

/-!
The match finder and the encoder step (rules R161 to R169, R181, R185 to R187, R189): what a hash says of the fourth
byte, the length of a match, which matches are accepted, and the three shapes of an encoder step.
-/

namespace Sys2Proof.Proofs

open Sys2Proof.Machine Sys2Proof.Laws

/-! ## The hash (rule R161) -/

/-- The upper eight of the fourteen hash bits are those of the product's top byte, where the last byte of the window
enters by a multiple of it only. -/
theorem hashWindow_upper (b0 b1 b2 x : Byte) : hashWindow b0 b1 b2 x / 2 ^ 6 =
    (Config.hashMult * (b0.toNat + b1.toNat * 2 ^ 8 + b2.toNat * 2 ^ 16) / 2 ^ 24
      + Config.hashMult * x.toNat) % 2 ^ 8 := by
  have hsplit : Config.hashMult * (b0.toNat + b1.toNat * 2 ^ 8 + b2.toNat * 2 ^ 16 + x.toNat * 2 ^ 24) =
      Config.hashMult * (b0.toNat + b1.toNat * 2 ^ 8 + b2.toNat * 2 ^ 16) + 2 ^ 24 * (Config.hashMult * x.toNat) := by
    ring
  rw [hashWindow, Nat.div_div_eq_div_mul, hsplit]
  show _ % (2 ^ 24 * 2 ^ 8) / 2 ^ 24 = _
  rw [Nat.mod_mul_right_div_self, Nat.add_mul_div_left _ _ (Nat.two_pow_pos 24)]

/-- The multiplier is odd, so its multiples by different bytes differ in their low byte. -/
theorem byte_eq_of_hashMult_mul (c : Nat) {x y : Byte}
    (h : (c + Config.hashMult * x.toNat) % 2 ^ 8 = (c + Config.hashMult * y.toNat) % 2 ^ 8) : x = y := by
  have hmul : Config.hashMult * x.toNat ≡ Config.hashMult * y.toNat [MOD 2 ^ 8] := Nat.ModEq.add_left_cancel' c h
  have hmod : x.toNat ≡ y.toNat [MOD 2 ^ 8] := Nat.ModEq.cancel_left_of_coprime (by decide) hmul
  exact BitVec.eq_of_toNat_eq (hmod.eq_of_lt_of_lt x.isLt y.isLt)

/-! ## Acceptance (rules R165, R181) -/

theorem accepts_eq_true_iff {dist len : Nat} : accepts dist len = true ↔ 3 ≤ len ∧ matchCost dist len < len := by
  simp [accepts, Config.minMatch]

theorem matchCost_three (dist : Nat) : matchCost dist 3 = if dist ≤ 2048 then 2 else 3 := by
  simp [matchCost, Config.m2MaxDist, Config.m2MaxLen, Config.m3InlineMaxLen, Config.m4InlineMaxLen]

/-- From four bytes on every form is shorter than its match. -/
theorem matchCost_lt {len : Nat} (dist : Nat) (h : 4 ≤ len) : matchCost dist len < len := by
  unfold matchCost ceil255 Config.m3InlineMaxLen Config.m4InlineMaxLen
  split_ifs <;> omega

/-! ## The scan step (rules R162, R163, R166, R167, R169) -/

theorem step_encoder {s : State} (hact : s.active = .encoder) (hin : s.inputs = []) : step s = encoderStep s :=
  (step_engine hin).trans (engineStep_encoder hact)

theorem encoderStep_scan {s : State} (h : s.eip + 4 ≤ s.inLen.toNat) : encoderStep s = (scanStep s).outcome :=
  if_pos h

theorem encoderStep_tail {s : State} (h : s.inLen.toNat < s.eip + 4) : encoderStep s = (tailStep s).outcome :=
  if_neg (Nat.not_le.mpr h)

/-- The match length does not depend on the table. -/
theorem matchLen_setTable (s : State) (t : HashTable) (n m p : Nat) :
    ({ s with ht := t } : State).matchLen n m p = s.matchLen n m p := by
  induction n generalizing m p with
  | zero => rfl
  | succ n ih =>
    simp only [State.matchLen, ih]
    rfl

/-- A scan step that finds no usable entry (rules R163, R166). -/
theorem scanStep_unusable {s : State} {h : Nat} (hh : s.hash4 s.eip = .ok h)
    (hu : usable s.eip (s.ht.get h) = none) : scanStep s = passByte { s with ht := s.ht.put h s.eip } := by
  simp only [scanStep, hh, withAccess_ok, hu]

/-- A scan step with a usable candidate goes by the acceptance of its match (rules R163 to R165). -/
theorem scanStep_candidate {s : State} {h m len : Nat} (hh : s.hash4 s.eip = .ok h) (hget : s.ht.get h = some m)
    (hdist : s.eip - m ≤ 49151) (hlen : s.matchLen (s.inLen.toNat - s.eip) m s.eip = .ok len) :
    scanStep s = if accepts (s.eip - m) len then acceptMatch (s.eip - m) len { s with ht := s.ht.put h s.eip }
      else passByte { s with ht := s.ht.put h s.eip } := by
  have hu : usable s.eip (s.ht.get h) = some m := by rw [hget, usable, if_pos hdist]
  simp only [scanStep, hh, withAccess_ok, hu, matchLen_setTable, hlen]

/-! ## The result (rule R189) -/

/-- What fault entry leaves of a COMPRESS job (rule R232). -/
theorem raise_encoder {s : State} (k : Kind) (hact : s.active = .encoder) : s.raise k =
    { s with
      outLen := 0, faultIp := BitVec.ofNat s.posBits s.eip, faultOp := BitVec.ofNat s.posBits s.eop
      code := k, active := .idle, done := true } := by
  rw [State.raise, faultCursors_encoder s hact]
  rfl

theorem finishCompress_ok {s : State} (h : s.eop < s.inLen.toNat) : finishCompress s = .ended (s.endOk s.eop) :=
  if_neg (Nat.not_le.mpr h)

theorem finishCompress_notCompressible {s : State} (h : s.inLen.toNat ≤ s.eop) :
    finishCompress s = .ended (s.raise .notCompressible) := if_pos h

/-! ## The size of the stream (rules R165, R185, R190) -/

/-- In a running job the output has room for the literals up to position `p` with their header, and after them for
`extra` bytes that exceed the input left there by no more than the slack of the capacity. -/
theorem literals_fit {s : State} (h : s.EncoderOk) {p extra : Nat} (hp : p ≤ s.inLen.toNat) (hii : s.eii ≤ p)
    (hextra : p + extra ≤ s.inLen.toNat + 64) :
    s.eop + (runHeader (s.eop == 0) (p - s.eii)).length + (p - s.eii) + extra ≤ s.outCap.toNat := by
  have hop : s.eop ≤ s.eii + s.eii / 16 := by
    rcases h.emitted with ⟨hop, -⟩ | ⟨-, hop⟩ <;> omega
  have hcap := h.capacity
  obtain ⟨hheader, -, -⟩ := length_runHeader (s.eop == 0) (p - s.eii)
  unfold worstCase at hcap
  omega

/-! ## The obligations -/

/-- Settles O40: equal hashes have equal upper bits, and these tell the last byte. -/
theorem hashTellsTheFourthByte : Obligations.HashTellsTheFourthByte := by
  unfold Obligations.HashTellsTheFourthByte
  intro b0 b1 b2 x y h
  have hupper : hashWindow b0 b1 b2 x / 2 ^ 6 = hashWindow b0 b1 b2 y / 2 ^ 6 := by rw [h]
  rw [hashWindow_upper, hashWindow_upper] at hupper
  exact byte_eq_of_hashMult_mul _ hupper

/-- Settles O41: the extension loop over all the input left stops at its end or at the first byte that differs. -/
theorem matchLengthIsTheCommonRun : Obligations.MatchLengthIsTheCommonRun := by
  unfold Obligations.MatchLengthIsTheCommonRun
  intro s m p hm hp
  obtain ⟨len, hlen, hle, hagree, hstop⟩ := matchLen_spec s (s.inLen.toNat - p) m p (by omega) hm.le
  exact ⟨len, hlen, by omega, hagree, hstop.imp_left fun hend => by omega⟩

/-- Settles O43: a length of 3 is cheaper only in M2S, and from 4 bytes on every form is. -/
theorem acceptancePolicy : Obligations.AcceptancePolicy := by
  unfold Obligations.AcceptancePolicy
  refine ⟨fun dist len => accepts_eq_true_iff, fun dist => ?_, fun dist len _ hlen => ?_⟩
  · rw [accepts_eq_true_iff, matchCost_three]
    split_ifs with hdist <;> simp [hdist]
  · exact accepts_eq_true_iff.mpr ⟨by omega, matchCost_lt dist hlen⟩

/-- Settles O44: for each of the three reasons the scan step passes the byte. -/
theorem scanStepWithoutMatch : Obligations.ScanStepWithoutMatch := by
  unfold Obligations.ScanStepWithoutMatch
  intro s h hact hin hw hh hno
  have hpass : scanStep s = passByte { s with ht := s.ht.put h s.eip } := by
    rcases hno with hnone | ⟨m, hget, -, hfar | ⟨len, hlen, hacc⟩⟩
    · exact scanStep_unusable hh (by rw [hnone, usable])
    · exact scanStep_unusable hh (by rw [hget, usable, if_neg (Nat.not_le.mpr hfar)])
    · by_cases hdist : s.eip - m ≤ 49151
      · rw [scanStep_candidate hh hget hdist hlen, hacc]
        rfl
      · exact scanStep_unusable hh (by rw [hget, usable, if_neg hdist])
  refine ⟨?_, fun x => HashTable.get_put _ _ _ _⟩
  rw [step_encoder hact hin, encoderStep_scan hw, hpass, passByte, outcome_go]

/-- Settles O45: the step accepts the match, whose bytes fit, and the position itself is the first of those it
enters in the table. -/
theorem scanStepWithMatch : Obligations.ScanStepWithMatch := by
  unfold Obligations.ScanStepWithMatch
  intro s h m len hinv hact hin hw hh hget hdist hlen hacc
  have henc := hinv.encoder hact
  obtain ⟨-, hcost⟩ := accepts_eq_true_iff.mp hacc
  have hbehind : m < s.eip := henc.table h m hget
  have hinside : s.eip + len ≤ s.inLen.toNat := by
    obtain ⟨k, hk, hle, -⟩ := matchLen_spec s (s.inLen.toNat - s.eip) m s.eip (by omega) hbehind.le
    obtain rfl : k = len := Except.ok.inj (hk.symm.trans hlen)
    omega
  obtain ⟨hemit, -⟩ := length_emitMatch (s.eip - m) len
  have hfit := literals_fit henc (p := s.eip) (extra := (emitMatch (s.eip - m) len).length) henc.bound henc.order
    (by omega)
  obtain ⟨out, t, hgo, -, hslice, hpatch, habove, -, htable⟩ := acceptMatch_spec (s.eip - m) len
    { s with ht := s.ht.put h s.eip } hinside henc.order (henc.emitted.imp And.left And.left) hfit hinv.stores.outWf
  refine ⟨out, t, ?_, hslice, hpatch, habove, ?_⟩
  · rw [step_encoder hact hin, encoderStep_scan hw, scanStep_candidate hh hget hdist hlen, if_pos hacc, hgo,
      outcome_go]
  · obtain ⟨skipped, rfl⟩ : ∃ skipped, len = skipped + 1 := ⟨len - 1, by omega⟩
    exact tableAfter_step hw hh htable

/-- Settles O46: the literals and EOS fit, and the result policy compares the stream with the input. -/
theorem tailStepEndsTheJob : Obligations.TailStepEndsTheJob := by
  unfold Obligations.TailStepEndsTheJob
  intro s hinv hact hin hw
  have henc := hinv.encoder hact
  have hii : s.eii ≤ s.inLen.toNat := henc.order.trans henc.bound
  have hfit := literals_fit henc (extra := 3) le_rfl hii (by omega)
  obtain ⟨out, hfin, -, hslice, hpatch, habove⟩ :=
    tailStep_spec s hii (henc.emitted.imp And.left And.left) hfit hinv.stores.outWf
  refine ⟨out, _, rfl, ?_, ?_, hpatch, habove⟩
  · rw [step_encoder hact hin, encoderStep_tail hw, hfin]
    split_ifs with hshort
    · rw [finishCompress_ok hshort]
      rfl
    · rw [finishCompress_notCompressible (Nat.not_lt.mp hshort), raise_encoder _ (by exact hact)]
      rfl
  · rw [Nat.add_assoc, Nat.add_assoc, Nat.add_sub_cancel_left, ← Nat.add_assoc]
    exact hslice

end Sys2Proof.Proofs

/-!
The instruction encoder (rules R181, R192): the match form it picks is the encoder of wire instructions' own, and the
stream of a COMPRESS job, read back by a DECOMPRESS job, gives the input.
-/

namespace Sys2Proof.Proofs

open Sys2Proof.Machine Sys2Proof.Laws

/-! ## The match form (rule R181) -/

/-- What `EmitMatch` writes is the encoding of the chosen match instruction with `S` = 0. -/
theorem emitMatch_eq_encodeWire {dist len : Nat} (hlo : 1 ≤ dist) (hhi : dist ≤ 49151) (hlen : 3 ≤ len) :
    emitMatch dist len = encodeWire (matchInstr dist len 0) := by
  obtain ⟨x, b, c, hemit, henc⟩ := emitMatch_eq dist len hlo hhi hlen
  rw [hemit, henc 0 (Nat.zero_le 3), show byteOf 0 = 0#8 from rfl, BitVec.or_zero]

/-! ## The start of a job (rules R40, R203, R204) -/

/-- The first step of a CORE that is ready for a command executes it, with no host move left. -/
theorem step_readyFor {s : State} {v : Nat} {i : Instr} (h : readyFor v s) (hv : encodeCommand i = some v)
    (hsmall : v < 4) : step s = exec i { s with inputs := [] } := by
  obtain ⟨⟨hwidth, -⟩, hidle, -, hin, -, -⟩ := h
  have hlt : 2 ^ 16 ≤ 2 ^ s.posBits := Nat.pow_le_pow_right (by decide) hwidth
  have hword : (BitVec.ofNat s.posBits v).toNat = v := word_toNat (by omega)
  exact step_commandWrite hidle hin (decodeCommand_of_encode (hv.trans (congrArg some hword.symm)))

/-- A CORE that is ready to compress, with the capacity for it, starts the job with its first step. -/
theorem step_readyFor_compress {s : State} (h : readyFor 2 s) (hcap : worstCase s.inLen.toNat ≤ s.outCap.toNat) :
    step s = .next (State.startEncoder { s with inputs := [] }) := by
  rw [step_readyFor h (i := .compress) rfl (by decide)]
  obtain ⟨-, hidle, hinit, -, -, -⟩ := h
  exact compressStartsTheEncoder { s with inputs := [] } hidle hinit hcap

/-! ## The two halves of the round trip (rules R191, R192) -/

/-- A COMPRESS job ends with a stream in `OUT` that the decoder plays back to the whole input, up to its EOS. -/
theorem compress_writes_stream {s : State} (h : readyFor 2 s) (hcap : worstCase s.inLen.toNat ≤ s.outCap.toNat) :
    ∃ k t z y b, reachesIdle k s t ∧ wroteStream t z ∧ t.outMem.slice 0 z = y ++ eosBytes ∧
      Plays s.inMem s.inLen.toNat y .start 0 b s.inLen.toNat := by
  have hstart := step_readyFor_compress h hcap
  obtain ⟨-, -, -, -, -, hwf⟩ := h
  obtain ⟨k, t, hrun, hidle, hin, z, y, b, hz, hstream, hplay⟩ :=
    encoder_writes_stream (fun _ _ rest => decode_encodeWire rest) s.inLen.toNat
      (State.startEncoder { s with inputs := [] }) rfl rfl (startEncoder_encoderOk hcap) hwf rfl (.inl ⟨rfl, rfl⟩)
  exact ⟨k + 1, t, z, y, b, ⟨(run_next k hstart).trans hrun, hidle, hin⟩, hz, hstream, hplay⟩

/-- At its start a DECOMPRESS job has its whole input unread. -/
theorem startDecoder_atBoundary {d : State} (m : Memory) {bytes : List Byte} (hwf : d.outMem.wf = true)
    (hbytes : d.inMem.slice 0 d.inLen.toNat = bytes) :
    AtBoundary m bytes .start 0 (State.startDecoder { d with inputs := [] }) where
  active := rfl
  inputs := rfl
  wf := hwf
  st := rfl
  op := rfl
  ipLe := Nat.zero_le _
  unread := hbytes
  out _ hi := absurd hi (Nat.not_lt_zero _)

/-- A DECOMPRESS job on a stream that plays to the first `OUT_CAP` bytes of `m`, then EOS, ends Ok with these bytes. -/
theorem decompress_plays_stream {d : State} {m : Memory} {y : List Byte} {b : St} (h : readyFor 3 d)
    (hbytes : d.inMem.slice 0 d.inLen.toNat = y ++ eosBytes)
    (hplay : Plays m d.outCap.toNat y .start 0 b d.outCap.toNat) :
    ∃ k e, reachesIdle k d e ∧ e.code = .ok ∧ e.outLen.toNat = d.outCap.toNat ∧
      ∀ a, a < d.outCap.toNat → e.outMem.read a = m.read a := by
  have hstart := step_readyFor_decompress h
  obtain ⟨-, -, -, -, -, hwf⟩ := h
  obtain ⟨k, e, hrun, hidle, hin, hok, hlen, hout⟩ :=
    decoder_ends_stream hplay (startDecoder_atBoundary m hwf hbytes) rfl
  exact ⟨k + 1, e, ⟨(run_next k hstart).trans hrun, hidle, hin⟩, hok, hlen, hout⟩

/-! ## The obligations -/

/-- Settles O60: the COMPRESS job leaves a stream that plays back to the input, and the DECOMPRESS job, whose `IN`
holds the same bytes, plays it. -/
theorem roundTripReproducesTheInput : Obligations.RoundTripReproducesTheInput := by
  unfold Obligations.RoundTripReproducesTheInput roundTrips
  intro s hs hcap
  obtain ⟨k, t, z, y, b, hreach, hz, hstream, hplay⟩ := compress_writes_stream hs hcap
  refine ⟨k, t, z, hreach, hz, fun d hd hlen hout hsame => ?_⟩
  have hbytes : d.inMem.slice 0 d.inLen.toNat = y ++ eosBytes := by
    rw [hlen, ← hstream]
    exact Memory.slice_congr fun i hi => hsame (0 + i) (by omega)
  rw [← hout] at hplay ⊢
  exact decompress_plays_stream hd hbytes hplay

/-- Settles O42: the bytes are those of the chosen instruction, whose form and cost are picked by the same tests. -/
theorem matchFormAndCost : Obligations.MatchFormAndCost := by
  unfold Obligations.MatchFormAndCost
  intro dist len hlo hhi hlen
  obtain ⟨hcost, -⟩ := length_emitMatch dist len
  refine ⟨?_, hcost, rfl⟩
  rw [emitMatch_eq_encodeWire hlo hhi hlen, matchInstr, apply_ite encodeWire, apply_ite encodeWire,
    apply_ite encodeWire]

end Sys2Proof.Proofs

/-!
The commands of the host (rules R200 to R207): INIT, a rejected value of `CMD`, what a running job keeps the host from
writing and what its registers read, and who waits for whom.
-/

namespace Sys2Proof.Proofs

open Sys2Proof.Machine Sys2Proof.Laws

/-! ## Commands that end at once on an idle CORE (rules R202, R205) -/

/-- Where no job runs, the end of a command leaves the engine idle as it was (rule R207). -/
theorem endJob_idle {s : State} (k : Kind) (len fip fop : Nat) (h : s.active = .idle) :
    s.endJob k len fip fop = { s with
      outLen := BitVec.ofNat s.posBits len, faultIp := BitVec.ofNat s.posBits fip
      faultOp := BitVec.ofNat s.posBits fop, code := k, done := true } := by
  rw [State.endJob, ← h]

/-- A value with a reserved bit set selects no command and is rejected (rule R205). -/
theorem commandWrite_reserved {s : State} {v : Word s.posBits} (h : s.active = .idle) (hv : 4 ≤ v.toNat) :
    commandWrite s v = .next s.rejectCommand := by
  rw [commandWrite, if_neg fun hb => (busy_eq_true s).mp hb h, decodeCommand_eq_none_iff.mpr hv]

/-- The rejection of a command records no cursors, as no engine has started (rules R205, R232). -/
theorem rejectCommand_idle {s : State} (h : s.active = .idle) :
    s.rejectCommand = { s with
      done := true, code := .invalidArgument, outLen := 0, faultIp := 0, faultOp := 0 } := by
  rw [State.rejectCommand, State.raise, faultCursors_idle s h]
  exact endJob_idle .invalidArgument 0 0 0 h

/-! ## The host while a job runs (rule R206) -/

/-- While a job runs a write to any job register is ignored. -/
theorem registerWrite_busy {s : State} (r : Fin 8) (v : Word s.posBits) (h : s.active ≠ .idle) :
    registerWrite s r v = .next s := by
  by_cases hr : r = 0
  · subst hr
    exact if_pos ((busy_eq_true s).mpr h)
  · rw [registerWrite_operand s v hr, writeOperandReg_busy s r v h]

/-- While a legal job runs, `STATUS` reads `BUSY` and `INIT_OK` only. -/
theorem status_busy {s : State} (hinv : s.Inv) (h : s.active ≠ .idle) : s.status = 5 := by
  obtain ⟨hdone, hinit, hcode, -⟩ := hinv.registers.busyClear h
  rw [State.status, (busy_eq_true s).mpr h, hdone, hinit, hcode]
  rfl

/-! ## Who moves (rules R206, R207, R245) -/

theorem engineStep_idle {s : State} (h : s.active = .idle) : engineStep s = .next s := by
  simp [engineStep, h]

theorem hostMove_awaitDone_idle {s : State} (rest : List (HostAction s.posBits)) (h : s.active = .idle) :
    hostMove s .awaitDone rest = .next { s with inputs := rest } :=
  if_neg fun hb => (busy_eq_true s).mp hb h

theorem hostMove_awaitDone_busy {s : State} (rest : List (HostAction s.posBits)) (h : s.active ≠ .idle) :
    hostMove s .awaitDone rest = engineStep s :=
  if_pos ((busy_eq_true s).mpr h)

/-! ## The obligations -/

/-- Settles O9: a poll passes on an idle CORE and lets the engine of a running job step, which keeps the host's side;
the engine of an idle CORE leaves the state. -/
theorem hostWaitsForTheEngine : Obligations.HostWaitsForTheEngine := by
  unfold Obligations.HostWaitsForTheEngine
  refine ⟨fun s more hidle hin => ?_, fun s t more hbusy hin hst => ?_, fun s => step_idle, fun s more hidle hin => ?_⟩
  · exact (step_host hin).trans (hostMove_awaitDone_idle more hidle)
  · rw [step_host hin, hostMove_awaitDone_busy more hbusy] at hst
    exact ⟨hst, engineStep_same hst⟩
  · exact (step_host hin).trans (engineStep_idle (s := { s with inputs := more }) hidle)

/-- Settles O26: INIT on an idle CORE is the end of a command with `INIT_OK` set. -/
theorem initSetsInitOk : Obligations.InitSetsInitOk := by
  unfold Obligations.InitSetsInitOk
  intro s hidle
  calc exec .init s = .next s.initialise := whenIdle_idle s State.initialise hidle
    _ = _ := congrArg _ (endJob_idle (s := { s with initOk := true }) .ok 0 0 0 hidle)

/-- Settles O32: the value is 4 or more, so it is rejected, and no engine has cursors to record. -/
theorem reservedCommandBitsAreInvalid : Obligations.ReservedCommandBitsAreInvalid := by
  unfold Obligations.ReservedCommandBitsAreInvalid
  intro s v more hidle hin hv
  have hreserved : 4 ≤ v.toNat := by omega
  calc step s = commandWrite { s with inputs := more } v := step_host hin
    _ = .next (State.rejectCommand { s with inputs := more }) := commandWrite_reserved hidle hreserved
    _ = _ := congrArg _ (rejectCommand_idle (s := { s with inputs := more }) hidle)

/-- Settles O33: every register write tests `BUSY` first; the result registers are clear by the invariant. -/
theorem writesWhileBusyAreIgnored : Obligations.WritesWhileBusyAreIgnored := by
  unfold Obligations.WritesWhileBusyAreIgnored
  refine ⟨fun s r v more hbusy hin => ?_, fun s hinv hbusy => ?_⟩
  · exact (step_host hin).trans (registerWrite_busy (s := { s with inputs := more }) r v hbusy)
  · obtain ⟨-, -, hcode, hlen⟩ := hinv.registers.busyClear hbusy
    obtain ⟨hip, hop⟩ := hinv.registers.okNoFault hcode
    exact ⟨status_busy hinv hbusy, hlen, hip, hop⟩

end Sys2Proof.Proofs

/-!
Jobs that end at their start (rules R203, R204, R217, R218): the two checks of a job start, and what is left of the
state where one of them raises.
-/

namespace Sys2Proof.Proofs

open Sys2Proof.Machine Sys2Proof.Laws

/-! ## The commands on an idle CORE (rules R203, R204) -/

theorem exec_compress_idle {s : State} (h : s.active = .idle) : exec .compress s = .next s.beginCompress :=
  whenIdle_idle s State.beginCompress h

theorem exec_decompress_idle {s : State} (h : s.active = .idle) : exec .decompress s = .next s.beginDecompress :=
  whenIdle_idle s State.beginDecompress h

/-! ## The checks of a job start (rules R217, R218) -/

theorem beginCompress_error {s : State} (h : s.initOk = false) : s.beginCompress = s.startEncoder.raise .error :=
  if_pos h

theorem beginDecompress_error {s : State} (h : s.initOk = false) : s.beginDecompress = s.startDecoder.raise .error :=
  if_pos h

/-- The `INIT_OK` test comes before the capacity test, so it must have passed (rule R218). -/
theorem beginCompress_outOfMemory {s : State} (hinit : s.initOk = true)
    (hcap : s.outCap.toNat < worstCase s.inLen.toNat) : s.beginCompress = s.startEncoder.raise .outOfMemory := by
  rw [State.beginCompress, if_neg (by simp [hinit]), if_pos hcap]

/-- A DECOMPRESS job starts with code Ok, or has ended with `Error` for the lack of an INIT (rule R204). -/
theorem beginDecompress_code (s : State) : s.beginDecompress.code = .error ∨ s.beginDecompress.code = .ok := by
  rcases beginDecompress_cases s with ⟨-, e⟩ | ⟨-, e⟩
  · exact .inl (e ▸ raise_code s.startDecoder .error)
  · exact .inr (e ▸ startDecoder_code s)

/-! ## A fault at job start (rules R40, R232)

Job start has just zeroed the cursors the fault records, and fault entry makes the CORE idle again. -/

/-- A COMPRESS that fails at its start keeps of its job start the encoder's call-scoped registers only. -/
theorem raise_startEncoder {s : State} (k : Kind) (h : s.active = .idle) : s.startEncoder.raise k =
    { s with
      done := true, code := k, outLen := 0, faultIp := 0, faultOp := 0
      eip := 0, eii := 0, eop := 0, ht := [] } := by
  rw [State.raise, State.endJob, ← h]
  rfl

/-- A DECOMPRESS that fails at its start keeps of its job start the decoder's call-scoped registers only. -/
theorem raise_startDecoder {s : State} (k : Kind) (h : s.active = .idle) : s.startDecoder.raise k =
    { s with
      done := true, code := k, outLen := 0, faultIp := 0, faultOp := 0
      ip := 0, op := 0, st := .start, ipc := 0, opc := 0 } := by
  rw [State.raise, State.endJob, ← h]
  rfl

/-! ## The obligations -/

/-- Settles O29: the `INIT_OK` test of either command raises `Error` right after job start. -/
theorem jobBeforeInitFails : Obligations.JobBeforeInitFails := by
  unfold Obligations.JobBeforeInitFails
  rintro i s (rfl | rfl) hidle hinit
  · refine ⟨s.ip, s.op, s.st, s.ipc, s.opc, 0, 0, 0, [], ?_⟩
    rw [exec_compress_idle hidle, beginCompress_error hinit, raise_startEncoder .error hidle]
  · refine ⟨0, 0, .start, 0, 0, s.eip, s.eii, s.eop, s.ht, ?_⟩
    rw [exec_decompress_idle hidle, beginDecompress_error hinit, raise_startDecoder .error hidle]

/-- Settles O30: a capacity below the formula is below the worst case that COMPRESS tests for, and a DECOMPRESS start
leaves `Error` or Ok in `CODE`. -/
theorem compressNeedsTheCapacity : Obligations.CompressNeedsTheCapacity := by
  unfold Obligations.CompressNeedsTheCapacity
  refine ⟨fun s hidle hinit hcap => ⟨0, 0, 0, [], ?_⟩, fun s t hidle hstart => ?_⟩
  · have hworst : s.outCap.toNat < worstCase s.inLen.toNat := hcap
    rw [exec_compress_idle hidle, beginCompress_outOfMemory hinit hworst, raise_startEncoder .outOfMemory hidle]
  · rw [exec_decompress_idle hidle] at hstart
    obtain rfl : s.beginDecompress = t := Host.Outcome.next.inj hstart
    rcases beginDecompress_code s with e | e
    · simp [e]
    · simp [e]

end Sys2Proof.Proofs
